-- ==== Sys2Proof/Word.lean ====
section
/-! DEFINITION. The word types of the audio core. The block has no general registers (R31): these are the widths
of its command words, its binary32 patterns, its memory bytes and its output samples. -/

namespace Sys2Proof

/-- A command word or a response register: 32 bits, bit 0 the least significant (R8, R100). -/
abbrev Word := BitVec 32

/-- An IEEE 754 binary32 value, held as its bit pattern (R9, R64). Two patterns are equal here exactly when they are
the same bits: numeric comparison is `F32.le`, `F32.lt` and `F32.ge` (`Machine/F32.lean`). -/
abbrev F32 := BitVec 32

/-- A byte of one of the block's memory spaces (R60). -/
abbrev Byte := BitVec 8

/-- A 16-bit two's-complement output sample (R63). -/
abbrev Sample := BitVec 16

end Sys2Proof
end

