-- ==== Sys2Proof/Config.lean ====
section
/-! DEFINITION. The implementation parameters of the block (R6) and its free values.

The parameters that are plain data are the record `Config`, which the machine carries in its state and never writes
(log 1). The one parameter that is a function of unbounded arguments, LPFC, and every value the spec leaves open are
opaque constants: nothing in Lean can evaluate one, so a statement holds whatever it is. -/

namespace Sys2Proof

/-- The envelope parameters ENV (R6, R201). -/
structure EnvConfig where
  attackTime   : F32
  decayTime    : F32
  releaseTime  : F32
  attackLevel  : F32
  sustainLevel : F32
deriving DecidableEq, Repr, Inhabited

/-- What LPFC returns: b0, b1, b2, a1, a2 (R224). -/
structure LpfCoeffs where
  b0 : F32
  b1 : F32
  b2 : F32
  a1 : F32
  a2 : F32
deriving DecidableEq, Repr, Inhabited

/-- The implementation parameters of R6 that are plain data. T = 256, NWF = 5 and NSLOT = 2 are fixed by the source.
The legal ranges are the checks of R381 (`Machine/ConfigCheck.lean`). -/
structure Config where
  /-- NV, the voice pool size. -/
  nv     : Nat
  /-- SR, the sample rate in Hz. -/
  sr     : Nat
  /-- H, the frames of one half-buffer. -/
  h      : Nat
  /-- L, the delay buffer length in samples. -/
  l      : Nat
  /-- WT, the wavetable store, table-major: entry i of table w is element w * 256 + i (R61). -/
  wt     : List F32
  /-- ENV, one record for every voice. -/
  env    : EnvConfig
  /-- VGAIN, one amplitude for each velocity 0..127 (R275). -/
  vgain  : List F32
  /-- OSCALE, the float-to-sample scale of the output stage (R315). -/
  oscale : F32
deriving DecidableEq, Repr, Inhabited

/-- LPFC: the coefficient function (SR, cutoff, q) → (b0, b1, b2, a1, a2). "A model must take LPFC as an argument, and
must assume nothing of it except that it depends on those three operands alone" (R224). It is total, which is check c10
of R381. -/
opaque Config.lpfc : F32 → F32 → F32 → LpfCoeffs

/-- FREE VALUE (log 2). The encoding of a NaN result: "A NaN result of an operation may have any NaN encoding" (R9, U14).
The arguments name the operation that produced it: the step's fresh number (`State.fresh`), the frame, the unit
(a voice, a slot or the output stage) and the operation's place in that unit, so that no two operations share one. -/
opaque Config.freeNaN : (step frame unit op : Nat) → BitVec 32

/-- FREE VALUE (log 3). `floor` of an infinity or a NaN: R10 defines it "for finite f32 x" only. -/
opaque Config.freeFloor : F32 → Int

/-- FREE VALUE (log 3). `round` of an infinity or a NaN: R10 defines it "for finite f32 x" only. -/
opaque Config.freeRound : F32 → Int

/-- FREE VALUE (log 3). `wrap` of an infinity or a NaN: R154 maps "a finite f32 p". -/
opaque Config.freeWrap : F32 → F32

/-- FREE VALUE (log 3). `u32(n)` of an integer outside 0..2^32 - 1: "every use has 0 ≤ n ≤ 2^32 − 1" (R10). -/
opaque Config.freeU32 : Int → BitVec 32

/-- FREE VALUE (log 4). Which of two pending renders is served first: "the order in which they are served is not
specified. A model must admit both orders" (R347 point 2, U10). True serves the first half. The argument is the step's
fresh number. -/
opaque Config.halfServedFirst : Nat → Bool

end Sys2Proof
end

