-- ==== Sys2Proof/Config/Reference.lean ====
section
/-! DEFINITION. The reference configuration TC1 of 95_test_vectors.md, the one `State.reset` starts from (log 1).
Every parameter is the spec's own reference value (D3). Statements about the machine hold for every configuration; this
one makes the model run. -/

namespace Sys2Proof.Reference

/-- WT[0] SAW: entry k is (k − 128)/128. -/
def sawTable : List F32 :=
  [0xBF800000, 0xBF7E0000, 0xBF7C0000, 0xBF7A0000, 0xBF780000, 0xBF760000, 0xBF740000, 0xBF720000,
   0xBF700000, 0xBF6E0000, 0xBF6C0000, 0xBF6A0000, 0xBF680000, 0xBF660000, 0xBF640000, 0xBF620000,
   0xBF600000, 0xBF5E0000, 0xBF5C0000, 0xBF5A0000, 0xBF580000, 0xBF560000, 0xBF540000, 0xBF520000,
   0xBF500000, 0xBF4E0000, 0xBF4C0000, 0xBF4A0000, 0xBF480000, 0xBF460000, 0xBF440000, 0xBF420000,
   0xBF400000, 0xBF3E0000, 0xBF3C0000, 0xBF3A0000, 0xBF380000, 0xBF360000, 0xBF340000, 0xBF320000,
   0xBF300000, 0xBF2E0000, 0xBF2C0000, 0xBF2A0000, 0xBF280000, 0xBF260000, 0xBF240000, 0xBF220000,
   0xBF200000, 0xBF1E0000, 0xBF1C0000, 0xBF1A0000, 0xBF180000, 0xBF160000, 0xBF140000, 0xBF120000,
   0xBF100000, 0xBF0E0000, 0xBF0C0000, 0xBF0A0000, 0xBF080000, 0xBF060000, 0xBF040000, 0xBF020000] ++
  [0xBF000000, 0xBEFC0000, 0xBEF80000, 0xBEF40000, 0xBEF00000, 0xBEEC0000, 0xBEE80000, 0xBEE40000,
   0xBEE00000, 0xBEDC0000, 0xBED80000, 0xBED40000, 0xBED00000, 0xBECC0000, 0xBEC80000, 0xBEC40000,
   0xBEC00000, 0xBEBC0000, 0xBEB80000, 0xBEB40000, 0xBEB00000, 0xBEAC0000, 0xBEA80000, 0xBEA40000,
   0xBEA00000, 0xBE9C0000, 0xBE980000, 0xBE940000, 0xBE900000, 0xBE8C0000, 0xBE880000, 0xBE840000,
   0xBE800000, 0xBE780000, 0xBE700000, 0xBE680000, 0xBE600000, 0xBE580000, 0xBE500000, 0xBE480000,
   0xBE400000, 0xBE380000, 0xBE300000, 0xBE280000, 0xBE200000, 0xBE180000, 0xBE100000, 0xBE080000,
   0xBE000000, 0xBDF00000, 0xBDE00000, 0xBDD00000, 0xBDC00000, 0xBDB00000, 0xBDA00000, 0xBD900000,
   0xBD800000, 0xBD600000, 0xBD400000, 0xBD200000, 0xBD000000, 0xBCC00000, 0xBC800000, 0xBC000000] ++
  [0x00000000, 0x3C000000, 0x3C800000, 0x3CC00000, 0x3D000000, 0x3D200000, 0x3D400000, 0x3D600000,
   0x3D800000, 0x3D900000, 0x3DA00000, 0x3DB00000, 0x3DC00000, 0x3DD00000, 0x3DE00000, 0x3DF00000,
   0x3E000000, 0x3E080000, 0x3E100000, 0x3E180000, 0x3E200000, 0x3E280000, 0x3E300000, 0x3E380000,
   0x3E400000, 0x3E480000, 0x3E500000, 0x3E580000, 0x3E600000, 0x3E680000, 0x3E700000, 0x3E780000,
   0x3E800000, 0x3E840000, 0x3E880000, 0x3E8C0000, 0x3E900000, 0x3E940000, 0x3E980000, 0x3E9C0000,
   0x3EA00000, 0x3EA40000, 0x3EA80000, 0x3EAC0000, 0x3EB00000, 0x3EB40000, 0x3EB80000, 0x3EBC0000,
   0x3EC00000, 0x3EC40000, 0x3EC80000, 0x3ECC0000, 0x3ED00000, 0x3ED40000, 0x3ED80000, 0x3EDC0000,
   0x3EE00000, 0x3EE40000, 0x3EE80000, 0x3EEC0000, 0x3EF00000, 0x3EF40000, 0x3EF80000, 0x3EFC0000] ++
  [0x3F000000, 0x3F020000, 0x3F040000, 0x3F060000, 0x3F080000, 0x3F0A0000, 0x3F0C0000, 0x3F0E0000,
   0x3F100000, 0x3F120000, 0x3F140000, 0x3F160000, 0x3F180000, 0x3F1A0000, 0x3F1C0000, 0x3F1E0000,
   0x3F200000, 0x3F220000, 0x3F240000, 0x3F260000, 0x3F280000, 0x3F2A0000, 0x3F2C0000, 0x3F2E0000,
   0x3F300000, 0x3F320000, 0x3F340000, 0x3F360000, 0x3F380000, 0x3F3A0000, 0x3F3C0000, 0x3F3E0000,
   0x3F400000, 0x3F420000, 0x3F440000, 0x3F460000, 0x3F480000, 0x3F4A0000, 0x3F4C0000, 0x3F4E0000,
   0x3F500000, 0x3F520000, 0x3F540000, 0x3F560000, 0x3F580000, 0x3F5A0000, 0x3F5C0000, 0x3F5E0000,
   0x3F600000, 0x3F620000, 0x3F640000, 0x3F660000, 0x3F680000, 0x3F6A0000, 0x3F6C0000, 0x3F6E0000,
   0x3F700000, 0x3F720000, 0x3F740000, 0x3F760000, 0x3F780000, 0x3F7A0000, 0x3F7C0000, 0x3F7E0000]

/-- WT[1] RSAW: entry k is (128 − k)/128. -/
def reverseSawTable : List F32 :=
  [0x3F800000, 0x3F7E0000, 0x3F7C0000, 0x3F7A0000, 0x3F780000, 0x3F760000, 0x3F740000, 0x3F720000,
   0x3F700000, 0x3F6E0000, 0x3F6C0000, 0x3F6A0000, 0x3F680000, 0x3F660000, 0x3F640000, 0x3F620000,
   0x3F600000, 0x3F5E0000, 0x3F5C0000, 0x3F5A0000, 0x3F580000, 0x3F560000, 0x3F540000, 0x3F520000,
   0x3F500000, 0x3F4E0000, 0x3F4C0000, 0x3F4A0000, 0x3F480000, 0x3F460000, 0x3F440000, 0x3F420000,
   0x3F400000, 0x3F3E0000, 0x3F3C0000, 0x3F3A0000, 0x3F380000, 0x3F360000, 0x3F340000, 0x3F320000,
   0x3F300000, 0x3F2E0000, 0x3F2C0000, 0x3F2A0000, 0x3F280000, 0x3F260000, 0x3F240000, 0x3F220000,
   0x3F200000, 0x3F1E0000, 0x3F1C0000, 0x3F1A0000, 0x3F180000, 0x3F160000, 0x3F140000, 0x3F120000,
   0x3F100000, 0x3F0E0000, 0x3F0C0000, 0x3F0A0000, 0x3F080000, 0x3F060000, 0x3F040000, 0x3F020000] ++
  [0x3F000000, 0x3EFC0000, 0x3EF80000, 0x3EF40000, 0x3EF00000, 0x3EEC0000, 0x3EE80000, 0x3EE40000,
   0x3EE00000, 0x3EDC0000, 0x3ED80000, 0x3ED40000, 0x3ED00000, 0x3ECC0000, 0x3EC80000, 0x3EC40000,
   0x3EC00000, 0x3EBC0000, 0x3EB80000, 0x3EB40000, 0x3EB00000, 0x3EAC0000, 0x3EA80000, 0x3EA40000,
   0x3EA00000, 0x3E9C0000, 0x3E980000, 0x3E940000, 0x3E900000, 0x3E8C0000, 0x3E880000, 0x3E840000,
   0x3E800000, 0x3E780000, 0x3E700000, 0x3E680000, 0x3E600000, 0x3E580000, 0x3E500000, 0x3E480000,
   0x3E400000, 0x3E380000, 0x3E300000, 0x3E280000, 0x3E200000, 0x3E180000, 0x3E100000, 0x3E080000,
   0x3E000000, 0x3DF00000, 0x3DE00000, 0x3DD00000, 0x3DC00000, 0x3DB00000, 0x3DA00000, 0x3D900000,
   0x3D800000, 0x3D600000, 0x3D400000, 0x3D200000, 0x3D000000, 0x3CC00000, 0x3C800000, 0x3C000000] ++
  [0x00000000, 0xBC000000, 0xBC800000, 0xBCC00000, 0xBD000000, 0xBD200000, 0xBD400000, 0xBD600000,
   0xBD800000, 0xBD900000, 0xBDA00000, 0xBDB00000, 0xBDC00000, 0xBDD00000, 0xBDE00000, 0xBDF00000,
   0xBE000000, 0xBE080000, 0xBE100000, 0xBE180000, 0xBE200000, 0xBE280000, 0xBE300000, 0xBE380000,
   0xBE400000, 0xBE480000, 0xBE500000, 0xBE580000, 0xBE600000, 0xBE680000, 0xBE700000, 0xBE780000,
   0xBE800000, 0xBE840000, 0xBE880000, 0xBE8C0000, 0xBE900000, 0xBE940000, 0xBE980000, 0xBE9C0000,
   0xBEA00000, 0xBEA40000, 0xBEA80000, 0xBEAC0000, 0xBEB00000, 0xBEB40000, 0xBEB80000, 0xBEBC0000,
   0xBEC00000, 0xBEC40000, 0xBEC80000, 0xBECC0000, 0xBED00000, 0xBED40000, 0xBED80000, 0xBEDC0000,
   0xBEE00000, 0xBEE40000, 0xBEE80000, 0xBEEC0000, 0xBEF00000, 0xBEF40000, 0xBEF80000, 0xBEFC0000] ++
  [0xBF000000, 0xBF020000, 0xBF040000, 0xBF060000, 0xBF080000, 0xBF0A0000, 0xBF0C0000, 0xBF0E0000,
   0xBF100000, 0xBF120000, 0xBF140000, 0xBF160000, 0xBF180000, 0xBF1A0000, 0xBF1C0000, 0xBF1E0000,
   0xBF200000, 0xBF220000, 0xBF240000, 0xBF260000, 0xBF280000, 0xBF2A0000, 0xBF2C0000, 0xBF2E0000,
   0xBF300000, 0xBF320000, 0xBF340000, 0xBF360000, 0xBF380000, 0xBF3A0000, 0xBF3C0000, 0xBF3E0000,
   0xBF400000, 0xBF420000, 0xBF440000, 0xBF460000, 0xBF480000, 0xBF4A0000, 0xBF4C0000, 0xBF4E0000,
   0xBF500000, 0xBF520000, 0xBF540000, 0xBF560000, 0xBF580000, 0xBF5A0000, 0xBF5C0000, 0xBF5E0000,
   0xBF600000, 0xBF620000, 0xBF640000, 0xBF660000, 0xBF680000, 0xBF6A0000, 0xBF6C0000, 0xBF6E0000,
   0xBF700000, 0xBF720000, 0xBF740000, 0xBF760000, 0xBF780000, 0xBF7A0000, 0xBF7C0000, 0xBF7E0000]

/-- WT[2] SQUARE: 1.0 for k < 128 and −1.0 for k ≥ 128. -/
def squareTable : List F32 := List.replicate 128 0x3F800000 ++ List.replicate 128 0xBF800000

/-- WT[3] SINE: the binary32 value nearest sin(2πk/256). -/
def sineTable : List F32 :=
  [0x00000000, 0x3CC90AB0, 0x3D48FB30, 0x3D96A905, 0x3DC8BD36, 0x3DFAB273, 0x3E164083, 0x3E2F10A2,
   0x3E47C5C2, 0x3E605C13, 0x3E78CFCC, 0x3E888E93, 0x3E94A031, 0x3EA09AE5, 0x3EAC7CD4, 0x3EB8442A,
   0x3EC3EF15, 0x3ECF7BCA, 0x3EDAE880, 0x3EE63375, 0x3EF15AEA, 0x3EFC5D27, 0x3F039C3D, 0x3F08F59B,
   0x3F0E39DA, 0x3F13682A, 0x3F187FC0, 0x3F1D7FD1, 0x3F226799, 0x3F273656, 0x3F2BEB4A, 0x3F3085BB,
   0x3F3504F3, 0x3F396842, 0x3F3DAEF9, 0x3F41D870, 0x3F45E403, 0x3F49D112, 0x3F4D9F02, 0x3F514D3D,
   0x3F54DB31, 0x3F584853, 0x3F5B941A, 0x3F5EBE05, 0x3F61C598, 0x3F64AA59, 0x3F676BD8, 0x3F6A09A7,
   0x3F6C835E, 0x3F6ED89E, 0x3F710908, 0x3F731447, 0x3F74FA0B, 0x3F76BA07, 0x3F7853F8, 0x3F79C79D,
   0x3F7B14BE, 0x3F7C3B28, 0x3F7D3AAC, 0x3F7E1324, 0x3F7EC46D, 0x3F7F4E6D, 0x3F7FB10F, 0x3F7FEC43] ++
  [0x3F800000, 0x3F7FEC43, 0x3F7FB10F, 0x3F7F4E6D, 0x3F7EC46D, 0x3F7E1324, 0x3F7D3AAC, 0x3F7C3B28,
   0x3F7B14BE, 0x3F79C79D, 0x3F7853F8, 0x3F76BA07, 0x3F74FA0B, 0x3F731447, 0x3F710908, 0x3F6ED89E,
   0x3F6C835E, 0x3F6A09A7, 0x3F676BD8, 0x3F64AA59, 0x3F61C598, 0x3F5EBE05, 0x3F5B941A, 0x3F584853,
   0x3F54DB31, 0x3F514D3D, 0x3F4D9F02, 0x3F49D112, 0x3F45E403, 0x3F41D870, 0x3F3DAEF9, 0x3F396842,
   0x3F3504F3, 0x3F3085BB, 0x3F2BEB4A, 0x3F273656, 0x3F226799, 0x3F1D7FD1, 0x3F187FC0, 0x3F13682A,
   0x3F0E39DA, 0x3F08F59B, 0x3F039C3D, 0x3EFC5D27, 0x3EF15AEA, 0x3EE63375, 0x3EDAE880, 0x3ECF7BCA,
   0x3EC3EF15, 0x3EB8442A, 0x3EAC7CD4, 0x3EA09AE5, 0x3E94A031, 0x3E888E93, 0x3E78CFCC, 0x3E605C13,
   0x3E47C5C2, 0x3E2F10A2, 0x3E164083, 0x3DFAB273, 0x3DC8BD36, 0x3D96A905, 0x3D48FB30, 0x3CC90AB0] ++
  [0x00000000, 0xBCC90AB0, 0xBD48FB30, 0xBD96A905, 0xBDC8BD36, 0xBDFAB273, 0xBE164083, 0xBE2F10A2,
   0xBE47C5C2, 0xBE605C13, 0xBE78CFCC, 0xBE888E93, 0xBE94A031, 0xBEA09AE5, 0xBEAC7CD4, 0xBEB8442A,
   0xBEC3EF15, 0xBECF7BCA, 0xBEDAE880, 0xBEE63375, 0xBEF15AEA, 0xBEFC5D27, 0xBF039C3D, 0xBF08F59B,
   0xBF0E39DA, 0xBF13682A, 0xBF187FC0, 0xBF1D7FD1, 0xBF226799, 0xBF273656, 0xBF2BEB4A, 0xBF3085BB,
   0xBF3504F3, 0xBF396842, 0xBF3DAEF9, 0xBF41D870, 0xBF45E403, 0xBF49D112, 0xBF4D9F02, 0xBF514D3D,
   0xBF54DB31, 0xBF584853, 0xBF5B941A, 0xBF5EBE05, 0xBF61C598, 0xBF64AA59, 0xBF676BD8, 0xBF6A09A7,
   0xBF6C835E, 0xBF6ED89E, 0xBF710908, 0xBF731447, 0xBF74FA0B, 0xBF76BA07, 0xBF7853F8, 0xBF79C79D,
   0xBF7B14BE, 0xBF7C3B28, 0xBF7D3AAC, 0xBF7E1324, 0xBF7EC46D, 0xBF7F4E6D, 0xBF7FB10F, 0xBF7FEC43] ++
  [0xBF800000, 0xBF7FEC43, 0xBF7FB10F, 0xBF7F4E6D, 0xBF7EC46D, 0xBF7E1324, 0xBF7D3AAC, 0xBF7C3B28,
   0xBF7B14BE, 0xBF79C79D, 0xBF7853F8, 0xBF76BA07, 0xBF74FA0B, 0xBF731447, 0xBF710908, 0xBF6ED89E,
   0xBF6C835E, 0xBF6A09A7, 0xBF676BD8, 0xBF64AA59, 0xBF61C598, 0xBF5EBE05, 0xBF5B941A, 0xBF584853,
   0xBF54DB31, 0xBF514D3D, 0xBF4D9F02, 0xBF49D112, 0xBF45E403, 0xBF41D870, 0xBF3DAEF9, 0xBF396842,
   0xBF3504F3, 0xBF3085BB, 0xBF2BEB4A, 0xBF273656, 0xBF226799, 0xBF1D7FD1, 0xBF187FC0, 0xBF13682A,
   0xBF0E39DA, 0xBF08F59B, 0xBF039C3D, 0xBEFC5D27, 0xBEF15AEA, 0xBEE63375, 0xBEDAE880, 0xBECF7BCA,
   0xBEC3EF15, 0xBEB8442A, 0xBEAC7CD4, 0xBEA09AE5, 0xBE94A031, 0xBE888E93, 0xBE78CFCC, 0xBE605C13,
   0xBE47C5C2, 0xBE2F10A2, 0xBE164083, 0xBDFAB273, 0xBDC8BD36, 0xBD96A905, 0xBD48FB30, 0xBCC90AB0]

/-- WT[4] TRIANGLE: k/64 for k < 64, 2 − k/64 for 64 ≤ k < 192, k/64 − 4 for k ≥ 192. -/
def triangleTable : List F32 :=
  [0x00000000, 0x3C800000, 0x3D000000, 0x3D400000, 0x3D800000, 0x3DA00000, 0x3DC00000, 0x3DE00000,
   0x3E000000, 0x3E100000, 0x3E200000, 0x3E300000, 0x3E400000, 0x3E500000, 0x3E600000, 0x3E700000,
   0x3E800000, 0x3E880000, 0x3E900000, 0x3E980000, 0x3EA00000, 0x3EA80000, 0x3EB00000, 0x3EB80000,
   0x3EC00000, 0x3EC80000, 0x3ED00000, 0x3ED80000, 0x3EE00000, 0x3EE80000, 0x3EF00000, 0x3EF80000,
   0x3F000000, 0x3F040000, 0x3F080000, 0x3F0C0000, 0x3F100000, 0x3F140000, 0x3F180000, 0x3F1C0000,
   0x3F200000, 0x3F240000, 0x3F280000, 0x3F2C0000, 0x3F300000, 0x3F340000, 0x3F380000, 0x3F3C0000,
   0x3F400000, 0x3F440000, 0x3F480000, 0x3F4C0000, 0x3F500000, 0x3F540000, 0x3F580000, 0x3F5C0000,
   0x3F600000, 0x3F640000, 0x3F680000, 0x3F6C0000, 0x3F700000, 0x3F740000, 0x3F780000, 0x3F7C0000] ++
  [0x3F800000, 0x3F7C0000, 0x3F780000, 0x3F740000, 0x3F700000, 0x3F6C0000, 0x3F680000, 0x3F640000,
   0x3F600000, 0x3F5C0000, 0x3F580000, 0x3F540000, 0x3F500000, 0x3F4C0000, 0x3F480000, 0x3F440000,
   0x3F400000, 0x3F3C0000, 0x3F380000, 0x3F340000, 0x3F300000, 0x3F2C0000, 0x3F280000, 0x3F240000,
   0x3F200000, 0x3F1C0000, 0x3F180000, 0x3F140000, 0x3F100000, 0x3F0C0000, 0x3F080000, 0x3F040000,
   0x3F000000, 0x3EF80000, 0x3EF00000, 0x3EE80000, 0x3EE00000, 0x3ED80000, 0x3ED00000, 0x3EC80000,
   0x3EC00000, 0x3EB80000, 0x3EB00000, 0x3EA80000, 0x3EA00000, 0x3E980000, 0x3E900000, 0x3E880000,
   0x3E800000, 0x3E700000, 0x3E600000, 0x3E500000, 0x3E400000, 0x3E300000, 0x3E200000, 0x3E100000,
   0x3E000000, 0x3DE00000, 0x3DC00000, 0x3DA00000, 0x3D800000, 0x3D400000, 0x3D000000, 0x3C800000] ++
  [0x00000000, 0xBC800000, 0xBD000000, 0xBD400000, 0xBD800000, 0xBDA00000, 0xBDC00000, 0xBDE00000,
   0xBE000000, 0xBE100000, 0xBE200000, 0xBE300000, 0xBE400000, 0xBE500000, 0xBE600000, 0xBE700000,
   0xBE800000, 0xBE880000, 0xBE900000, 0xBE980000, 0xBEA00000, 0xBEA80000, 0xBEB00000, 0xBEB80000,
   0xBEC00000, 0xBEC80000, 0xBED00000, 0xBED80000, 0xBEE00000, 0xBEE80000, 0xBEF00000, 0xBEF80000,
   0xBF000000, 0xBF040000, 0xBF080000, 0xBF0C0000, 0xBF100000, 0xBF140000, 0xBF180000, 0xBF1C0000,
   0xBF200000, 0xBF240000, 0xBF280000, 0xBF2C0000, 0xBF300000, 0xBF340000, 0xBF380000, 0xBF3C0000,
   0xBF400000, 0xBF440000, 0xBF480000, 0xBF4C0000, 0xBF500000, 0xBF540000, 0xBF580000, 0xBF5C0000,
   0xBF600000, 0xBF640000, 0xBF680000, 0xBF6C0000, 0xBF700000, 0xBF740000, 0xBF780000, 0xBF7C0000] ++
  [0xBF800000, 0xBF7C0000, 0xBF780000, 0xBF740000, 0xBF700000, 0xBF6C0000, 0xBF680000, 0xBF640000,
   0xBF600000, 0xBF5C0000, 0xBF580000, 0xBF540000, 0xBF500000, 0xBF4C0000, 0xBF480000, 0xBF440000,
   0xBF400000, 0xBF3C0000, 0xBF380000, 0xBF340000, 0xBF300000, 0xBF2C0000, 0xBF280000, 0xBF240000,
   0xBF200000, 0xBF1C0000, 0xBF180000, 0xBF140000, 0xBF100000, 0xBF0C0000, 0xBF080000, 0xBF040000,
   0xBF000000, 0xBEF80000, 0xBEF00000, 0xBEE80000, 0xBEE00000, 0xBED80000, 0xBED00000, 0xBEC80000,
   0xBEC00000, 0xBEB80000, 0xBEB00000, 0xBEA80000, 0xBEA00000, 0xBE980000, 0xBE900000, 0xBE880000,
   0xBE800000, 0xBE700000, 0xBE600000, 0xBE500000, 0xBE400000, 0xBE300000, 0xBE200000, 0xBE100000,
   0xBE000000, 0xBDE00000, 0xBDC00000, 0xBDA00000, 0xBD800000, 0xBD400000, 0xBD000000, 0xBC800000]

/-- VGAIN: f32(v) / 127.0 for each velocity v (R275). -/
def velocityGain : List F32 :=
  [0x00000000, 0x3C010204, 0x3C810204, 0x3CC18306, 0x3D010204, 0x3D214285, 0x3D418306, 0x3D61C387,
   0x3D810204, 0x3D912245, 0x3DA14285, 0x3DB162C6, 0x3DC18306, 0x3DD1A347, 0x3DE1C387, 0x3DF1E3C8,
   0x3E010204, 0x3E091224, 0x3E112245, 0x3E193265, 0x3E214285, 0x3E2952A5, 0x3E3162C6, 0x3E3972E6,
   0x3E418306, 0x3E499326, 0x3E51A347, 0x3E59B367, 0x3E61C387, 0x3E69D3A7, 0x3E71E3C8, 0x3E79F3E8,
   0x3E810204, 0x3E850A14, 0x3E891224, 0x3E8D1A34, 0x3E912245, 0x3E952A55, 0x3E993265, 0x3E9D3A75,
   0x3EA14285, 0x3EA54A95, 0x3EA952A5, 0x3EAD5AB5, 0x3EB162C6, 0x3EB56AD6, 0x3EB972E6, 0x3EBD7AF6,
   0x3EC18306, 0x3EC58B16, 0x3EC99326, 0x3ECD9B36, 0x3ED1A347, 0x3ED5AB57, 0x3ED9B367, 0x3EDDBB77,
   0x3EE1C387, 0x3EE5CB97, 0x3EE9D3A7, 0x3EEDDBB7, 0x3EF1E3C8, 0x3EF5EBD8, 0x3EF9F3E8, 0x3EFDFBF8] ++
  [0x3F010204, 0x3F03060C, 0x3F050A14, 0x3F070E1C, 0x3F091224, 0x3F0B162C, 0x3F0D1A34, 0x3F0F1E3C,
   0x3F112245, 0x3F13264D, 0x3F152A55, 0x3F172E5D, 0x3F193265, 0x3F1B366D, 0x3F1D3A75, 0x3F1F3E7D,
   0x3F214285, 0x3F23468D, 0x3F254A95, 0x3F274E9D, 0x3F2952A5, 0x3F2B56AD, 0x3F2D5AB5, 0x3F2F5EBD,
   0x3F3162C6, 0x3F3366CE, 0x3F356AD6, 0x3F376EDE, 0x3F3972E6, 0x3F3B76EE, 0x3F3D7AF6, 0x3F3F7EFE,
   0x3F418306, 0x3F43870E, 0x3F458B16, 0x3F478F1E, 0x3F499326, 0x3F4B972E, 0x3F4D9B36, 0x3F4F9F3E,
   0x3F51A347, 0x3F53A74F, 0x3F55AB57, 0x3F57AF5F, 0x3F59B367, 0x3F5BB76F, 0x3F5DBB77, 0x3F5FBF7F,
   0x3F61C387, 0x3F63C78F, 0x3F65CB97, 0x3F67CF9F, 0x3F69D3A7, 0x3F6BD7AF, 0x3F6DDBB7, 0x3F6FDFBF,
   0x3F71E3C8, 0x3F73E7D0, 0x3F75EBD8, 0x3F77EFE0, 0x3F79F3E8, 0x3F7BF7F0, 0x3F7DFBF8, 0x3F800000]

/-- ENV of TC1: attack and decay of 2 samples, release of 4, levels 1.0 and 0.5. -/
def env : EnvConfig :=
  { attackTime := 0x38800000, decayTime := 0x38800000, releaseTime := 0x39000000,
    attackLevel := 0x3F800000, sustainLevel := 0x3F000000 }

end Sys2Proof.Reference

namespace Sys2Proof

/-- TC1. -/
def Config.reference : Config :=
  { nv := 2, sr := 32768, h := 4, l := 8,
    wt := Reference.sawTable ++ (Reference.reverseSawTable ++ (Reference.squareTable ++
      (Reference.sineTable ++ Reference.triangleTable))),
    env := Reference.env, vgain := Reference.velocityGain, oscale := 0x46FFFE00 }

end Sys2Proof
end

