-- ==== Sys2Proof/Machine/F32.lean ====
section
/-! DEFINITION. IEEE 754 binary32 on bit patterns: the numeric semantics of every rule (R9, R10, R11).

Every finite value is a whole number of units of 2^-149, so it is held exactly as an integer. An operation computes its
exact result as a fraction of units and rounds it once, to nearest with ties to even (`roundBits`); subnormals are kept.
An operation whose result is a NaN takes the encoding `nan` its caller gives it (R9: any NaN encoding). -/

namespace Sys2Proof.F32

/-- The sign bit. -/
def sign (x : F32) : Bool := x.msb

/-- The exponent and fraction fields together: bits 30 to 0 as a number. -/
def magBits (x : F32) : Nat := x.toNat % 2 ^ 31

/-- `magBits` of the infinities. -/
abbrev infBits : Nat := 0x7F800000

def isNaN (x : F32) : Bool := decide (infBits < magBits x)
def isInf (x : F32) : Bool := decide (magBits x = infBits)
/-- `isfinite(x)`: neither an infinity nor a NaN (R10). -/
def isFinite (x : F32) : Bool := decide (magBits x < infBits)
def isZero (x : F32) : Bool := decide (magBits x = 0)

/-- The magnitude, in units of 2^-149, of the finite pattern whose exponent and fraction fields are `b`. -/
def magOf (b : Nat) : Nat :=
  if b < 2 ^ 23 then b else (2 ^ 23 + b % 2 ^ 23) * 2 ^ (b / 2 ^ 23 - 1)

/-- The magnitude of a finite value, in units of 2^-149. -/
def mag (x : F32) : Nat := magOf (magBits x)

/-- A finite value, in units of 2^-149. -/
def units (x : F32) : Int := if sign x then -(mag x : Int) else (mag x : Int)

/-- One, in units of 2^-149. -/
abbrev one : Nat := 2 ^ 149

/-- The exponent and fraction fields of the binary32 value nearest to `n / d` units, ties to even; the infinity's when
the rounded magnitude is out of range. `e` is the exponent of the result's last place. -/
def roundBits (n d : Nat) : Nat :=
  let e := Nat.log2 (n / d) - 23
  let ulp := d * 2 ^ e
  let k := n / ulp
  let r := n % ulp
  let k' := if ulp < 2 * r ∨ (2 * r = ulp ∧ k % 2 = 1) then k + 1 else k
  min (e * 2 ^ 23 + k') infBits

/-- The pattern with sign `s` and exponent and fraction fields `b`. -/
def pack (s : Bool) (b : Nat) : F32 := BitVec.ofNat 32 ((if s then 2 ^ 31 else 0) + b)

/-- A NaN pattern whose sign and payload are those of `nan`; every NaN pattern is one of these (log 2). -/
def nanOf (nan : BitVec 32) : F32 := pack nan.msb (infBits + max 1 (nan.toNat % 2 ^ 23))

/-- Negation flips the sign bit. -/
def neg (x : F32) : F32 := x ^^^ 0x80000000#32

/-- `x + y`, rounded once. An exact zero sum is +0 unless both operands are negative. -/
def add (nan : BitVec 32) (x y : F32) : F32 :=
  if isNaN x || isNaN y then nanOf nan
  else if isInf x then (if isInf y && (sign x != sign y) then nanOf nan else x)
  else if isInf y then y
  else
    let z := units x + units y
    if z = 0 then pack (sign x && sign y) 0 else pack (decide (z < 0)) (roundBits z.natAbs 1)

/-- `x - y`, rounded once. -/
def sub (nan : BitVec 32) (x y : F32) : F32 := add nan x (neg y)

/-- `x * y`, rounded once. -/
def mul (nan : BitVec 32) (x y : F32) : F32 :=
  let s := sign x != sign y
  if isNaN x || isNaN y then nanOf nan
  else if isInf x || isInf y then (if isZero x || isZero y then nanOf nan else pack s infBits)
  else pack s (roundBits (mag x * mag y) one)

/-- `x / y`, rounded once. -/
def div (nan : BitVec 32) (x y : F32) : F32 :=
  let s := sign x != sign y
  if isNaN x || isNaN y then nanOf nan
  else if isInf x then (if isInf y then nanOf nan else pack s infBits)
  else if isInf y then pack s 0
  else if isZero y then (if isZero x then nanOf nan else pack s infBits)
  else pack s (roundBits (mag x * one) (mag y))

/-- Where a value that is not a NaN stands in the order of the extended reals. The formula of `units`, read at an
infinity, gives 2^128 · 2^149, which lies outside every finite value; the two zeros stand together. -/
def key (x : F32) : Option Int := if isNaN x then none else some (units x)

/-- An ordered comparison is false when an operand is a NaN (R9). -/
def cmp (r : Int → Int → Bool) (x y : F32) : Bool :=
  match key x, key y with
  | some a, some b => r a b
  | _, _ => false

def lt (x y : F32) : Bool := cmp (fun a b => decide (a < b)) x y
def le (x y : F32) : Bool := cmp (fun a b => decide (a ≤ b)) x y
def ge (x y : F32) : Bool := le y x
def gt (x y : F32) : Bool := lt y x

/-- `f32(n)`: exact for |n| ≤ 2^24 (R9, R10). -/
def ofInt (n : Int) : F32 := pack (decide (n < 0)) (roundBits (n.natAbs * one) 1)

/-- `floor(x)`: for finite x the largest integer ≤ x (R10). -/
def floor (x : F32) : Int := if isFinite x then units x / (one : Int) else Config.freeFloor x

/-- `round(x)`: for finite x the nearest integer, ties away from zero (R11). -/
def round (x : F32) : Int :=
  if isFinite x then
    let m : Int := ((2 * mag x + one) / (2 * one) : Nat)
    if sign x then -m else m
  else Config.freeRound x

/-- `trunc(x)`: floor(x) when x ≥ 0 and −floor(−x) when x < 0 (R10). -/
def trunc (x : F32) : Int := if ge x 0 then floor x else -floor (neg x)

/-- `u32(n)` (R10). -/
def u32 (n : Int) : BitVec 32 :=
  if 0 ≤ n ∧ n < 2 ^ 32 then BitVec.ofInt 32 n else Config.freeU32 n

/-- 256.0, the table length T as a binary32 value. -/
abbrev c256 : F32 := 0x43800000

/-- `wrap(p)`: p − 256·floor(p / 256) in exact arithmetic, rounded once, with 256.0 and a zero of either sign mapped to
+0.0 (R154). -/
def wrap (p : F32) : F32 :=
  if isFinite p then
    let b := roundBits (units p % (256 * one : Nat)).toNat 1
    if b = magBits c256 then 0 else pack false b
  else Config.freeWrap p

end Sys2Proof.F32
end

