-- ==== Sys2Proof/Syntax.lean ====
section
/-! DEFINITION. The operations a host can select: one constructor per row of spec/opcode_table.json, the twelve commands
of R103 and the three transfer events of R107. The fields are those of the packet, at their own widths; their legal
ranges are checked when the command runs (R106 point 3), so a field may hold a value its command rejects. -/

namespace Sys2Proof

inductive Instr where
  /-- ACTIVATE_VOICE (R272): IDX a voice or 0xFF for all, F active. -/
  | activateVoice (idx : BitVec 8) (active : Bool)
  /-- SET_FREQUENCY (R273): IDX a voice or 0xFF, X the frequency. -/
  | setFrequency (idx : BitVec 8) (freq : F32)
  /-- SET_MIDI_NOTE (R276): IDX a voice or 0xFF, A the note, B the velocity, F active. -/
  | setMidiNote (idx : BitVec 8) (note : BitVec 8) (velocity : BitVec 7) (active : Bool)
  /-- SET_WAVEFORM (R277): IDX a voice or 0xFF, A the waveform id. -/
  | setWaveform (idx : BitVec 8) (wf : BitVec 8)
  /-- UPDATE_FILTER (R278): X the cutoff, Y the q. -/
  | updateFilter (cutoff : F32) (q : F32)
  /-- UPDATE_DELAY (R279): X the time in seconds, Y the feedback. -/
  | updateDelay (time : F32) (feedback : F32)
  /-- EFFECT_SET_SLOT (R280): IDX the slot, A the effect id. -/
  | effectSetSlot (slot : BitVec 8) (effect : BitVec 8)
  /-- EFFECT_ACTIVATE_SLOT (R281): IDX the slot, F active. -/
  | effectActivateSlot (slot : BitVec 8) (active : Bool)
  /-- GET_FILTER (R282). -/
  | getFilter
  /-- GET_DELAY (R283). -/
  | getDelay
  /-- INIT (R284). -/
  | init
  /-- DEINIT (R285). -/
  | deinit
  /-- EV_HALF: the half-complete transfer event (R107, R345). -/
  | evHalf
  /-- EV_FULL: the full-complete transfer event (R107, R345). -/
  | evFull
  /-- EV_ERROR: the transfer-error event (R107, R348). -/
  | evError
deriving DecidableEq, Repr

/-- A command packet: "exactly three 32-bit words, W0, W1 and W2" (R100). -/
structure Packet where
  w0 : Word
  w1 : Word
  w2 : Word
deriving DecidableEq, Repr, Inhabited

end Sys2Proof
end

