-- ==== Sys2Proof/Machine/State.lean ====
section
/-! DEFINITION. Everything the spec gives the block: the state of R30, and beside it the configuration (R6), the command
in progress (R71, R384) and what stands on the two inputs (R100, R355). Plain data throughout. -/

namespace Sys2Proof.Machine

/-- The five waveform tables, by id (R151). -/
inductive Waveform where
  | saw | reverseSaw | square | sine | triangle
deriving DecidableEq, Repr

/-- The ADSR stages (R35, R200). Codes 5..7 are "never held", so they are not values. -/
inductive Stage where
  | off | attack | decay | sustain | release
deriving DecidableEq, Repr

/-- What a slot may bind (R39, R260). Id 3 is "never held". -/
inductive Effect where
  | none | lowPass | delay
deriving DecidableEq, Repr

/-- The lifecycle register's three values (R40). -/
inductive Lifecycle where
  | reset | running | stopped
deriving DecidableEq, Repr

/-- The two halves of the output buffer (R63), and the two render events (R344). -/
inductive Half where
  | first | second
deriving DecidableEq, Repr

/-- The two slot registers, S[0] and S[1] (R39). -/
inductive SlotName where
  | s0 | s1
deriving DecidableEq, Repr

/-- The memory spaces of R60. -/
inductive Space where
  | wt | dbuf | out
deriving DecidableEq, Repr

/-- A writable memory space: its bytes that are not zero, by byte address, rising. Reset and INIT write zero to every
byte of DBUF and OUT (R380, R284), so an address that is not listed reads as zero. -/
abbrev Memory := List Host.Cell

/-- The canonical form: addresses strictly rising and no listed zero. -/
def Memory.wf : Memory → Bool
  | [] => true
  | (a, v) :: m => v != 0 && m.all (fun c => decide (a < c.1)) && Memory.wf m

/-- Every listed address is below `size`. -/
def Memory.within (size : Nat) (m : Memory) : Bool := m.all (fun c => decide (c.1 < size))

/-- RampState (R36). -/
structure Ramp where
  current    : F32
  increment  : F32
  /-- remaining_samples, u32. -/
  remaining  : BitVec 32
  sampleRate : F32
deriving DecidableEq, Repr

/-- AdsrState (R35). -/
structure Env where
  stage        : Stage
  attackTime   : F32
  decayTime    : F32
  releaseTime  : F32
  attackLevel  : F32
  sustainLevel : F32
  ramp         : Ramp
deriving DecidableEq, Repr

/-- A voice register set (R33). -/
structure Voice where
  active    : Bool
  waveform  : Waveform
  frequency : F32
  phase     : F32
  amplitude : F32
  env       : Env
deriving DecidableEq, Repr

/-- The filter register set F (R37). a1 and a2 are a[0] and a[1]; x1 and x2 are x_hist[0] and x_hist[1]; y1 and y2 are
y_hist[0] and y_hist[1]. -/
structure Filter where
  a1         : F32
  a2         : F32
  b0         : F32
  b1         : F32
  b2         : F32
  x1         : F32
  x2         : F32
  y1         : F32
  y2         : F32
  sampleRate : F32
  cutoff     : F32
  q          : F32
  ready      : Bool
deriving DecidableEq, Repr

/-- The delay register set D (R38). -/
structure Delay where
  /-- write_pos, u32. -/
  writePos   : BitVec 32
  /-- read_pos, u32. -/
  readPos    : BitVec 32
  sampleRate : F32
  feedback   : F32
deriving DecidableEq, Repr

/-- An effect slot register (R39). -/
structure Slot where
  effect : Effect
  active : Bool
deriving DecidableEq, Repr

/-- A command that has begun and whose response is not written yet (R71, R270): the command, and how many of its sub-steps
are done. -/
structure Progress where
  instr : Instr
  done  : Nat
deriving DecidableEq, Repr

/-- The block, with its configuration and its inputs. -/
structure State where
  /-- The configuration (R6), "fixed before reset and never written" (R30). -/
  cfg        : Config
  /-- V[0..NV−1] (R31). -/
  voices     : List Voice
  /-- F (R37). -/
  filter     : Filter
  /-- D (R38). -/
  delay      : Delay
  /-- DBUF, 4·L bytes (R62). -/
  dbuf       : Memory
  /-- S[0] (R39). -/
  slot0      : Slot
  /-- S[1] (R39). -/
  slot1      : Slot
  /-- LC (R40). -/
  lc         : Lifecycle
  /-- RMASK (R41). -/
  rmask      : Bool
  /-- PEND_HALF (R41). -/
  pendHalf   : Bool
  /-- PEND_FULL (R41). -/
  pendFull   : Bool
  /-- RSP0 (R42). -/
  rsp0       : Word
  /-- RSP1 (R42). -/
  rsp1       : Word
  /-- RSP2 (R42). -/
  rsp2       : Word
  /-- OUT, 8·H bytes (R63). -/
  out        : Memory
  /-- The command in progress, between two of its sub-steps or before its response; none at a command boundary (R71, R270,
  R384). -/
  inProgress : Option Progress
  /-- INPUT: the packets the host will present on the command port, in order (R100, R355). -/
  cmdIn      : List Packet
  /-- INPUT: the code on the event input at each coming step, 0b00 for none (R107); beyond the list there is none. -/
  evIn       : List (BitVec 2)
  /-- The model's own counter, the argument of the free values (log 2). -/
  fresh      : Nat
deriving DecidableEq, Repr

/-- Why a step can stop with a fault. -/
inductive Fault where
  /-- Raised by the service of a render event when a delay position is not below L, so that the delay's next access would
  lie outside DBUF (R60, R66). Positions stay below L on every run (R245), so no run reaches it. Safe. -/
  | addressOutsideSpace (space : Space)
deriving DecidableEq, Repr

/-- The checks of R381 that can fail; c10 holds of the model by the type of `Config.lpfc`. -/
inductive ConfigCheck where
  | c1 | c2 | c3 | c4 | c5 | c6 | c7 | c8 | c9
deriving DecidableEq, Repr

/-- Why a step has no meaning. -/
inductive Refusal where
  /-- Raised by an arm of `exec` whose instruction has no meaning yet. Safe. -/
  | notModelled (mnemonic : String)
  /-- Raised by every step under a configuration that fails a check of R381: "the configuration is refused", and the
  block "accepts no step" (R341). Safe. -/
  | configRefused (check : ConfigCheck)
deriving DecidableEq, Repr

/-- The reset value of an envelope (R35, R380), sustain clamped to attack (R201). -/
def Env.atReset (c : Config) : Env :=
  { stage := .off
    attackTime := c.env.attackTime
    decayTime := c.env.decayTime
    releaseTime := c.env.releaseTime
    attackLevel := c.env.attackLevel
    sustainLevel := if F32.gt c.env.sustainLevel c.env.attackLevel then c.env.attackLevel else c.env.sustainLevel
    ramp := { current := 0, increment := 0, remaining := 0, sampleRate := F32.ofInt c.sr } }

/-- The reset value of a voice (R33, R380); the amplitude is 1.0. -/
def Voice.atReset (c : Config) : Voice :=
  { active := false, waveform := .saw, frequency := 0, phase := 0, amplitude := 0x3F800000, env := Env.atReset c }

/-- The reset value of the filter (R37, R380). -/
def Filter.atReset (c : Config) : Filter :=
  { a1 := 0, a2 := 0, b0 := 0, b1 := 0, b2 := 0, x1 := 0, x2 := 0, y1 := 0, y2 := 0,
    sampleRate := F32.ofInt c.sr, cutoff := 0, q := 0, ready := false }

/-- The reset value of the delay (R38, R380). -/
def Delay.atReset (c : Config) : Delay :=
  { writePos := 0, readPos := 0, sampleRate := F32.ofInt c.sr, feedback := 0 }

/-- The machine after power-on reset under the configuration `c` (R380), with nothing on its inputs. -/
def State.resetWith (c : Config) : State :=
  { cfg := c
    voices := List.replicate c.nv (Voice.atReset c)
    filter := Filter.atReset c
    delay := Delay.atReset c
    dbuf := []
    slot0 := { effect := .none, active := false }
    slot1 := { effect := .none, active := false }
    lc := .reset
    rmask := false
    pendHalf := false
    pendFull := false
    rsp0 := 0
    rsp1 := 0
    rsp2 := 0
    out := []
    inProgress := none
    cmdIn := []
    evIn := []
    fresh := 0 }

/-- The machine after power-on reset under the reference configuration (log 1). -/
def State.reset : State := State.resetWith Config.reference

end Sys2Proof.Machine
end

