-- ==== Sys2Proof/Machine/Operands.lean ====
section
/-! DEFINITION. What the operands of a command name and which of their values are legal (R102, R271 to R281). -/

namespace Sys2Proof.Machine

/-- `targets(IDX)`: the voices a voice-addressed command names, in order; none is ParamError (R271). -/
def targets (idx : BitVec 8) (nv : Nat) : Option (List Nat) :=
  if idx.toNat < nv then some [idx.toNat]
  else if idx = 0xFF then some (List.range nv)
  else none

/-- The waveform with the id (R151); ids 5..255 are illegal. -/
def waveformOfId (a : BitVec 8) : Option Waveform :=
  if a = 0 then some .saw
  else if a = 1 then some .reverseSaw
  else if a = 2 then some .square
  else if a = 3 then some .sine
  else if a = 4 then some .triangle
  else none

/-- The table number of a waveform (R61, R151). -/
def waveformIndex : Waveform → Nat
  | .saw => 0
  | .reverseSaw => 1
  | .square => 2
  | .sine => 3
  | .triangle => 4

/-- The effect with the id (R39, R102); ids 3..255 are illegal. -/
def effectOfId (a : BitVec 8) : Option Effect :=
  if a = 0 then some .none
  else if a = 1 then some .lowPass
  else if a = 2 then some .delay
  else none

/-- The id of an effect (R39, R102). -/
def effectId : Effect → Word
  | .none => 0
  | .lowPass => 1
  | .delay => 2

/-- `A > 127` fails the note check (R276). -/
def noteInRange (a : BitVec 8) : Bool := decide (a.toNat ≤ 127)

/-- The patterns of NOTE_HZ(0) to NOTE_HZ(11): the lowest octave. -/
def lowestOctave : List Nat :=
  [0x4102D013, 0x410A9760, 0x4112D517, 0x411B9041, 0x4124D054, 0x412E9D37,
   0x4138FF49, 0x4143FF6A, 0x414FA700, 0x415C0000, 0x416914F6, 0x4176F110]

/-- `NOTE_HZ(n)`: the binary32 value nearest to 440·2^((n − 69)/12), ties to even (R274). An octave up doubles the value,
which in binary32 adds one to the exponent field and rounds nothing. -/
def noteHz (n : Nat) : F32 := BitVec.ofNat 32 (lowestOctave.getD (n % 12) 0 + n / 12 * 2 ^ 23)

/-- `VGAIN(v)` (R275). -/
def vgainOf (c : Config) (v : BitVec 7) : F32 := c.vgain.getD v.toNat 0

/-- Which slot an index names; an index above 1 is ParamError (R280, R281). -/
def slotOfIndex (idx : BitVec 8) : Option SlotName :=
  if idx = 0 then some .s0
  else if idx = 1 then some .s1
  else none

end Sys2Proof.Machine
end

