-- ==== Sys2Proof/Machine/Ops.lean ====
section
/-! DEFINITION. The named operations over the memories and the registers, and the shared ways a command or an event
touches the block: the render-interrupt guard (R270, R343), the response (R108), the one synchronous exception
ParamError (R340), the execution of a command step by step (R270), the arrival of a transfer event (R345) and the start of
its service (R346). -/

namespace Sys2Proof.Machine

/-- Read one byte. -/
def Memory.readByte (a : Nat) : Memory → Byte
  | [] => 0
  | (b, w) :: m => if a = b then w else Memory.readByte a m

/-- Write one byte, keeping the canonical form: a zero byte is not listed. -/
def Memory.writeByte (a : Nat) (v : Byte) : Memory → Memory
  | [] => if v = 0 then [] else [(a, v)]
  | (b, w) :: m =>
    if a < b then (if v = 0 then (b, w) :: m else (a, v) :: (b, w) :: m)
    else if a = b then (if v = 0 then m else (a, v) :: m)
    else (b, w) :: Memory.writeByte a v m

/-- MemRead(S:a, 2), little-endian (R10, R64). -/
def Memory.readHalf (a : Nat) (m : Memory) : BitVec 16 := m.readByte (a + 1) ++ m.readByte a

/-- MemWrite(S:a, 2, v), little-endian. -/
def Memory.writeHalf (a : Nat) (v : BitVec 16) (m : Memory) : Memory :=
  (m.writeByte a (v.extractLsb' 0 8)).writeByte (a + 1) (v.extractLsb' 8 8)

/-- MemRead(S:a, 4), little-endian. -/
def Memory.readWord (a : Nat) (m : Memory) : BitVec 32 :=
  m.readByte (a + 3) ++ m.readByte (a + 2) ++ m.readByte (a + 1) ++ m.readByte a

/-- MemWrite(S:a, 4, v), little-endian. -/
def Memory.writeWord (a : Nat) (v : BitVec 32) (m : Memory) : Memory :=
  (((m.writeByte a (v.extractLsb' 0 8)).writeByte (a + 1) (v.extractLsb' 8 8)).writeByte (a + 2)
    (v.extractLsb' 16 8)).writeByte (a + 3) (v.extractLsb' 24 8)

/-- The f32 `DBUF[i]` (R10, R62). -/
def dbufRead (i : Nat) (m : Memory) : F32 := m.readWord (4 * i)

/-- `DBUF[i] <- v`. -/
def dbufWrite (i : Nat) (v : F32) (m : Memory) : Memory := m.writeWord (4 * i) v

/-- The s16 `OUT[j]` (R10, R63). -/
def outRead (j : Nat) (m : Memory) : Sample := m.readHalf (2 * j)

/-- `OUT[j] <- o`. -/
def outWrite (j : Nat) (o : Sample) (m : Memory) : Memory := m.writeHalf (2 * j) o

/-- The wavetable entry `WT[w][i]`: the element at byte address (w·256 + i)·4 of WT (R61). -/
def wtRead (c : Config) (w i : Nat) : F32 := c.wt.getD (w * 256 + i) 0

/-- Replace voice i by `f` of it; the pool has no other entry (R31). -/
def State.modifyVoice (i : Nat) (f : Voice → Voice) (s : State) : State := { s with voices := s.voices.modify i f }

/-- The encodings that the NaN results of one unit's operations take, in this step and this frame (R9, log 2). -/
def State.nans (s : State) (frame unit : Nat) : Nat → BitVec 32 := Config.freeNaN s.fresh frame unit

/-- The unit numbers of `State.nans`: the two slots, the output stage, and the voices. -/
abbrev unitSlot0 : Nat := 0
abbrev unitSlot1 : Nat := 1
abbrev unitOutput : Nat := 2
abbrev unitVoice (i : Nat) : Nat := 3 + i

/-- The render-interrupt guard: RMASK is set while `f` is applied and cleared after it (R73, R270, R343). -/
def guarded (f : State → State) (s : State) : State := { f { s with rmask := true } with rmask := false }

/-- Write the three response registers, under the guard (R108, R270). -/
def respond (r0 r1 r2 : Word) (s : State) : State :=
  guarded (fun s => { s with rsp0 := r0, rsp1 := r1, rsp2 := r2 }) s

/-- The result codes of RSP0[7:0] (R108). -/
abbrev codeOk : Word := 0x00000000
abbrev codeParamError : Word := 0x00000001

/-- A command ends with result OK and no getter data: the response is written and no command is in progress (R270, R384). -/
def complete (s : State) : State := { respond codeOk 0 0 s with inProgress := none }

/-- TAKING THE EXCEPTION ParamError (R340, R270): the response registers are written and nothing else of the block is;
there is no handler, no saved state and no return. -/
def paramError (s : State) : State := { respond codeParamError 0 0 s with inProgress := none }

/-- How many sub-steps of the command in progress are done: none at a command boundary (R71). -/
def State.subStep (s : State) : Nat :=
  match s.inProgress with
  | none => 0
  | some p => p.done

/-- `execute` (R270): the next transition of the command `i`. With no command in progress the checks come first, once, and a
failed one ends the command with ParamError. Then each sub-step is applied under the guard, and after the last one the
response is written under a guard of its own. Each of these is one step of the block, so that an arrival and the service
of a render can fall at every boundary between them, the one before the response included (log 6). -/
def execute (i : Instr) (legal : Bool) (subSteps : List (State → State)) (s : State) :
    Host.Outcome State Fault Refusal :=
  if s.inProgress.isNone && !legal then .next (paramError s)
  else
    match subSteps[s.subStep]? with
    | some u => .next { guarded u s with inProgress := some { instr := i, done := s.subStep + 1 } }
    | none => .next (complete s)

/-- A transfer event a half raises arrives: "at any step boundary", with no effect unless LC = RUNNING; a pending bit that
is already set stays set (R344, R345). -/
def arrive (half : Half) (s : State) : State :=
  if s.lc = .running then
    match half with
    | .first => { s with pendHalf := true }
    | .second => { s with pendFull := true }
  else s

/-- ENTRY OF THE RENDER CONTEXT (R346, R349): the pending bit of the half is cleared. No state is saved and no mode or mask
changes, so the return at the end of the render step restores nothing (R350). -/
def beginService (half : Half) (s : State) : State :=
  match half with
  | .first => { s with pendHalf := false }
  | .second => { s with pendFull := false }

/-- The first frame of a half: 0 for the first and H for the second (R310). -/
def startFrame (half : Half) (c : Config) : Nat :=
  match half with
  | .first => 0
  | .second => c.h

end Sys2Proof.Machine
end

