-- ==== Sys2Proof/Machine/Delay.lean ====
section
/-! DEFINITION. The circular-buffer feedback delay (44_delay.md). -/

namespace Sys2Proof.Machine

/-- SR·t, the f32 product that `samples(t)` rounds (R240, R241). -/
def Delay.product (ν : Nat → BitVec 32) (t : F32) (d : Delay) : F32 := F32.mul (ν 0) d.sampleRate t

/-- (write_pos + L − k) mod L, Euclidean (R241). -/
def Delay.posBack (l : Nat) (k : Int) (d : Delay) : BitVec 32 :=
  BitVec.ofInt 32 (((d.writePos.toNat : Int) + (l : Int) - k) % (l : Int))

/-- `update_delay(t)`: an error, here none, when SR·t is not finite or is ≥ L (R241). -/
def Delay.updateDelay (ν : Nat → BitVec 32) (l : Nat) (t : F32) (d : Delay) : Option Delay :=
  let prod := d.product ν t
  if !F32.isFinite prod then none
  else if F32.ge prod (F32.ofInt l) then none
  else some { d with readPos := d.posBack l (F32.round prod) }

/-- `update_feedback(fb)`: an error, here none, unless 0 ≤ fb < 1 (R242). -/
def Delay.updateFeedback (fb : F32) (d : Delay) : Option Delay :=
  if F32.ge fb 0 && F32.lt fb 0x3F800000 then some { d with feedback := fb } else none

/-- What UPDATE_DELAY does to the delay (R279): update_delay, then update_feedback; neither, here none, when either value
is rejected. -/
def Delay.update (ν : Nat → BitVec 32) (l : Nat) (t fb : F32) (d : Delay) : Option Delay :=
  match d.updateDelay ν l t with
  | none => none
  | some e => e.updateFeedback fb

/-- A position advances by one and wraps when the new value is ≥ L (R244, R245). -/
def advancePos (l : Nat) (p : BitVec 32) : BitVec 32 := BitVec.ofNat 32 ((p.toNat + 1) % l)

/-- `delay_process(x)`: the output y, the delay and the buffer after it. The read comes before the write (R244).
DESIGN CHOICE (log 22): R244's corner cases say that with feedback = 0 a NaN or infinite x "comes back once", while its
pseudocode x + (feedback * y) under R9 gives 0 * inf = NaN and 0 * NaN = NaN, so that a NaN is written back on every pass.
The pseudocode is followed. -/
def Delay.process (ν : Nat → BitVec 32) (l : Nat) (x : F32) (d : Delay) (m : Memory) : F32 × Delay × Memory :=
  let y := dbufRead d.readPos.toNat m
  let m' := dbufWrite d.writePos.toNat (F32.add (ν 1) x (F32.mul (ν 0) d.feedback y)) m
  (y, { d with writePos := advancePos l d.writePos, readPos := advancePos l d.readPos }, m')

/-- Both positions are below L, so that every access of the delay lies in DBUF (R38, R66). -/
def Delay.inRange (l : Nat) (d : Delay) : Bool := decide (d.writePos.toNat < l ∧ d.readPos.toNat < l)

end Sys2Proof.Machine
end

