-- ==== Sys2Proof/Machine/Filter.lean ====
section
/-! DEFINITION. The biquad low-pass filter (43_filter.md). -/

namespace Sys2Proof.Machine

/-- `recompute()`: the coefficients are LPFC of the present parameters; the history is kept (R221). -/
def Filter.recompute (f : Filter) : Filter :=
  let k := Config.lpfc f.sampleRate f.cutoff f.q
  { f with b0 := k.b0, b1 := k.b1, b2 := k.b2, a1 := k.a1, a2 := k.a2 }

/-- `set_cutoff(freq)`: an error, here none, unless freq ≥ 0 (R220). -/
def Filter.setCutoff (freq : F32) (f : Filter) : Option Filter :=
  if F32.ge freq 0 then some { f with cutoff := freq }.recompute else none

/-- `set_sample_rate(rate)` (R222). No operation of the block calls it. -/
def Filter.setSampleRate (rate : F32) (f : Filter) : Option Filter :=
  if F32.ge rate 0 then some { f with sampleRate := rate }.recompute else none

/-- `set_q(q)` (R223). -/
def Filter.setQ (q : F32) (f : Filter) : Option Filter :=
  if F32.ge q 0 then some { f with q := q }.recompute else none

/-- What UPDATE_FILTER does to the filter (R278): set_cutoff, then set_q, then ready; none of them, here none, when either
value is negative or a NaN. -/
def Filter.update (cutoff q : F32) (f : Filter) : Option Filter :=
  match f.setCutoff cutoff with
  | none => none
  | some g =>
    match g.setQ q with
    | none => none
    | some h => some { h with ready := true }

/-- The difference equation y = b0·x + b1·x1 + b2·x2 − a1·y1 − a2·y2, evaluated left to right (R225). -/
def Filter.output (ν : Nat → BitVec 32) (x : F32) (f : Filter) : F32 :=
  let s0 := F32.mul (ν 0) f.b0 x
  let s1 := F32.add (ν 2) s0 (F32.mul (ν 1) f.b1 f.x1)
  let s2 := F32.add (ν 4) s1 (F32.mul (ν 3) f.b2 f.x2)
  let s3 := F32.sub (ν 6) s2 (F32.mul (ν 5) f.a1 f.y1)
  F32.sub (ν 8) s3 (F32.mul (ν 7) f.a2 f.y2)

/-- `lpf_process(x)`: the output and the filter after it; the identity, with nothing written, until ready (R225). -/
def Filter.process (ν : Nat → BitVec 32) (x : F32) (f : Filter) : F32 × Filter :=
  if f.ready then
    let y := f.output ν x
    (y, { f with x2 := f.x1, x1 := x, y2 := f.y1, y1 := y })
  else (x, f)

end Sys2Proof.Machine
end

