-- ==== Sys2Proof/Machine/Router.lean ====
section
/-! DEFINITION. The effect router (45_router.md). There is one filter and one delay; a slot holds a binding to one of
them (R260). -/

namespace Sys2Proof.Machine

/-- One sample through one slot: an inactive slot and a slot bound to None are transparent (R260, R261). -/
def runSlot (ν : Nat → BitVec 32) (slot : Slot) (x : F32) (s : State) : F32 × State :=
  if slot.active then
    match slot.effect with
    | .none => (x, s)
    | .lowPass =>
      let r := s.filter.process ν x
      (r.1, { s with filter := r.2 })
    | .delay =>
      let r := s.delay.process ν s.cfg.l x s.dbuf
      (r.1, { s with delay := r.2.1, dbuf := r.2.2 })
  else (x, s)

/-- `fx_render(x)`: slot 0 before slot 1 (R261). -/
def fxRender (frame : Nat) (x : F32) (s : State) : F32 × State :=
  let r := runSlot (s.nans frame unitSlot0) s.slot0 x s
  runSlot (s.nans frame unitSlot1) s.slot1 r.1 r.2

end Sys2Proof.Machine
end

