-- ==== Sys2Proof/Machine/EffectCommands.lean ====
section
/-! DEFINITION. The effect commands (R278 to R281): one sub-step each, after every check has passed (R270). An operation
that can reject its operands answers none, which is the failed check. -/

namespace Sys2Proof.Machine

/-- UPDATE_FILTER (R278). -/
def execUpdateFilter (cutoff q : F32) (s : State) : Host.Outcome State Fault Refusal :=
  execute (.updateFilter cutoff q) (s.filter.update cutoff q).isSome
    [fun s => { s with filter := (s.filter.update cutoff q).getD s.filter }] s

/-- UPDATE_DELAY (R279). -/
def execUpdateDelay (time feedback : F32) (s : State) : Host.Outcome State Fault Refusal :=
  execute (.updateDelay time feedback) (s.delay.update (s.nans 0 unitSlot0) s.cfg.l time feedback).isSome
    [fun s => { s with delay := (s.delay.update (s.nans 0 unitSlot0) s.cfg.l time feedback).getD s.delay }] s

/-- Replace a slot register by `f` of it. -/
def State.modifySlot (n : SlotName) (f : Slot → Slot) (s : State) : State :=
  match n with
  | .s0 => { s with slot0 := f s.slot0 }
  | .s1 => { s with slot1 := f s.slot1 }

/-- The shared framework of the slot commands: the checks are the slot index (R280, R281) and the command's own, and one
slot register is changed. -/
def slotCommand (i : Instr) (slot : BitVec 8) (legal : Bool) (f : Slot → Slot) (s : State) :
    Host.Outcome State Fault Refusal :=
  execute i ((slotOfIndex slot).isSome && legal)
    ((slotOfIndex slot).toList.map (fun n => State.modifySlot n f)) s

/-- EFFECT_SET_SLOT (R280): only the slot's effect id changes (R263). -/
def execEffectSetSlot (slot effect : BitVec 8) (s : State) : Host.Outcome State Fault Refusal :=
  slotCommand (.effectSetSlot slot effect) slot (effectOfId effect).isSome
    (fun r => { r with effect := (effectOfId effect).getD r.effect }) s

/-- EFFECT_ACTIVATE_SLOT (R281). -/
def execEffectActivateSlot (slot : BitVec 8) (active : Bool) (s : State) : Host.Outcome State Fault Refusal :=
  slotCommand (.effectActivateSlot slot active) slot true (fun r => { r with active := active }) s

end Sys2Proof.Machine
end

