-- ==== Sys2Proof/Machine/Events.lean ====
section
/-! DEFINITION. The transfer events (R344, R345, R348): the meaning of an event is its ARRIVAL, an input step of its own;
the render it starts is the service of the pending bit, a separate transition (`serve`, R346), which the step makes as
soon as no event arrives. -/

namespace Sys2Proof.Machine

/-- EV_HALF arrives: PEND_HALF is set while RUNNING (R345). -/
def execEvHalf (s : State) : Host.Outcome State Fault Refusal := .next (arrive .first s)

/-- EV_FULL arrives: PEND_FULL is set while RUNNING (R345). -/
def execEvFull (s : State) : Host.Outcome State Fault Refusal := .next (arrive .second s)

/-- EV_ERROR "changes no state of the block" (R348). -/
def execEvError (s : State) : Host.Outcome State Fault Refusal := .next s

end Sys2Proof.Machine
end

