-- ==== Sys2Proof/Machine/Flags.lean ====
section
/-! DEFINITION. The block has no condition codes; these are its status bits and the responses that show them (R43). -/

namespace Sys2Proof.Machine

/-- `finished()`: remaining_samples = 0 (R183). -/
def Ramp.finished (r : Ramp) : Bool := decide (r.remaining = 0)

/-- `is_active()`: the stage is not Off (R206). -/
def Env.isActive (e : Env) : Bool := decide (e.stage ≠ .off)

/-- RSP0 of a successful GET_FILTER: result code OK in bits 7:0 and F.ready in bit 8 (R108, R282). -/
def filterStatus (f : Filter) : Word := if f.ready then 0x00000100 else 0x00000000

/-- `delay_len`, the effective delay in samples: ((write_pos − read_pos − 1) mod L) + 1 (R243, R283). -/
def delayLen (l : Nat) (d : Delay) : Nat :=
  (((d.writePos.toNat : Int) - (d.readPos.toNat : Int) - 1) % (l : Int) + 1).toNat

/-- No pending bit is set (R346). -/
def State.noPending (s : State) : Bool := !s.pendHalf && !s.pendFull

/-- A run may end here: no command is in progress and no pending bit is set (R384). -/
def State.atRest (s : State) : Bool := s.inProgress.isNone && s.noPending

end Sys2Proof.Machine
end

