-- ==== Sys2Proof/Machine/Getters.lean ====
section
/-! DEFINITION. The getters (R282, R283). They write the response registers and nothing else of the block. -/

namespace Sys2Proof.Machine

/-- GET_FILTER (R282): ready, the cutoff and q. -/
def execGetFilter (s : State) : Host.Outcome State Fault Refusal :=
  .next { respond (filterStatus s.filter) s.filter.cutoff s.filter.q s with inProgress := none }

/-- GET_DELAY (R283): the effective delay in samples and the feedback. -/
def execGetDelay (s : State) : Host.Outcome State Fault Refusal :=
  .next { respond codeOk (BitVec.ofNat 32 (delayLen s.cfg.l s.delay)) s.delay.feedback s with inProgress := none }

end Sys2Proof.Machine
end

