-- ==== Sys2Proof/Machine/Ramp.lean ====
section
/-! DEFINITION. The linear-ramp generator (41_ramp.md). The argument `ν` gives the NaN encodings of the operations, by
their place in the unit (log 2). -/

namespace Sys2Proof.Machine

/-- `ramp_to(target, duration)` (R180): the current value is not written. -/
def Ramp.rampTo (ν : Nat → BitVec 32) (target duration : F32) (r : Ramp) : Ramp :=
  let n := F32.mul (ν 0) r.sampleRate duration
  { r with
    increment := F32.div (ν 2) (F32.sub (ν 1) target r.current) n
    remaining := F32.u32 (F32.round n) }

/-- `process()` (R182): the value it returns is the new `current`. -/
def Ramp.process (ν : Nat → BitVec 32) (r : Ramp) : Ramp :=
  if r.remaining = 0 then r
  else { r with remaining := r.remaining - 1, current := F32.add (ν 3) r.current r.increment }

/-- `set_value(v)` (R184). -/
def Ramp.setValue (v : F32) (r : Ramp) : Ramp := { r with current := v, increment := 0, remaining := 0 }

end Sys2Proof.Machine
end

