-- ==== Sys2Proof/Machine/Adsr.lean ====
section
/-! DEFINITION. The ADSR envelope state machine (42_adsr.md). -/

namespace Sys2Proof.Machine

/-- `start_stage(target, d)`: a ramp, and a jump when its length rounds to zero samples (R202). -/
def startStage (ν : Nat → BitVec 32) (target duration : F32) (r : Ramp) : Ramp :=
  let r' := r.rampTo ν target duration
  if r'.finished then r'.setValue target else r'

/-- `trigger()`: Attack from any stage (R204). -/
def Env.trigger (ν : Nat → BitVec 32) (e : Env) : Env :=
  { e with stage := .attack, ramp := startStage ν e.attackLevel e.attackTime e.ramp }

/-- `release()`: nothing from Off or Release, else Release (R205). -/
def Env.release (ν : Nat → BitVec 32) (e : Env) : Env :=
  if e.stage = .off ∨ e.stage = .release then e
  else { e with stage := .release, ramp := startStage ν 0 e.releaseTime e.ramp }

/-- The transition `process()` makes when its ramp step leaves the ramp finished (R200, R203). -/
def Env.nextStage (ν : Nat → BitVec 32) (e : Env) : Env :=
  match e.stage with
  | .attack => { e with stage := .decay, ramp := startStage ν e.sustainLevel e.decayTime e.ramp }
  | .decay => { e with stage := .sustain }
  | .release => { e with stage := .off }
  | .sustain => e
  | .off => e

/-- `process()` (R203): one ramp step, then at most one transition. -/
def Env.process (ν : Nat → BitVec 32) (e : Env) : Env :=
  let e' := { e with ramp := e.ramp.process ν }
  if e'.ramp.finished then e'.nextStage ν else e'

/-- The gain `process()` returns: the ramp's value read after the transition (R203). -/
def Env.gain (e : Env) : F32 := e.ramp.current

end Sys2Proof.Machine
end

