-- ==== Sys2Proof/Machine/Oscillator.lean ====
section
/-! DEFINITION. The oscillator voice (40_oscillator.md). -/

namespace Sys2Proof.Machine

/-- `deactivate(i)` (R152): the sound state is cleared and the parameters a command set are kept. -/
def Voice.deactivate (v : Voice) : Voice :=
  { v with
    active := false
    phase := 0
    env := { v.env with
      stage := .off
      ramp := { v.env.ramp with current := 0, increment := 0, remaining := 0 } } }

/-- `inc(i)` = 256 · (frequency_hz / SR) (R153). -/
def Voice.phaseInc (ν : Nat → BitVec 32) (c : Config) (v : Voice) : F32 :=
  F32.mul (ν 5) F32.c256 (F32.div (ν 4) v.frequency (F32.ofInt c.sr))

/-- The entry below the phase, floor(phase), reduced into 0..255 (R66, R155). -/
def tableIndex (phase : F32) : Nat := (F32.floor phase % 256).toNat

/-- The sample of `next_sample` for an active voice: the interpolation, scaled by the amplitude (R155).
DESIGN CHOICE (log 23): R155's corner cases say that fr = 0 "gives exactly t0 · amplitude", while its pseudocode
t0 + (fr * (t1 - t0)) under R9 gives +0.0 for t0 = -0.0 when t1 - t0 is not negative. The pseudocode is followed. -/
def Voice.sample (ν : Nat → BitVec 32) (c : Config) (v : Voice) : F32 :=
  let w := waveformIndex v.waveform
  let i0 := tableIndex v.phase
  let fr := F32.sub (ν 6) v.phase (F32.ofInt i0)
  let i1 := (i0 + 1) % 256
  let t0 := wtRead c w i0
  let t1 := wtRead c w i1
  F32.mul (ν 10) (F32.add (ν 9) t0 (F32.mul (ν 8) fr (F32.sub (ν 7) t1 t0))) v.amplitude

/-- The phase after `next_sample` of an active voice: wrap(phase + inc) (R153, R154, R155). -/
def Voice.nextPhase (ν : Nat → BitVec 32) (c : Config) (v : Voice) : F32 :=
  F32.wrap (F32.add (ν 11) v.phase (v.phaseInc ν c))

/-- `next_sample(i)`: the sample and the voice after it; an inactive voice gives +0.0 and keeps its phase (R155). -/
def Voice.nextSample (ν : Nat → BitVec 32) (c : Config) (v : Voice) : F32 × Voice :=
  if v.active then (v.sample ν c, { v with phase := v.nextPhase ν c }) else (0, v)

/-- Raise the note: active, and the envelope triggered (R272, R276). -/
def Voice.activate (ν : Nat → BitVec 32) (v : Voice) : Voice := { v with active := true, env := v.env.trigger ν }

end Sys2Proof.Machine
end

