-- ==== Sys2Proof/Machine/Lifecycle.lean ====
section
/-! DEFINITION. INIT and DEINIT (R284, R285), each one atomic sub-step. -/

namespace Sys2Proof.Machine

/-- The voice INIT writes: every field (R284), the envelope's times and levels from ENV with sustain clamped to attack
(R201). -/
def initVoice (c : Config) : Voice :=
  { active := false
    waveform := .saw
    frequency := 0
    phase := 0
    amplitude := 0x3F800000
    env :=
      { stage := .off
        attackTime := c.env.attackTime
        decayTime := c.env.decayTime
        releaseTime := c.env.releaseTime
        attackLevel := c.env.attackLevel
        sustainLevel :=
          if F32.gt c.env.sustainLevel c.env.attackLevel then c.env.attackLevel else c.env.sustainLevel
        ramp := { current := 0, increment := 0, remaining := 0, sampleRate := F32.ofInt c.sr } } }

/-- The one sub-step of INIT (R284): F.sample_rate is written directly and no coefficient is computed (R222); every byte
of DBUF and OUT becomes zero. -/
def initStep (s : State) : State :=
  { s with
    voices := List.replicate s.cfg.nv (initVoice s.cfg)
    filter :=
      { a1 := 0, a2 := 0, b0 := 0, b1 := 0, b2 := 0, x1 := 0, x2 := 0, y1 := 0, y2 := 0
        sampleRate := F32.ofInt s.cfg.sr, cutoff := 0, q := 0, ready := false }
    dbuf := []
    delay := { writePos := 0, readPos := 0, sampleRate := F32.ofInt s.cfg.sr, feedback := 0 }
    slot0 := { effect := .none, active := false }
    slot1 := { effect := .none, active := false }
    out := []
    pendHalf := false
    pendFull := false
    lc := .running }

/-- The one sub-step of DEINIT (R285): the filter, the delay, the slots and OUT are kept. -/
def deinitStep (s : State) : State :=
  { s with
    voices := s.voices.map Voice.deactivate
    pendHalf := false
    pendFull := false
    lc := .stopped }

/-- INIT (R284). -/
def execInit (s : State) : Host.Outcome State Fault Refusal := execute .init true [initStep] s

/-- DEINIT (R285). -/
def execDeinit (s : State) : Host.Outcome State Fault Refusal := execute .deinit true [deinitStep] s

end Sys2Proof.Machine
end

