-- ==== Sys2Proof/Machine/VoiceCommands.lean ====
section
/-! DEFINITION. The voice commands (R272 to R277). A command on one voice has one sub-step; a command on ALL voices has NV
sub-steps, one a voice in index order, and a render may fall between two of them (R71, R270). -/

namespace Sys2Proof.Machine

/-- The shared framework of the voice commands (R270, R271): the checks are `targets(IDX)` and the command's own, and there
is one sub-step a target, which changes that one voice. -/
def voiceCommand (i : Instr) (idx : BitVec 8) (legal : Bool) (f : Nat → State → Voice → Voice) (s : State) :
    Host.Outcome State Fault Refusal :=
  execute i ((targets idx s.cfg.nv).isSome && legal)
    (((targets idx s.cfg.nv).getD []).map (fun n s => s.modifyVoice n (f n s))) s

/-- ACTIVATE_VOICE (R272): true sets active and triggers the envelope; false deactivates at once. -/
def execActivateVoice (idx : BitVec 8) (active : Bool) (s : State) : Host.Outcome State Fault Refusal :=
  voiceCommand (.activateVoice idx active) idx true
    (fun n s v => if active then v.activate (s.nans 0 (unitVoice n)) else v.deactivate) s

/-- SET_FREQUENCY (R273): a NaN or infinite X is ParamError. -/
def execSetFrequency (idx : BitVec 8) (freq : F32) (s : State) : Host.Outcome State Fault Refusal :=
  voiceCommand (.setFrequency idx freq) idx (F32.isFinite freq) (fun _ _ v => { v with frequency := freq }) s

/-- SET_MIDI_NOTE (R276): on sets the frequency and the amplitude, activates and triggers; off releases. -/
def execSetMidiNote (idx : BitVec 8) (note : BitVec 8) (velocity : BitVec 7) (active : Bool) (s : State) :
    Host.Outcome State Fault Refusal :=
  voiceCommand (.setMidiNote idx note velocity active) idx (noteInRange note)
    (fun n s v =>
      if active then
        { v with frequency := noteHz note.toNat, amplitude := vgainOf s.cfg velocity }.activate
          (s.nans 0 (unitVoice n))
      else { v with env := v.env.release (s.nans 0 (unitVoice n)) }) s

/-- SET_WAVEFORM (R277): an id above 4 is ParamError; the phase is kept. -/
def execSetWaveform (idx : BitVec 8) (wf : BitVec 8) (s : State) : Host.Outcome State Fault Refusal :=
  voiceCommand (.setWaveform idx wf) idx (waveformOfId wf).isSome
    (fun _ _ v => { v with waveform := (waveformOfId wf).getD v.waveform }) s

end Sys2Proof.Machine
end

