-- ==== Sys2Proof/Machine/Dispatch.lean ====
section
/-! DEFINITION. One arm per constructor of Instr, each a call of that instruction's meaning. -/

namespace Sys2Proof.Machine

def exec (i : Instr) (s : State) : Host.Outcome State Fault Refusal :=
  match i with
  | .activateVoice idx active => Sys2Proof.Machine.execActivateVoice idx active s
  | .setFrequency idx freq => Sys2Proof.Machine.execSetFrequency idx freq s
  | .setMidiNote idx note velocity active => Sys2Proof.Machine.execSetMidiNote idx note velocity active s
  | .setWaveform idx wf => Sys2Proof.Machine.execSetWaveform idx wf s
  | .updateFilter cutoff q => Sys2Proof.Machine.execUpdateFilter cutoff q s
  | .updateDelay time feedback => Sys2Proof.Machine.execUpdateDelay time feedback s
  | .effectSetSlot slot effect => Sys2Proof.Machine.execEffectSetSlot slot effect s
  | .effectActivateSlot slot active => Sys2Proof.Machine.execEffectActivateSlot slot active s
  | .getFilter => Sys2Proof.Machine.execGetFilter s
  | .getDelay => Sys2Proof.Machine.execGetDelay s
  | .init => Sys2Proof.Machine.execInit s
  | .deinit => Sys2Proof.Machine.execDeinit s
  | .evHalf => Sys2Proof.Machine.execEvHalf s
  | .evFull => Sys2Proof.Machine.execEvFull s
  | .evError => Sys2Proof.Machine.execEvError s

end Sys2Proof.Machine
end

