-- ==== Sys2Proof/Decode.lean ====
section
/-! DEFINITION. The command and event encoding (R100 to R107) and its decoder, then the encoder. Decoding is total: a
packet or an event code either selects one operation or is rejected by name. A rejected packet raises ParamError when it
is presented (R104, R105). -/

namespace Sys2Proof

/-- What stands on one of the block's two inputs (R100): a packet on the command port, or a code on the event input. -/
inductive Wire where
  | packet (p : Packet)
  | event  (ev : BitVec 2)
deriving DecidableEq, Repr

/-- Why an input selects no operation. -/
inductive Reject where
  /-- The OP field is not in the opcode map (R105). -/
  | illegalOp
  /-- A field of the opcode's "must be zero" column is not zero (R104). -/
  | reservedField
  /-- The event code 0b00: no event (R107, U16). -/
  | noEvent
  /-- A byte image that is not exactly three words long (R100). -/
  | badLength
deriving DecidableEq, Repr

/-- The opcodes of R103. -/
inductive Op where
  | activateVoice | setFrequency | setMidiNote | setWaveform | updateFilter | updateDelay
  | effectSetSlot | effectActivateSlot | getFilter | getDelay | init | deinit
deriving DecidableEq, Repr

/-- The fields of a packet but OP (R101). -/
structure Fields where
  idx : BitVec 8
  a   : BitVec 8
  b   : BitVec 7
  f   : Bool
  x   : Word
  y   : Word
deriving DecidableEq, Repr

/-- W0[7:0] (R101). -/
def Packet.op (p : Packet) : BitVec 8 := p.w0.extractLsb' 0 8

/-- W0[15:8], W0[23:16], W0[30:24], W0[31], W1 and W2 (R101): no field is sign-extended, scaled or shifted (R102). -/
def Packet.fields (p : Packet) : Fields :=
  { idx := p.w0.extractLsb' 8 8, a := p.w0.extractLsb' 16 8, b := p.w0.extractLsb' 24 7,
    f := p.w0.getLsbD 31, x := p.w1, y := p.w2 }

/-- The OP column of R103's table. -/
def opCode : Op → BitVec 8
  | .activateVoice => 0x01
  | .setFrequency => 0x02
  | .setMidiNote => 0x03
  | .setWaveform => 0x04
  | .updateFilter => 0x05
  | .updateDelay => 0x06
  | .effectSetSlot => 0x07
  | .effectActivateSlot => 0x08
  | .getFilter => 0x10
  | .getDelay => 0x11
  | .init => 0x20
  | .deinit => 0x21

/-- The opcode map read the other way: every other OP value is illegal (R105). -/
def opOfCode (c : BitVec 8) : Option Op :=
  if c = 0x01 then some .activateVoice
  else if c = 0x02 then some .setFrequency
  else if c = 0x03 then some .setMidiNote
  else if c = 0x04 then some .setWaveform
  else if c = 0x05 then some .updateFilter
  else if c = 0x06 then some .updateDelay
  else if c = 0x07 then some .effectSetSlot
  else if c = 0x08 then some .effectActivateSlot
  else if c = 0x10 then some .getFilter
  else if c = 0x11 then some .getDelay
  else if c = 0x20 then some .init
  else if c = 0x21 then some .deinit
  else none

/-- The "must be zero" column of R103's table: is every reserved field of the opcode all zero (R104)? -/
def reservedClear (op : Op) (fs : Fields) : Bool :=
  match op with
  | .activateVoice => fs.a == 0 && fs.b == 0 && fs.x == 0 && fs.y == 0
  | .setFrequency => fs.a == 0 && fs.b == 0 && !fs.f && fs.y == 0
  | .setMidiNote => fs.x == 0 && fs.y == 0
  | .setWaveform => fs.b == 0 && !fs.f && fs.x == 0 && fs.y == 0
  | .updateFilter => fs.idx == 0 && fs.a == 0 && fs.b == 0 && !fs.f
  | .updateDelay => fs.idx == 0 && fs.a == 0 && fs.b == 0 && !fs.f
  | .effectSetSlot => fs.b == 0 && !fs.f && fs.x == 0 && fs.y == 0
  | .effectActivateSlot => fs.a == 0 && fs.b == 0 && fs.x == 0 && fs.y == 0
  | .getFilter => fs.idx == 0 && fs.a == 0 && fs.b == 0 && !fs.f && fs.x == 0 && fs.y == 0
  | .getDelay => fs.idx == 0 && fs.a == 0 && fs.b == 0 && !fs.f && fs.x == 0 && fs.y == 0
  | .init => fs.idx == 0 && fs.a == 0 && fs.b == 0 && !fs.f && fs.x == 0 && fs.y == 0
  | .deinit => fs.idx == 0 && fs.a == 0 && fs.b == 0 && !fs.f && fs.x == 0 && fs.y == 0

/-- The operand columns of R103's table. -/
def instrOf (op : Op) (fs : Fields) : Instr :=
  match op with
  | .activateVoice => .activateVoice fs.idx fs.f
  | .setFrequency => .setFrequency fs.idx fs.x
  | .setMidiNote => .setMidiNote fs.idx fs.a fs.b fs.f
  | .setWaveform => .setWaveform fs.idx fs.a
  | .updateFilter => .updateFilter fs.x fs.y
  | .updateDelay => .updateDelay fs.x fs.y
  | .effectSetSlot => .effectSetSlot fs.idx fs.a
  | .effectActivateSlot => .effectActivateSlot fs.idx fs.f
  | .getFilter => .getFilter
  | .getDelay => .getDelay
  | .init => .init
  | .deinit => .deinit

/-- Decode a command packet, in the order of R106: first the OP, then the reserved fields. -/
def decodePacket (p : Packet) : Except Reject Instr :=
  match opOfCode p.op with
  | none => .error .illegalOp
  | some op => if reservedClear op p.fields then .ok (instrOf op p.fields) else .error .reservedField

/-- Decode an event code (R107). -/
def decodeEvent (ev : BitVec 2) : Except Reject Instr :=
  if ev = 0b01 then .ok .evHalf
  else if ev = 0b10 then .ok .evFull
  else if ev = 0b11 then .ok .evError
  else .error .noEvent

/-- Decode whatever stands on an input. -/
def decode : Wire → Except Reject Instr
  | .packet p => decodePacket p
  | .event ev => decodeEvent ev

/-- A 32-bit word from its four bytes, the least significant first (R64). -/
def wordOfBytes (b0 b1 b2 b3 : Byte) : Word := b3 ++ b2 ++ b1 ++ b0

/-- Decode a packet a host has stored in memory: three words, each little-endian, W0 at the lowest address (R64, R100). -/
def decodeBytes : List Byte → Except Reject Instr
  | [a0, a1, a2, a3, b0, b1, b2, b3, c0, c1, c2, c3] =>
    decodePacket ⟨wordOfBytes a0 a1 a2 a3, wordOfBytes b0 b1 b2 b3, wordOfBytes c0 c1 c2 c3⟩
  | _ => .error .badLength

/-- The fields an instruction sets; every other field is zero (R110: "A field the syntax does not show is encoded as
zero"). -/
def Fields.zero : Fields := { idx := 0, a := 0, b := 0, f := false, x := 0, y := 0 }

/-- W0 from its fields: `{F, B, A, IDX, OP}` (R101). -/
def packFields (op : Op) (fs : Fields) : Packet :=
  { w0 := BitVec.ofBool fs.f ++ fs.b ++ fs.a ++ fs.idx ++ opCode op, w1 := fs.x, w2 := fs.y }

/-- The words of an instruction: the packet of a command, the code of an event (R101, R103, R107). -/
def encode : Instr → Wire
  | .activateVoice idx active => .packet (packFields .activateVoice { Fields.zero with idx := idx, f := active })
  | .setFrequency idx freq => .packet (packFields .setFrequency { Fields.zero with idx := idx, x := freq })
  | .setMidiNote idx note velocity active =>
    .packet (packFields .setMidiNote { Fields.zero with idx := idx, a := note, b := velocity, f := active })
  | .setWaveform idx wf => .packet (packFields .setWaveform { Fields.zero with idx := idx, a := wf })
  | .updateFilter cutoff q => .packet (packFields .updateFilter { Fields.zero with x := cutoff, y := q })
  | .updateDelay time feedback => .packet (packFields .updateDelay { Fields.zero with x := time, y := feedback })
  | .effectSetSlot slot effect => .packet (packFields .effectSetSlot { Fields.zero with idx := slot, a := effect })
  | .effectActivateSlot slot active =>
    .packet (packFields .effectActivateSlot { Fields.zero with idx := slot, f := active })
  | .getFilter => .packet (packFields .getFilter Fields.zero)
  | .getDelay => .packet (packFields .getDelay Fields.zero)
  | .init => .packet (packFields .init Fields.zero)
  | .deinit => .packet (packFields .deinit Fields.zero)
  | .evHalf => .event 0b01
  | .evFull => .event 0b10
  | .evError => .event 0b11

/-- The input an opcode-table row's bits stand for (log 12): bit 0 is the least significant bit of the first word and a
later word's bits count on from it. The event rows are the 2-bit codes 1, 2 and 3, which the table gives at most one
byte; every other number is a packet, whose words not given are zero. -/
def wireOfTableWord (nbits w : Nat) : Wire :=
  if nbits ≤ 8 ∧ w < 4 then .event (BitVec.ofNat 2 w)
  else .packet ⟨BitVec.ofNat 32 w, BitVec.ofNat 32 (w / 2 ^ 32), BitVec.ofNat 32 (w / 2 ^ 64)⟩

/-- The instruction the decoder reads from a table row's bits. -/
def decodeTableWord (nbits w : Nat) : Option Instr :=
  match decode (wireOfTableWord nbits w) with
  | .ok i => some i
  | .error _ => none

end Sys2Proof
end

