-- ==== Sys2Proof/Machine/ConfigCheck.lean ====
section
/-! DEFINITION. The configuration checks of R381, in its order. -/

namespace Sys2Proof.Machine

/-- Finite, with magnitude at most 2^126 (c5): the pattern of 2^126 is 0x7E800000. -/
def tableEntryLegal (x : F32) : Bool := decide (F32.magBits x ≤ 0x7E800000)

/-- c6 for one time: t is finite and ≥ 0, and n = f32(SR)·t is finite with round(n) ≤ 2^32 − 1. A product of two finite
values is never a NaN, so the encoding given to `mul` is never used. -/
def timeLegal (sr : Nat) (t : F32) : Bool :=
  let n := F32.mul (Config.freeNaN 0 0 0 0) (F32.ofInt sr) t
  F32.isFinite t && F32.ge t 0 && F32.isFinite n && decide (F32.round n ≤ 2 ^ 32 - 1)

/-- In [0, 1], not a NaN (c7). -/
def levelLegal (x : F32) : Bool := F32.ge x 0 && F32.le x 0x3F800000

/-- Does the configuration pass the check (R381)? -/
def checkPasses (c : Config) : ConfigCheck → Bool
  | .c1 => decide (1 ≤ c.nv ∧ c.nv ≤ 255)
  | .c2 => decide (256 ≤ c.sr ∧ c.sr ≤ 2 ^ 24)
  | .c3 => decide (1 ≤ c.h ∧ c.h ≤ 2 ^ 24)
  | .c4 => decide (1 ≤ c.l ∧ c.l ≤ 2 ^ 24)
  | .c5 => decide (c.wt.length = 5 * 256) && c.wt.all tableEntryLegal
  | .c6 => timeLegal c.sr c.env.attackTime && timeLegal c.sr c.env.decayTime && timeLegal c.sr c.env.releaseTime
  | .c7 => levelLegal c.env.attackLevel && levelLegal c.env.sustainLevel
  | .c8 => decide (c.vgain.length = 128) && c.vgain.all F32.isFinite
  | .c9 => F32.isFinite c.oscale && F32.gt c.oscale 0

/-- The first check the configuration fails, none when it is legal. -/
def failingCheck (c : Config) : Option ConfigCheck :=
  [ConfigCheck.c1, .c2, .c3, .c4, .c5, .c6, .c7, .c8, .c9].find? (fun k => !checkPasses c k)

end Sys2Proof.Machine
end

