-- ==== Sys2Proof/Machine/Fetch.lean ====
section
/-! DEFINITION. Which of the enabled steps comes next: the step relation of R346 and R347. The block fetches no
instructions (R75); its inputs are the packets on the command port and the code on the event input, both held in State
(log 7). -/

namespace Sys2Proof.Machine

/-- The next step of the block, with the state it starts from. -/
inductive Move where
  /-- The configuration fails a check: the block "accepts no step" (R341, R381). -/
  | refuse (check : ConfigCheck)
  /-- A sub-step or the response of a command, or the arrival of an event. -/
  | run (i : Instr) (s : State)
  /-- The service of a pending render (R346). -/
  | serve (half : Half) (s : State)
  /-- A packet that selects no operation is rejected (R104, R105). -/
  | reject (s : State)
  /-- Nothing is enabled: the block waits for input and "holds all its state" (R358, U26). -/
  | wait (s : State)
deriving DecidableEq, Repr

/-- Every step reads one code from the event input and takes a fresh number for its free values. -/
def State.tick (s : State) : State := { s with fresh := s.fresh + 1, evIn := s.evIn.tail }

/-- The code on the event input at this step: 0b00, no event, where the host gave none (R107). -/
def State.eventCode (s : State) : BitVec 2 := s.evIn.headD 0

/-- The pending render that is served: with both pending, either one (R347 point 2), so the choice is a free value. -/
def servedHalf (s : State) : Half :=
  if s.pendHalf && s.pendFull then (if Config.halfServedFirst s.fresh then .first else .second)
  else if s.pendHalf then .first
  else .second

/-- The command context's next step at a boundary with no pending bit: the next sub-step, or the response, of the command in
progress, or the next packet on the command port (R346, R355). -/
def commandMove (s t : State) : Move :=
  match s.inProgress with
  | some p => .run p.instr t
  | none =>
    match s.cmdIn with
    | [] => .wait t
    | p :: rest =>
      match decodePacket p with
      | .ok i => .run i { t with cmdIn := rest }
      | .error _ => .reject { t with cmdIn := rest }

/-- The step relation (R346): an event that is presented arrives; otherwise a pending render is served, for which RMASK
must be false; otherwise the command context moves. -/
def nextMove (s : State) : Move :=
  match failingCheck s.cfg with
  | some c => .refuse c
  | none =>
    match decodeEvent s.eventCode with
    | .ok i => .run i s.tick
    | .error _ =>
      if s.noPending then commandMove s s.tick
      else if s.rmask then .wait s.tick
      else .serve (servedHalf s.tick) s.tick

/-- Present `w` so that the very next step takes it: an event is the next code on the event input; a packet is next on the
command port, with no event at that step, no command in progress and no render pending. -/
def State.present (w : Wire) (s : State) : State :=
  match w with
  | .event ev => { s with evIn := ev :: s.evIn }
  | .packet p =>
    { s with evIn := 0 :: s.evIn, inProgress := none, pendHalf := false, pendFull := false, cmdIn := p :: s.cmdIn }

end Sys2Proof.Machine
end

