-- ==== Sys2Proof/Machine/Render.lean ====
section
/-! DEFINITION. The mixer and the half-buffer render engine (47_render.md), and the service of a render event, which runs
it (R346). -/

namespace Sys2Proof.Machine

/-- `voice_contribution(i)` of an active voice: the envelope steps, then the oscillator; gain times sample (R312). -/
def Voice.contribution (ν : Nat → BitVec 32) (c : Config) (v : Voice) : F32 × Voice :=
  let e := v.env.process ν
  let r := { v with env := e }.nextSample ν c
  (F32.mul (ν 12) e.gain r.1, r.2)

/-- One voice of the mix: an active voice adds its term, and is deactivated when its envelope has reached Off (R311, R314);
an inactive voice is skipped. -/
def Voice.mix (ν : Nat → BitVec 32) (c : Config) (sum : F32) (v : Voice) : F32 × Voice :=
  if v.active then
    let r := v.contribution ν c
    (F32.add (ν 13) sum r.1, if r.2.env.isActive then r.2 else r.2.deactivate)
  else (sum, v)

/-- The mix over the voices from number `i` on, in increasing index (R311). -/
def mixVoices (ν : Nat → Nat → BitVec 32) (c : Config) : Nat → F32 → List Voice → F32 × List Voice
  | _, sum, [] => (sum, [])
  | i, sum, v :: vs =>
    let r := v.mix (ν (unitVoice i)) c sum
    let rest := mixVoices ν c (i + 1) r.1 vs
    (rest.1, r.2 :: rest.2)

/-- `to_s16(v)` (R315). -/
def toS16 (ν : Nat → BitVec 32) (oscale : F32) (v : F32) : Sample :=
  let y := F32.mul (ν 0) v oscale
  if F32.isNaN y then 0
  else if F32.ge y 0x46FFFE00 then 32767#16
  else if F32.le y 0xC7000000 then BitVec.ofInt 16 (-32768)
  else BitVec.ofInt 16 (F32.trunc y)

/-- `render_frame(k)` (R311, R316). -/
def renderFrame (k : Nat) (s : State) : State :=
  let mixed := mixVoices (s.nans k) s.cfg 0 0 s.voices
  let r := fxRender k mixed.1 { s with voices := mixed.2 }
  let o := toS16 (s.nans k unitOutput) s.cfg.oscale r.1
  { r.2 with out := outWrite (2 * k + 1) o (outWrite (2 * k) o r.2.out) }

/-- `n` frames from frame `k` on, in increasing order (R310). -/
def renderFrames : Nat → Nat → State → State
  | 0, _, s => s
  | n + 1, k, s => renderFrames n (k + 1) (renderFrame k s)

/-- `render_half(start)`: H frames (R310). -/
def renderHalf (start : Nat) (s : State) : State := renderFrames s.cfg.h start s

/-- `serve(h)`: the pending bit is cleared and the half is rendered (R346). It faults, with nothing done, when a delay
position lies outside DBUF, which no run reaches (log 5). -/
def serve (half : Half) (s : State) : Host.Outcome State Fault Refusal :=
  if s.delay.inRange s.cfg.l then .next (renderHalf (startFrame half s.cfg) (beginService half s))
  else .fault (.addressOutsideSpace .dbuf)

end Sys2Proof.Machine
end

