-- ==== Sys2Proof/Machine/Step.lean ====
section
/-! DEFINITION. One atomic step of the block (R5, R70): a command sub-step or response (R270), the arrival of an
event, or the render of one half-buffer. -/

namespace Sys2Proof.Machine

def step (s : State) : Host.Outcome State Fault Refusal :=
  match nextMove s with
  | .refuse c => .refused (.configRefused c)
  | .run i t => exec i t
  | .serve half t => serve half t
  | .reject t => .next (paramError t)
  | .wait t => .next t

/-- The state whose next step runs the table row's bits (log 12). -/
def State.withFetchWord (s : State) (nbits w : Nat) : State := s.present (wireOfTableWord nbits w)

end Sys2Proof.Machine
end

