-- ==== Sys2Proof/Machine/ControlRegisters.lean ====
section
/-! DEFINITION. The control registers CR0 to CR9: the numbers R44 gives the fields software sets or reads. They are
labels, not addresses: no operation of the block names a field by its number. -/

namespace Sys2Proof.Machine

/-- The field CRn, zero-extended to a word where it is narrower; none for a number R44 does not use. -/
def State.controlRegister (s : State) (n : Nat) : Option Word :=
  match n with
  | 0 => some s.filter.cutoff
  | 1 => some s.filter.q
  | 2 => some (if s.filter.ready then 1 else 0)
  | 3 => some s.delay.readPos
  | 4 => some s.delay.feedback
  | 5 => some (effectId s.slot0.effect)
  | 6 => some (if s.slot0.active then 1 else 0)
  | 7 => some (effectId s.slot1.effect)
  | 8 => some (if s.slot1.active then 1 else 0)
  | 9 => some s.filter.sampleRate
  | _ => none

end Sys2Proof.Machine
end

