-- ==== Sys2Proof/WellFormed.lean ====
section
/-! DEFINITION. The legal operand ranges of R102, one check a field. The voice index is legal relative to the pool size
NV. An instruction that is not well formed still decodes; running it raises ParamError (R340). -/

namespace Sys2Proof

/-- "A value v < NV names voice v. The value 0xFF names all voices" (R102). -/
def voiceIndexLegal (nv : Nat) (idx : BitVec 8) : Bool := decide (idx.toNat < nv ∨ idx = 0xFF)

/-- "A value s ≤ 1 names slot s" (R102). -/
def slotIndexLegal (slot : BitVec 8) : Bool := decide (slot.toNat ≤ 1)

/-- The legal notes are 0..127 (R102). -/
def noteLegal (note : BitVec 8) : Bool := decide (note.toNat ≤ 127)

/-- The legal waveform ids are 0..4 (R102, R151). -/
def waveformLegal (wf : BitVec 8) : Bool := decide (wf.toNat ≤ 4)

/-- The legal effect ids are 0..2 (R102). -/
def effectLegal (effect : BitVec 8) : Bool := decide (effect.toNat ≤ 2)

/-- Every field that R102 gives a range is in it. -/
def Instr.wellFormed (nv : Nat) : Instr → Bool
  | .activateVoice idx _ => voiceIndexLegal nv idx
  | .setFrequency idx _ => voiceIndexLegal nv idx
  | .setMidiNote idx note _ _ => voiceIndexLegal nv idx && noteLegal note
  | .setWaveform idx wf => voiceIndexLegal nv idx && waveformLegal wf
  | .updateFilter _ _ => true
  | .updateDelay _ _ => true
  | .effectSetSlot slot effect => slotIndexLegal slot && effectLegal effect
  | .effectActivateSlot slot _ => slotIndexLegal slot
  | .getFilter => true
  | .getDelay => true
  | .init => true
  | .deinit => true
  | .evHalf => true
  | .evFull => true
  | .evError => true

/-- The operations that arrive on the event input; the others arrive on the command port (R100). -/
def Instr.isEvent : Instr → Bool
  | .evHalf => true
  | .evFull => true
  | .evError => true
  | .activateVoice _ _ => false
  | .setFrequency _ _ => false
  | .setMidiNote _ _ _ _ => false
  | .setWaveform _ _ => false
  | .updateFilter _ _ => false
  | .updateDelay _ _ => false
  | .effectSetSlot _ _ => false
  | .effectActivateSlot _ _ => false
  | .getFilter => false
  | .getDelay => false
  | .init => false
  | .deinit => false

end Sys2Proof
end

