-- ==== Sys2Proof/Machine/Run.lean ====
section
/-! DEFINITION. Runs and what they produce (R384): the state at the end of the run, and the sequence of the responses its
commands were given. -/

namespace Sys2Proof.Machine

/-- The contents of the three response registers (R108). -/
structure Response where
  r0 : Word
  r1 : Word
  r2 : Word
deriving DecidableEq, Repr

/-- What the response registers hold. -/
def State.response (s : State) : Response := { r0 := s.rsp0, r1 := s.rsp1, r2 := s.rsp2 }

/-- The step from `s` to `t` ends a command, whose response it writes: a packet is rejected (R104, R105), or a command
leaves no sub-step and no response to come (R270). An arrival, a service and a wait end none. -/
def State.endsCommand (s t : State) : Bool :=
  match nextMove s with
  | .refuse _ => false
  | .run i _ => !i.isEvent && t.inProgress.isNone
  | .serve _ _ => false
  | .reject _ => true
  | .wait _ => false

/-- The state `n` steps after `s`, if no step stops (the host's `Host.Core.run`, written for this machine alone). -/
def State.after : Nat → State → Host.Outcome State Fault Refusal
  | 0, s => .next s
  | n + 1, s =>
    match step s with
    | .next t => State.after n t
    | .fault r => .fault r
    | .refused r => .refused r

/-- The responses written in the first `n` steps from `s`, in order; two equal ones are two. -/
def State.responses : Nat → State → List Response
  | 0, _ => []
  | n + 1, s =>
    match step s with
    | .next t => (if s.endsCommand t then [t.response] else []) ++ State.responses n t
    | .fault _ => []
    | .refused _ => []

/-- What a run produces (R384): the state at its end, which holds every register and the memories DBUF and OUT, and the
sequence of responses. -/
structure RunResult where
  state     : State
  responses : List Response
deriving DecidableEq, Repr

/-- The result of the run of `n` steps from `s`: none when a step stops, and none when the run has not ended, since a
command is in progress or a pending bit is set (R384). -/
def State.runResult (n : Nat) (s : State) : Option RunResult :=
  match State.after n s with
  | .next t => if t.atRest then some { state := t, responses := State.responses n s } else none
  | .fault _ => none
  | .refused _ => none

end Sys2Proof.Machine
end

