-- ==== Sys2Proof/Safety.lean ====
section
/-! DEFINITION. What a good state is, what a safe run is, and the one premise the spec asks to be named: ASSUMED_DEADLINE. -/

namespace Sys2Proof.Machine

/-- 0 ≤ phase < 256 (R33). -/
def phaseLegal (x : F32) : Bool := F32.ge x 0 && F32.lt x F32.c256

/-- What holds of every voice at every step boundary. -/
structure Voice.Inv (c : Config) (v : Voice) : Prop where
  /-- "`phase` always in `[0, table_size)`" (R33). -/
  phase     : phaseLegal v.phase = true
  /-- The frequency and the amplitude are finite (R33). -/
  frequency : F32.isFinite v.frequency = true
  amplitude : F32.isFinite v.amplitude = true
  /-- An active voice has a stage other than Off (R34). -/
  active    : v.active = true → v.env.stage ≠ .off
  /-- An inactive voice is idle: phase +0.0, stage Off, and the ramp zeroed (R152, R313). -/
  inactive  : v.active = false → v.phase = 0 ∧ v.env.stage = .off ∧ v.env.ramp.current = 0 ∧
                v.env.ramp.increment = 0 ∧ v.env.ramp.remaining = 0
  /-- In Sustain and Off the ramp is finished (R203). -/
  settled   : v.env.stage = .sustain ∨ v.env.stage = .off → v.env.ramp.remaining = 0
  /-- The envelope's times and levels are those of ENV, sustain clamped to attack, and the ramp runs at SR: they are
  written by INIT only (R35, R36, R201). -/
  times     : v.env.attackTime = c.env.attackTime ∧ v.env.decayTime = c.env.decayTime ∧
                v.env.releaseTime = c.env.releaseTime
  levels    : v.env.attackLevel = c.env.attackLevel ∧
                v.env.sustainLevel = (Env.atReset c).sustainLevel
  rate      : v.env.ramp.sampleRate = F32.ofInt c.sr

/-- What holds of the filter (R37, R221, R226): until ready it is as reset left it; when ready its coefficients are those
of its present parameters. -/
structure Filter.Inv (c : Config) (f : Filter) : Prop where
  notReady : f.ready = false → f = Filter.atReset c
  ready    : f.ready = true → f.recompute = f
  rate     : f.sampleRate = F32.ofInt c.sr
  cutoff   : F32.ge f.cutoff 0 = true
  q        : F32.ge f.q 0 = true

/-- What holds of the delay (R38). -/
structure Delay.Inv (c : Config) (d : Delay) : Prop where
  positions : d.inRange c.l = true
  rate      : d.sampleRate = F32.ofInt c.sr
  feedback  : (F32.ge d.feedback 0 && F32.lt d.feedback 0x3F800000) = true

/-- A voice command on ALL voices whose operands are legal. -/
def legalOnAll : Instr → Bool
  | .activateVoice idx _ => decide (idx = 0xFF)
  | .setFrequency idx freq => decide (idx = 0xFF) && F32.isFinite freq
  | .setMidiNote idx note _ _ => decide (idx = 0xFF) && noteInRange note
  | .setWaveform idx wf => decide (idx = 0xFF) && (waveformOfId wf).isSome
  | .updateFilter _ _ => false
  | .updateDelay _ _ => false
  | .effectSetSlot _ _ => false
  | .effectActivateSlot _ _ => false
  | .getFilter => false
  | .getDelay => false
  | .init => false
  | .deinit => false
  | .evHalf => false
  | .evFull => false
  | .evError => false

/-- How many sub-steps a command has (R270): one a named voice, one for every other command that changes the block, none
for a getter. An event is no command. -/
def subStepCount (nv : Nat) : Instr → Nat
  | .activateVoice idx _ => if idx = 0xFF then nv else 1
  | .setFrequency idx _ => if idx = 0xFF then nv else 1
  | .setMidiNote idx _ _ _ => if idx = 0xFF then nv else 1
  | .setWaveform idx _ => if idx = 0xFF then nv else 1
  | .updateFilter _ _ => 1
  | .updateDelay _ _ => 1
  | .effectSetSlot _ _ => 1
  | .effectActivateSlot _ _ => 1
  | .getFilter => 0
  | .getDelay => 0
  | .init => 1
  | .deinit => 1
  | .evHalf => 0
  | .evFull => 0
  | .evError => 0

/-- What holds of a command in progress: its operands are in their ranges (R102) and a frequency is finite, it has begun, at
most all of its sub-steps are done, and the response is still to be written (R71, R270). -/
structure Progress.Inv (c : Config) (p : Progress) : Prop where
  operands  : p.instr.wellFormed c.nv = true
  frequency : ∀ idx freq, p.instr = .setFrequency idx freq → F32.isFinite freq = true
  started   : 0 < p.done
  bounded   : p.done ≤ subStepCount c.nv p.instr

/-- THE INVARIANT: a legal configuration, NV voices, every register at a value its table of 10_state.md calls legal, and
both memories canonical and inside their space. -/
structure State.Inv (s : State) : Prop where
  config     : failingCheck s.cfg = none
  voiceCount : s.voices.length = s.cfg.nv
  voices     : ∀ v ∈ s.voices, v.Inv s.cfg
  filter     : s.filter.Inv s.cfg
  delay      : s.delay.Inv s.cfg
  dbufForm   : s.dbuf.wf = true
  dbufSpace  : s.dbuf.within (4 * s.cfg.l) = true
  outForm    : s.out.wf = true
  outSpace   : s.out.within (8 * s.cfg.h) = true
  /-- "RMASK is therefore false at every step boundary" (R343). -/
  mask       : s.rmask = false
  /-- RSP0 holds a result code and the ready bit, and nothing else (R108). -/
  response   : s.rsp0 = 0x000 ∨ s.rsp0 = 0x001 ∨ s.rsp0 = 0x100
  progress   : ∀ p, s.inProgress = some p → p.Inv s.cfg

/-- A run is safe when no step of it stops with a fault or a refusal (U26). -/
def State.SafeRun (s : State) : Prop := ∀ n, ∃ t, State.after n s = .next t

/-- A render event is presented and accepted at this step (R344). -/
def State.acceptsRender (s : State) : Bool :=
  decide (s.lc = .running) && (decide (s.eventCode = 1) || decide (s.eventCode = 2))

/-- The next step is INIT's sub-step, at which the transfer device starts reading at frame 0 (R284, R354). INIT's response,
a later step, starts nothing. -/
def State.startsTransfer (s : State) : Prop := s.subStep = 0 ∧ ∃ t, nextMove s = .run .init t

/-- THE NAMED PREMISE OF R392, of the run from `s`: it is assumed where a statement says so, and is no part of the step
relation. Each accepted render event finds every earlier one served; the first one after the transfer starts is HALF; and
two accepted render events with no event and no such start between them are of different halves. -/
structure ASSUMED_DEADLINE (s : State) : Prop where
  served     : ∀ n t, State.after n s = .next t → t.acceptsRender = true → t.noPending = true
  first      : ∀ n m t u, n < m → State.after n s = .next t → State.after m s = .next u → t.startsTransfer →
                 u.acceptsRender = true →
                 (∀ k w, n < k → k < m → State.after k s = .next w → w.eventCode = 0 ∧ ¬ w.startsTransfer) →
                 u.eventCode = 1
  alternates : ∀ n m t u, n < m → State.after n s = .next t → State.after m s = .next u →
                 t.acceptsRender = true → u.acceptsRender = true →
                 (∀ k w, n < k → k < m → State.after k s = .next w → w.eventCode = 0) →
                 (∀ k w, n ≤ k → k < m → State.after k s = .next w → ¬ w.startsTransfer) →
                 t.eventCode ≠ u.eventCode

end Sys2Proof.Machine
end

