-- ==== Sys2Proof/Certificates/Slice0/Obligations.lean ====
section
/-! DEFINITION. The statements for the provers: what each command, event and step does, in the words of the rules of
spec/. -/

open Sys2Proof Sys2Proof.Machine

namespace Sys2Proof.Claim

/-- The state with a command's answer in the response registers: the guard is released and no command is in progress
(R108, R270). -/
def answered (r0 r1 r2 : Word) (s : State) : State :=
  { s with rsp0 := r0, rsp1 := r1, rsp2 := r2, rmask := false, inProgress := none }

/-- The voices an index names in a pool of `nv` (R102, R271): 0xFF is all of them, in index order. -/
def voicesNamed (idx : BitVec 8) (nv : Nat) : Option (List Nat) :=
  if idx = 0xFF then some (List.range nv) else if idx.toNat < nv then some [idx.toNat] else none

/-- How the command `i` runs, one transition a step (R270): at a command boundary an operand that fails its check gives
PARAM_ERROR and nothing else changes; otherwise the next sub-step has its effect, after which the command is in progress
and the response registers are as before; and after the last sub-step the response OK is written, in a step of its own
that changes nothing else. That the checks belong to the step of the first sub-step, and that each transition is one
step, is log 6. -/
structure Runs (i : Instr) (legal : Prop) (effects : List (State → State)) (s : State) : Prop where
  rejected  : s.inProgress = none → ¬ legal → exec i s = .next (answered 1 0 0 s)
  applied   : legal → ∀ u, effects[s.subStep]? = some u →
    exec i s = .next { u s with rmask := false, inProgress := some { instr := i, done := s.subStep + 1 } }
  responded : legal → s.subStep = effects.length → exec i s = .next (answered 0 0 0 s)

/-- The sub-steps of a voice command on the voices `vs`, when its effect on voice `n` is `f n`: one voice each (R71). -/
def onVoices (vs : Option (List Nat)) (f : Nat → Voice → Voice) : List (State → State) :=
  (vs.getD []).map (fun n s => { s with voices := s.voices.modify n (f n) })

/-- The NaN encodings a command's sub-step on voice `n` draws on (R9). -/
def voiceNaNs (s : State) (n : Nat) : Nat → BitVec 32 := Config.freeNaN s.fresh 0 (3 + n)

/-- The voice deactivated (R152). -/
def deactivated (v : Voice) : Voice :=
  { v with active := false, phase := 0,
           env := { v.env with stage := .off,
                               ramp := { v.env.ramp with current := 0, increment := 0, remaining := 0 } } }

/-- The envelope triggered (R204). -/
def triggered (ν : Nat → BitVec 32) (e : Env) : Env :=
  { e with stage := .attack, ramp := startStage ν e.attackLevel e.attackTime e.ramp }

/-- The envelope released (R205). -/
def released (ν : Nat → BitVec 32) (e : Env) : Env :=
  match e.stage with
  | .off => e
  | .release => e
  | .attack => { e with stage := .release, ramp := startStage ν 0 e.releaseTime e.ramp }
  | .decay => { e with stage := .release, ramp := startStage ν 0 e.releaseTime e.ramp }
  | .sustain => { e with stage := .release, ramp := startStage ν 0 e.releaseTime e.ramp }

/-- What ACTIVATE_VOICE does to a voice (R272). -/
def activateEffect (ν : Nat → BitVec 32) (on : Bool) (v : Voice) : Voice :=
  if on then { v with active := true, env := triggered ν v.env } else deactivated v

/-- What SET_MIDI_NOTE does to a voice (R276). -/
def midiEffect (ν : Nat → BitVec 32) (c : Config) (note : BitVec 8) (velocity : BitVec 7) (on : Bool) (v : Voice) :
    Voice :=
  if on then
    { v with frequency := noteHz note.toNat, amplitude := c.vgain.getD velocity.toNat 0, active := true,
             env := triggered ν v.env }
  else { v with env := released ν v.env }

/-- What a voice command does to one of its voices (R272, R273, R276, R277). -/
def voiceEffect (ν : Nat → BitVec 32) (c : Config) : Instr → Voice → Voice
  | .activateVoice _ on, v => activateEffect ν on v
  | .setFrequency _ freq, v => { v with frequency := freq }
  | .setMidiNote _ note velocity on, v => midiEffect ν c note velocity on v
  | .setWaveform _ wf, v =>
    { v with waveform := ([Waveform.saw, .reverseSaw, .square, .sine, .triangle][wf.toNat]?).getD v.waveform }
  | .updateFilter _ _, v => v
  | .updateDelay _ _, v => v
  | .effectSetSlot _ _, v => v
  | .effectActivateSlot _ _, v => v
  | .getFilter, v => v
  | .getDelay, v => v
  | .init, v => v
  | .deinit, v => v
  | .evHalf, v => v
  | .evFull, v => v
  | .evError, v => v

/-- A row of the opcode map with its "must be zero" column as masks on the three words (R103, opcode_table.json). -/
structure Row where
  op    : Word
  zero0 : Word
  zero1 : Word
  zero2 : Word

/-- The opcode map of R103. -/
def opcodeMap : List Row :=
  [⟨0x01, 0x7FFF0000, 0xFFFFFFFF, 0xFFFFFFFF⟩, ⟨0x02, 0xFFFF0000, 0, 0xFFFFFFFF⟩,
   ⟨0x03, 0, 0xFFFFFFFF, 0xFFFFFFFF⟩, ⟨0x04, 0xFF000000, 0xFFFFFFFF, 0xFFFFFFFF⟩,
   ⟨0x05, 0xFFFFFF00, 0, 0⟩, ⟨0x06, 0xFFFFFF00, 0, 0⟩,
   ⟨0x07, 0xFF000000, 0xFFFFFFFF, 0xFFFFFFFF⟩, ⟨0x08, 0x7FFF0000, 0xFFFFFFFF, 0xFFFFFFFF⟩,
   ⟨0x10, 0xFFFFFF00, 0xFFFFFFFF, 0xFFFFFFFF⟩, ⟨0x11, 0xFFFFFF00, 0xFFFFFFFF, 0xFFFFFFFF⟩,
   ⟨0x20, 0xFFFFFF00, 0xFFFFFFFF, 0xFFFFFFFF⟩, ⟨0x21, 0xFFFFFF00, 0xFFFFFFFF, 0xFFFFFFFF⟩]

/-- The next step of `s` reads the command port: the configuration is legal, no event is presented, no render is pending,
no command is in progress, and the packet is the next one. -/
structure Presents (s : State) (p : Packet) (rest : List Packet) : Prop where
  config     : failingCheck s.cfg = none
  noEvent    : s.eventCode = 0
  noPending  : s.noPending = true
  noCommand  : s.inProgress = none
  packet     : s.cmdIn = p :: rest

/-- The state a step works on: the event code is read and the free values are fresh. -/
def begun (s : State) : State := { s with fresh := s.fresh + 1, evIn := s.evIn.tail }

/-- The operand fields of a packet, by their bits in W0 (R101). -/
def idxField (p : Packet) : BitVec 8 := p.w0.extractLsb' 8 8
def aField (p : Packet) : BitVec 8 := p.w0.extractLsb' 16 8
def bField (p : Packet) : BitVec 7 := p.w0.extractLsb' 24 7
def fField (p : Packet) : Bool := p.w0.getLsbD 31

/-- What a packet with this OP does when it is read: with a reserved field that is not zero it is malformed, and only the
response changes (R104); otherwise the step runs the instruction that its fields make (R103). -/
def packetRuns (op : BitVec 8) (reservedZero : Packet → Prop) (i : Packet → Instr) : Prop :=
  ∀ (p : Packet) (s : State) (rest : List Packet), p.w0.extractLsb' 0 8 = op → Presents s p rest →
    (¬ reservedZero p → step s = .next (answered 1 0 0 { begun s with cmdIn := rest })) ∧
    (reservedZero p → step s = exec (i p) { begun s with cmdIn := rest })

/-- No operand: every other field must be zero. -/
def allZero (p : Packet) : Prop :=
  idxField p = 0 ∧ aField p = 0 ∧ bField p = 0 ∧ fField p = false ∧ p.w1 = 0 ∧ p.w2 = 0

/-- What a render leaves as it is in a voice: everything but its phase, its activity, its stage and its ramp (R320). -/
def sameParameters (v w : Voice) : Prop :=
  w.waveform = v.waveform ∧ w.frequency = v.frequency ∧ w.amplitude = v.amplitude ∧
  w.env.attackTime = v.env.attackTime ∧ w.env.decayTime = v.env.decayTime ∧
  w.env.releaseTime = v.env.releaseTime ∧ w.env.attackLevel = v.env.attackLevel ∧
  w.env.sustainLevel = v.env.sustainLevel ∧ w.env.ramp.sampleRate = v.env.ramp.sampleRate

/-- `m` ramp steps, the j-th with the NaN encodings `ν j`. -/
def rampSteps (ν : Nat → Nat → BitVec 32) : Nat → Ramp → Ramp
  | 0, r => r
  | m + 1, r => (rampSteps ν m r).process (ν m)

/-- `m` envelope steps. -/
def envSteps (ν : Nat → Nat → BitVec 32) : Nat → Env → Env
  | 0, e => e
  | m + 1, e => (envSteps ν m e).process (ν m)

/-- c0 + inc + inc + … + inc, `m` additions, each rounded (R185). -/
def addedTimes (ν : Nat → Nat → BitVec 32) (inc c0 : F32) : Nat → F32
  | 0 => c0
  | m + 1 => F32.add (ν m 3) (addedTimes ν inc c0 m) inc

/-- `n` calls of the delay on the inputs `x 0`, `x 1`, …. -/
def delayCalls (ν : Nat → Nat → BitVec 32) (l : Nat) (x : Nat → F32) : Nat → Delay × Memory → Delay × Memory
  | 0, r => r
  | n + 1, r => ((delayCalls ν l x n r).1.process (ν n) l (x n) (delayCalls ν l x n r).2).2

/-- The sum of the mix before voice `i`: +0.0 and then the terms of voices 0 to i − 1, in that order (R311). -/
def sumBefore (ν : Nat → Nat → BitVec 32) (c : Config) (vs : List Voice) : Nat → F32
  | 0 => 0
  | i + 1 =>
    match vs[i]? with
    | some v => (v.mix (ν (3 + i)) c (sumBefore ν c vs i)).1
    | none => sumBefore ν c vs i

/-- Frame `k` from the state `u`, without its output (R311): the mixed voices, and the effect chain's sample and state. -/
def frameOf (u : State) (k : Nat) : F32 × State :=
  let mixed := mixVoices (fun n => Config.freeNaN u.fresh k n) u.cfg 0 0 u.voices
  fxRender k mixed.1 { u with voices := mixed.2 }

/-- The state before frame `start + j` of a half, without what the frames write to OUT, which no frame reads. -/
def beforeFrame (s : State) (start : Nat) : Nat → State
  | 0 => s
  | j + 1 => (frameOf (beforeFrame s start j) (start + j)).2

/-- The least significant byte of a sample, and its most significant one (R64). -/
def lowByte (o : Sample) : Byte := o.extractLsb' 0 8
def highByte (o : Sample) : Byte := o.extractLsb' 8 8

/-- A slot binds the effect and is active (R261). -/
def binds (slot : Slot) (e : Effect) : Prop := slot.active = true ∧ slot.effect = e

/-- A slot is transparent: inactive, or bound to None (R261). -/
def transparent (slot : Slot) : Prop := slot.active = false ∨ slot.effect = .none

end Sys2Proof.Claim

open Sys2Proof.Claim

/-! ### Encoding -/

/-- R112: the source's end-to-end example, in both directions. -/
def Obligations.ExamplePacketEncodesAndDecodes : Prop :=
  encode (.setMidiNote 0x02 0x45 0x78 true) = .packet ⟨0xF8450203, 0x00000000, 0x00000000⟩ ∧
  decode (.packet ⟨0xF8450203, 0x00000000, 0x00000000⟩) = .ok (.setMidiNote 2 69 120 true)

/-- R107: the event codes. -/
def Obligations.EventCodesDecode : Prop :=
  decode (.event 0b00) = .error .noEvent ∧ decode (.event 0b01) = .ok .evHalf ∧
  decode (.event 0b10) = .ok .evFull ∧ decode (.event 0b11) = .ok .evError

/-- Decoding the words of an instruction gives the instruction back, for every instruction and every operand its fields
can hold. -/
def Obligations.DecodeInvertsEncode : Prop := ∀ i : Instr, decode (encode i) = .ok i

/-- Each input has one meaning: what decodes to an instruction is exactly that instruction's encoding. -/
def Obligations.EncodeInvertsDecode : Prop := ∀ (w : Wire) (i : Instr), decode w = .ok i → encode i = w

/-- R105: every OP value outside the opcode map is illegal, and a packet with one raises ParamError and changes nothing
but the response. -/
def Obligations.IllegalOpRaisesParamError : Prop :=
  ∀ p : Packet,
    ((∀ row ∈ opcodeMap, p.w0 &&& 0x000000FF ≠ row.op) ↔ decodePacket p = .error .illegalOp) ∧
    (decodePacket p = .error .illegalOp →
      ∀ s rest, Presents s p rest → step s = .next (answered 1 0 0 { begun s with cmdIn := rest }))

/-- R104: a reserved field that is not all zero makes the command malformed: ParamError, and nothing but the response
changes. -/
def Obligations.ReservedFieldRaisesParamError : Prop :=
  ∀ row ∈ opcodeMap, ∀ p : Packet, p.w0 &&& 0x000000FF = row.op →
    ((p.w0 &&& row.zero0 ≠ 0 ∨ p.w1 &&& row.zero1 ≠ 0 ∨ p.w2 &&& row.zero2 ≠ 0) ↔
      decodePacket p = .error .reservedField) ∧
    (decodePacket p = .error .reservedField →
      ∀ s rest, Presents s p rest → step s = .next (answered 1 0 0 { begun s with cmdIn := rest }))

/-- At a command boundary, a command whose voice, slot, note, waveform or effect operand is outside the range of R102 changes
nothing but the response, which is PARAM_ERROR. -/
def Obligations.OutOfRangeOperandRaisesParamError : Prop :=
  ∀ (i : Instr) (s : State), i.wellFormed s.cfg.nv = false → s.inProgress = none →
    exec i s = .next (answered 1 0 0 s)

/-! ### The voice commands -/

/-- R272, run as R71 and R270 say; the division into steps is the model's choice (log 6). -/
def Obligations.ActivateVoiceTriggersOrDeactivates : Prop :=
  packetRuns 0x01 (fun p => aField p = 0 ∧ bField p = 0 ∧ p.w1 = 0 ∧ p.w2 = 0)
    (fun p => .activateVoice (idxField p) (fField p)) ∧
  ∀ (idx : BitVec 8) (on : Bool) (s : State), s.cfg.nv ≤ 255 →
    Runs (.activateVoice idx on) ((voicesNamed idx s.cfg.nv).isSome = true)
      (onVoices (voicesNamed idx s.cfg.nv) (fun n v => activateEffect (voiceNaNs s n) on v)) s

/-- R273, run as R71 and R270 say; the division into steps is the model's choice (log 6). -/
def Obligations.SetFrequencyWritesFiniteFrequency : Prop :=
  packetRuns 0x02 (fun p => aField p = 0 ∧ bField p = 0 ∧ fField p = false ∧ p.w2 = 0)
    (fun p => .setFrequency (idxField p) p.w1) ∧
  ∀ (idx : BitVec 8) (freq : F32) (s : State), s.cfg.nv ≤ 255 →
    Runs (.setFrequency idx freq) ((voicesNamed idx s.cfg.nv).isSome = true ∧ F32.isFinite freq = true)
      (onVoices (voicesNamed idx s.cfg.nv) (fun _ v => { v with frequency := freq })) s

/-- R276, run as R71 and R270 say; the division into steps is the model's choice (log 6). -/
def Obligations.SetMidiNoteStartsOrReleases : Prop :=
  packetRuns 0x03 (fun p => p.w1 = 0 ∧ p.w2 = 0)
    (fun p => .setMidiNote (idxField p) (aField p) (bField p) (fField p)) ∧
  ∀ (idx note : BitVec 8) (velocity : BitVec 7) (on : Bool) (s : State), s.cfg.nv ≤ 255 →
    Runs (.setMidiNote idx note velocity on) ((voicesNamed idx s.cfg.nv).isSome = true ∧ note.toNat ≤ 127)
      (onVoices (voicesNamed idx s.cfg.nv) (fun n v => midiEffect (voiceNaNs s n) s.cfg note velocity on v)) s

/-- R277, with the ids of R151, run as R71 and R270 say; the division into steps is the model's choice (log 6). -/
def Obligations.SetWaveformSelectsTable : Prop :=
  packetRuns 0x04 (fun p => bField p = 0 ∧ fField p = false ∧ p.w1 = 0 ∧ p.w2 = 0)
    (fun p => .setWaveform (idxField p) (aField p)) ∧
  ∀ (idx wf : BitVec 8) (s : State), s.cfg.nv ≤ 255 →
    Runs (.setWaveform idx wf) ((voicesNamed idx s.cfg.nv).isSome = true ∧ wf.toNat ≤ 4)
      (onVoices (voicesNamed idx s.cfg.nv) (fun _ v =>
        { v with waveform := ([Waveform.saw, .reverseSaw, .square, .sine, .triangle][wf.toNat]?).getD v.waveform })) s

/-- The whole of an ALL command with no event in its way (R71, R270): NV steps change every voice, each as the command's
rule says and in index order, and one more writes the response OK. Nothing else of the block changes. That each sub-step
and the response are one step each is the model's choice (log 6). -/
def Obligations.AllCommandReachesEveryVoice : Prop :=
  ∀ (i : Instr) (p : Packet) (rest : List Packet) (s : State),
    legalOnAll i = true → decodePacket p = .ok i → Presents s p rest → s.evIn = [] → s.voices.length = s.cfg.nv →
    ∃ vs : List Voice,
      State.after s.cfg.nv s = .next
        { s with voices := vs, cmdIn := rest, fresh := s.fresh + s.cfg.nv, rmask := false,
                 inProgress := some { instr := i, done := s.cfg.nv } } ∧
      State.after (s.cfg.nv + 1) s = .next (answered 0 0 0
        { s with voices := vs, cmdIn := rest, fresh := s.fresh + (s.cfg.nv + 1) }) ∧
      vs.length = s.cfg.nv ∧
      ∀ n v, s.voices[n]? = some v →
        vs[n]? = some (voiceEffect (Config.freeNaN (s.fresh + n + 1) 0 (3 + n)) s.cfg i v)

/-! ### The effect commands, the getters and the lifecycle -/

/-- R278, run as R270 says; the division into steps is the model's choice (log 6). -/
def Obligations.UpdateFilterRecomputesOrRejects : Prop :=
  packetRuns 0x05 (fun p => idxField p = 0 ∧ aField p = 0 ∧ bField p = 0 ∧ fField p = false)
    (fun p => .updateFilter p.w1 p.w2) ∧
  ∀ (cutoff q : F32) (s : State),
    Runs (.updateFilter cutoff q) (F32.ge cutoff 0 = true ∧ F32.ge q 0 = true)
      [fun s =>
        let k := Config.lpfc s.filter.sampleRate cutoff q
        { s with filter := { s.filter with
          cutoff := cutoff, q := q, ready := true, b0 := k.b0, b1 := k.b1, b2 := k.b2, a1 := k.a1, a2 := k.a2 } }] s

/-- R279, run as R270 says; the division into steps is the model's choice (log 6). -/
def Obligations.UpdateDelayMovesReadPosition : Prop :=
  packetRuns 0x06 (fun p => idxField p = 0 ∧ aField p = 0 ∧ bField p = 0 ∧ fField p = false)
    (fun p => .updateDelay p.w1 p.w2) ∧
  ∀ (time feedback : F32) (s : State),
    let prod := F32.mul (Config.freeNaN s.fresh 0 0 0) s.delay.sampleRate time
    Runs (.updateDelay time feedback)
      (F32.isFinite prod = true ∧ F32.ge prod (F32.ofInt s.cfg.l) = false ∧
        F32.ge feedback 0 = true ∧ F32.lt feedback 0x3F800000 = true)
      [fun s => { s with delay := { s.delay with
          readPos := BitVec.ofInt 32 ((s.delay.writePos.toNat + s.cfg.l - F32.round prod) % s.cfg.l),
          feedback := feedback } }] s

/-- R280, run as R270 says; the division into steps is the model's choice (log 6). -/
def Obligations.EffectSetSlotBinds : Prop :=
  packetRuns 0x07 (fun p => bField p = 0 ∧ fField p = false ∧ p.w1 = 0 ∧ p.w2 = 0)
    (fun p => .effectSetSlot (idxField p) (aField p)) ∧
  ∀ (slot effect : BitVec 8) (s : State),
    Runs (.effectSetSlot slot effect) (slot.toNat ≤ 1 ∧ effect.toNat ≤ 2)
      [fun s =>
        let e := ([Effect.none, .lowPass, .delay][effect.toNat]?).getD .none
        if slot.toNat = 0 then { s with slot0 := { s.slot0 with effect := e } }
        else { s with slot1 := { s.slot1 with effect := e } }] s

/-- R281, run as R270 says; the division into steps is the model's choice (log 6). -/
def Obligations.EffectActivateSlotSwitches : Prop :=
  packetRuns 0x08 (fun p => aField p = 0 ∧ bField p = 0 ∧ p.w1 = 0 ∧ p.w2 = 0)
    (fun p => .effectActivateSlot (idxField p) (fField p)) ∧
  ∀ (slot : BitVec 8) (on : Bool) (s : State),
    Runs (.effectActivateSlot slot on) (slot.toNat ≤ 1)
      [fun s =>
        if slot.toNat = 0 then { s with slot0 := { s.slot0 with active := on } }
        else { s with slot1 := { s.slot1 with active := on } }] s

/-- R282. -/
def Obligations.GetFilterReadsBack : Prop :=
  packetRuns 0x10 allZero (fun _ => .getFilter) ∧
  ∀ s : State, exec .getFilter s =
    .next (answered (BitVec.ofNat 32 ((if s.filter.ready then 1 else 0) <<< 8)) s.filter.cutoff s.filter.q s)

/-- R283, and the range of the answer: 1..L samples. -/
def Obligations.GetDelayReadsBack : Prop :=
  packetRuns 0x11 allZero (fun _ => .getDelay) ∧
  ∀ s : State, 1 ≤ s.cfg.l → s.cfg.l ≤ 2 ^ 24 →
    ∃ n : Nat, (n : Int) = ((s.delay.writePos.toNat : Int) - s.delay.readPos.toNat - 1) % s.cfg.l + 1 ∧
      1 ≤ n ∧ n ≤ s.cfg.l ∧ (BitVec.ofNat 32 n).toNat = n ∧
      exec .getDelay s = .next (answered 0 (BitVec.ofNat 32 n) s.delay.feedback s)

/-- R284, run as R270 says, and R382: whatever came before, the state just after INIT, its response written, is the reset
state of R380 with LC = RUNNING; what stands on the inputs, and the model's counter, are not the block's and stay. The
division into steps is the model's choice (log 6). -/
def Obligations.InitIsResetAndRunning : Prop :=
  packetRuns 0x20 allZero (fun _ => .init) ∧
  (∀ s : State, Runs .init True
    [fun s => { State.resetWith s.cfg with
      lc := .running, rsp0 := s.rsp0, rsp1 := s.rsp1, rsp2 := s.rsp2,
      cmdIn := s.cmdIn, evIn := s.evIn, fresh := s.fresh }] s) ∧
  ∀ (s : State) (p : Packet) (rest : List Packet), Presents s p rest → decodePacket p = .ok .init → s.evIn = [] →
    State.after 2 s = .next { State.resetWith s.cfg with lc := .running, cmdIn := rest, fresh := s.fresh + 2 }

/-- R285, run as R270 says; the division into steps is the model's choice (log 6). -/
def Obligations.DeinitMutesAndStops : Prop :=
  packetRuns 0x21 allZero (fun _ => .deinit) ∧
  ∀ s : State, Runs .deinit True
    [fun s => { s with voices := s.voices.map deactivated, pendHalf := false, pendFull := false, lc := .stopped }] s

/-! ### Events and steps -/

/-- R345: a half's event sets its pending bit while RUNNING, a second one coalesces, and outside RUNNING nothing changes;
ERROR changes nothing. The bits are cleared by service, by INIT and by DEINIT (in their one sub-step), and nothing else
clears them. -/
def Obligations.ArrivalSetsPendingBit : Prop :=
  (∀ s : State,
    exec .evHalf s = .next (if s.lc = .running then { s with pendHalf := true } else s) ∧
    exec .evFull s = .next (if s.lc = .running then { s with pendFull := true } else s) ∧
    exec .evError s = .next s) ∧
  (∀ s t : State, step s = .next t →
    (s.pendHalf = true → t.pendHalf = false →
      ∃ u, nextMove s = .serve .first u ∨ nextMove s = .run .init u ∨ nextMove s = .run .deinit u) ∧
    (s.pendFull = true → t.pendFull = false →
      ∃ u, nextMove s = .serve .second u ∨ nextMove s = .run .init u ∨ nextMove s = .run .deinit u)) ∧
  (∀ s t : State,
    (serve .first s = .next t → t.pendHalf = false ∧ t.pendFull = s.pendFull) ∧
    (serve .second s = .next t → t.pendFull = false ∧ t.pendHalf = s.pendHalf) ∧
    (s.inProgress = none → exec .init s = .next t ∨ exec .deinit s = .next t →
      t.pendHalf = false ∧ t.pendFull = false))

/-- R348. -/
def Obligations.TransferErrorChangesNothing : Prop :=
  ∀ s : State, exec .evError s = .next s ∧
    (failingCheck s.cfg = none → s.eventCode = 3 → step s = .next (begun s))

/-- A step runs the decoded instruction: an event that is presented, at any boundary; a packet on the command port, when
no event is presented, no render is pending and no command is in progress, in every lifecycle state (R286); and the next
transition of a command in progress. The model's choice: an event that is presented arrives in that very step, ahead of a
pending render and of the command context, where R345 and R346 leave the order open (log 7); and a packet waits on the
port while a command is in progress, where R355 assumes none is presented (log 15). -/
def Obligations.StepRunsTheDecodedInstruction : Prop :=
  (∀ (s : State) (i : Instr), failingCheck s.cfg = none → decodeEvent s.eventCode = .ok i →
    step s = exec i (begun s)) ∧
  (∀ (s : State) (p : Packet) (rest : List Packet) (i : Instr), Presents s p rest → decodePacket p = .ok i →
    step s = exec i { begun s with cmdIn := rest }) ∧
  (∀ (s : State) (g : Progress), failingCheck s.cfg = none → s.eventCode = 0 → s.noPending = true →
    s.inProgress = some g → step s = exec g.instr (begun s))

/-- R346: once a pending bit is set, the next step that is not an arrival is a serve, of a half that is pending: its bit is
cleared and its H frames are rendered. No command sub-step runs first. -/
def Obligations.PendingRenderIsServedFirst : Prop :=
  ∀ s : State, failingCheck s.cfg = none → s.eventCode = 0 → s.noPending = false → s.rmask = false →
    s.delay.inRange s.cfg.l = true →
    (s.pendHalf = true ∧ step s = .next (renderFrames s.cfg.h 0 { begun s with pendHalf := false })) ∨
    (s.pendFull = true ∧ step s = .next (renderFrames s.cfg.h s.cfg.h { begun s with pendFull := false }))

/-- With nothing on its inputs, nothing pending and no command in progress, a step waits and the block holds all its state.
R358 and U26 say that the block holds its state between steps; that the waiting is a step of the machine, beside the three
of R5, is the model's choice (log 13). -/
def Obligations.IdleStepHoldsState : Prop :=
  ∀ s : State, failingCheck s.cfg = none → s.eventCode = 0 → s.noPending = true → s.inProgress = none →
    s.cmdIn = [] → step s = .next (begun s)

/-- R381: the checks, in plain arithmetic (units of 2^-149), and R341: a refused configuration takes no step. -/
def Obligations.IllegalConfigurationHasNoRun : Prop :=
  ∀ s : State,
    (failingCheck s.cfg = none ↔
      (1 ≤ s.cfg.nv ∧ s.cfg.nv ≤ 255) ∧ (256 ≤ s.cfg.sr ∧ s.cfg.sr ≤ 2 ^ 24) ∧
      (1 ≤ s.cfg.h ∧ s.cfg.h ≤ 2 ^ 24) ∧ (1 ≤ s.cfg.l ∧ s.cfg.l ≤ 2 ^ 24) ∧
      (s.cfg.wt.length = 1280 ∧ ∀ x ∈ s.cfg.wt, F32.isFinite x = true ∧ (F32.units x).natAbs ≤ 2 ^ 126 * 2 ^ 149) ∧
      (∀ t ∈ [s.cfg.env.attackTime, s.cfg.env.decayTime, s.cfg.env.releaseTime],
        F32.isFinite t = true ∧ 0 ≤ F32.units t ∧
        ∀ nan, F32.isFinite (F32.mul nan (F32.ofInt s.cfg.sr) t) = true ∧
          F32.round (F32.mul nan (F32.ofInt s.cfg.sr) t) ≤ 2 ^ 32 - 1) ∧
      (∀ x ∈ [s.cfg.env.attackLevel, s.cfg.env.sustainLevel],
        F32.isFinite x = true ∧ 0 ≤ F32.units x ∧ F32.units x ≤ 2 ^ 149) ∧
      (s.cfg.vgain.length = 128 ∧ ∀ x ∈ s.cfg.vgain, F32.isFinite x = true) ∧
      (F32.isFinite s.cfg.oscale = true ∧ 0 < F32.units s.cfg.oscale)) ∧
    (∀ c, failingCheck s.cfg = some c → step s = .refused (.configRefused c))

/-! ### Numbers -/

/-- R9: a sum, a difference, a product and a quotient of finite values, when the result is finite, is a value nearest to
the exact one. Values are in units of 2^-149, so a product is compared at 2^-298 and a quotient after multiplying by the
divisor. And the ordered comparisons: false with a NaN operand, by value otherwise; the units of an infinity are those its
pattern's formula gives, ±2^128 · 2^149, beyond every finite value. -/
def Obligations.OperatorsRoundToNearest : Prop :=
  (∀ (nan : BitVec 32) (x y z : F32), F32.isFinite x = true → F32.isFinite y = true → F32.isFinite z = true →
    (F32.isFinite (F32.add nan x y) = true →
      |F32.units (F32.add nan x y) - (F32.units x + F32.units y)| ≤ |F32.units z - (F32.units x + F32.units y)|) ∧
    (F32.isFinite (F32.sub nan x y) = true →
      |F32.units (F32.sub nan x y) - (F32.units x - F32.units y)| ≤ |F32.units z - (F32.units x - F32.units y)|) ∧
    (F32.isFinite (F32.mul nan x y) = true →
      |F32.units (F32.mul nan x y) * 2 ^ 149 - F32.units x * F32.units y| ≤
        |F32.units z * 2 ^ 149 - F32.units x * F32.units y|) ∧
    (F32.units y ≠ 0 → F32.isFinite (F32.div nan x y) = true →
      |F32.units (F32.div nan x y) * F32.units y - F32.units x * 2 ^ 149| ≤
        |F32.units z * F32.units y - F32.units x * 2 ^ 149|)) ∧
  (∀ x y : F32,
    (F32.isNaN x = true ∨ F32.isNaN y = true →
      F32.lt x y = false ∧ F32.le x y = false ∧ F32.gt x y = false ∧ F32.ge x y = false) ∧
    (F32.isNaN x = false → F32.isNaN y = false →
      F32.lt x y = decide (F32.units x < F32.units y) ∧ F32.le x y = decide (F32.units x ≤ F32.units y) ∧
      F32.gt x y = decide (F32.units y < F32.units x) ∧ F32.ge x y = decide (F32.units y ≤ F32.units x))) ∧
  (∀ x : F32,
    (F32.isFinite x = true → |F32.units x| < 2 ^ 128 * 2 ^ 149) ∧
    (F32.isInf x = true → F32.units x = if F32.sign x then -(2 ^ 128 * 2 ^ 149) else 2 ^ 128 * 2 ^ 149))

/-- R9: a tie between the two nearest values goes to the one whose pattern is even, and a representable value is not
changed. -/
def Obligations.TiesRoundToEven : Prop :=
  ∀ (b n d : Nat), 0 < d → b < F32.infBits →
    (n = F32.magOf b * d → F32.roundBits n d = b) ∧
    (2 * n = (F32.magOf b + F32.magOf (b + 1)) * d →
      F32.roundBits n d = if b % 2 = 0 then b else b + 1)

/-- R11 and the integer conversions of R10. -/
def Obligations.RoundIsHalfAwayFromZero : Prop :=
  (∀ x : F32, F32.isFinite x = true →
    (|2 * F32.units x - 2 * F32.round x * 2 ^ 149| ≤ 2 ^ 149 ∧
      (|2 * F32.units x - 2 * F32.round x * 2 ^ 149| = 2 ^ 149 → |F32.units x| < |F32.round x * 2 ^ 149|)) ∧
    (F32.floor x * 2 ^ 149 ≤ F32.units x ∧ F32.units x < (F32.floor x + 1) * 2 ^ 149) ∧
    F32.trunc x = (if 0 ≤ F32.units x then F32.floor x else -F32.floor (F32.neg x))) ∧
  F32.round 0x40200000 = 3 ∧ F32.round 0xC0200000 = -3 ∧ F32.round 0x401FFFFF = 2

/-- R154: the result of `wrap` lies in [0, 256) and is no negative zero; a value of [0, 256) is returned, and a value from
256 up is reduced exactly. A value below 0 is reduced to the exact e = p + 256k in [0, 256), in units of 2^-149, and
rounded once: from the midpoint of the largest value below 256 (0x437FFFFF) and 256 on, e rounds to 256, which becomes
+0.0; below it, e rounds to a value nearest to it, and from the midpoint of two neighbours to the even pattern. -/
def Obligations.WrapReducesIntoTable : Prop :=
  ∀ p : F32, F32.isFinite p = true →
    phaseLegal (F32.wrap p) = true ∧ F32.sign (F32.wrap p) = false ∧
    (0 ≤ F32.units p → F32.units (F32.wrap p) = F32.units p % (256 * 2 ^ 149)) ∧
    (phaseLegal p = true → F32.units (F32.wrap p) = F32.units p) ∧
    (F32.units p < 0 → ∃ (e : Nat) (k : Int), (e : Int) = F32.units p + k * (256 * 2 ^ 149) ∧ e < 256 * 2 ^ 149 ∧
      (F32.magOf 0x437FFFFF + F32.magOf 0x43800000 ≤ 2 * e → F32.wrap p = 0) ∧
      (2 * e < F32.magOf 0x437FFFFF + F32.magOf 0x43800000 →
        ∀ z : F32, F32.isFinite z = true → |F32.units (F32.wrap p) - e| ≤ |F32.units z - e|) ∧
      (∀ b < 0x437FFFFF, 2 * e = F32.magOf b + F32.magOf (b + 1) →
        F32.wrap p = BitVec.ofNat 32 (if b % 2 = 0 then b else b + 1)))

/-- R274: NOTE_HZ(n) is the value nearest to 440·2^((n − 69)/12): the twelfth power of twice that real lies strictly
between those of the sums of the note's value with its two neighbours. -/
def Obligations.NoteFrequencyIsNearest : Prop :=
  (∀ n < 128,
    let b := (noteHz n).toNat
    b < F32.infBits ∧
    (F32.magOf (b - 1) + F32.magOf b) ^ 12 * 2 ^ 69 < (2 * (440 * 2 ^ 149)) ^ 12 * 2 ^ n ∧
    (2 * (440 * 2 ^ 149)) ^ 12 * 2 ^ n < (F32.magOf b + F32.magOf (b + 1)) ^ 12 * 2 ^ 69) ∧
  noteHz 69 = 0x43DC0000

/-! ### Envelope and oscillator -/

/-- R202: a stage whose length rounds to zero samples jumps to its target; any other starts the ramp of R180. -/
def Obligations.StartStageRampsOrJumps : Prop :=
  ∀ (ν : Nat → BitVec 32) (target d : F32) (r : Ramp),
    let n := F32.mul (ν 0) r.sampleRate d
    startStage ν target d r =
      if F32.u32 (F32.round n) = 0 then { r with current := target, increment := 0, remaining := 0 }
      else { r with increment := F32.div (ν 2) (F32.sub (ν 1) target r.current) n,
                    remaining := F32.u32 (F32.round n) }

/-- R185: the counted calls of a ramp leave its start plus that many rounded additions of the increment, and one fewer
sample each; once finished it changes nothing. -/
def Obligations.RampAddsIncrementEachCall : Prop :=
  ∀ (ν : Nat → Nat → BitVec 32) (r : Ramp) (m : Nat),
    (m ≤ r.remaining.toNat → rampSteps ν m r = { r with
      current := addedTimes ν r.increment r.current m,
      remaining := BitVec.ofNat 32 (r.remaining.toNat - m) }) ∧
    (r.remaining.toNat ≤ m → rampSteps ν m r = rampSteps ν r.remaining.toNat r ∧ (rampSteps ν m r).finished = true)

/-- R200: the transitions of the envelope. -/
def Obligations.EnvelopeTransitions : Prop :=
  ∀ (ν : Nat → BitVec 32) (e : Env),
    (e.trigger ν).stage = .attack ∧ (e.trigger ν).ramp = startStage ν e.attackLevel e.attackTime e.ramp ∧
    (e.stage = .off ∨ e.stage = .release → e.release ν = e) ∧
    (e.stage = .attack ∨ e.stage = .decay ∨ e.stage = .sustain →
      (e.release ν).stage = .release ∧ (e.release ν).ramp = startStage ν 0 e.releaseTime e.ramp) ∧
    (let r := e.ramp.process ν
     (r.finished = false → e.process ν = { e with ramp := r }) ∧
     (r.finished = true →
       e.process ν = match e.stage with
         | .attack => { e with stage := .decay, ramp := startStage ν e.sustainLevel e.decayTime r }
         | .decay => { e with stage := .sustain, ramp := r }
         | .release => { e with stage := .off, ramp := r }
         | .sustain => { e with ramp := r }
         | .off => { e with ramp := r })) ∧
    (∀ v : Voice, v.deactivate.env.stage = .off ∧ v.deactivate.env.ramp.current = 0 ∧
      v.deactivate.env.ramp.increment = 0 ∧ v.deactivate.env.ramp.remaining = 0)

/-- R314: a release of m ≥ 1 samples is in Release for m − 1 further calls, and the m-th call ends it. -/
def Obligations.ReleaseEndsAtItsLastSample : Prop :=
  ∀ (ν₀ : Nat → BitVec 32) (ν : Nat → Nat → BitVec 32) (e : Env) (m : Nat),
    (e.stage = .attack ∨ e.stage = .decay ∨ e.stage = .sustain) →
    (e.release ν₀).ramp.remaining.toNat = m → 1 ≤ m →
    (∀ j < m, (envSteps ν j (e.release ν₀)).stage = .release) ∧ (envSteps ν m (e.release ν₀)).stage = .off

/-- R155: an inactive voice gives +0.0 and is not changed. An active voice gives the interpolation between the entries below
and above its present phase, times its amplitude, and then advances the phase alone (R153). At a whole phase i0, where the
entry is not a zero, the sample is that entry times the amplitude, whatever the next entry is; for an entry of -0.0 the sign
of the result is the pseudocode's, the model's choice (log 23). -/
def Obligations.OscillatorSamples : Prop :=
  ∀ (ν : Nat → BitVec 32) (c : Config) (v : Voice),
    (v.active = false → v.nextSample ν c = (0, v)) ∧
    (v.active = true → phaseLegal v.phase = true →
      let w := match v.waveform with | .saw => 0 | .reverseSaw => 1 | .square => 2 | .sine => 3 | .triangle => 4
      let i0 := (F32.floor v.phase).toNat
      let fr := F32.sub (ν 6) v.phase (F32.ofInt i0)
      let t0 := c.wt.getD (w * 256 + i0) 0
      let t1 := c.wt.getD (w * 256 + (i0 + 1) % 256) 0
      i0 < 256 ∧
      v.nextSample ν c =
        (F32.mul (ν 10) (F32.add (ν 9) t0 (F32.mul (ν 8) fr (F32.sub (ν 7) t1 t0))) v.amplitude,
          { v with phase := F32.wrap (F32.add (ν 11) v.phase
            (F32.mul (ν 5) 0x43800000 (F32.div (ν 4) v.frequency (F32.ofInt c.sr)))) })) ∧
    (v.active = true → failingCheck c = none → ∀ i0 : Nat, i0 < 256 →
      F32.units v.phase = (i0 : Int) * 2 ^ 149 →
      F32.isFinite v.phase = true → F32.isZero (wtRead c (waveformIndex v.waveform) i0) = false →
      (v.nextSample ν c).1 = F32.mul (ν 10) (wtRead c (waveformIndex v.waveform) i0) v.amplitude)

/-! ### Filter, delay and router -/

/-- R225. -/
def Obligations.FilterStepsWhenReady : Prop :=
  ∀ (ν : Nat → BitVec 32) (x : F32) (f : Filter),
    (f.ready = false → f.process ν x = (x, f)) ∧
    (f.ready = true →
      let y := F32.sub (ν 8) (F32.sub (ν 6) (F32.add (ν 4) (F32.add (ν 2) (F32.mul (ν 0) f.b0 x)
        (F32.mul (ν 1) f.b1 f.x1)) (F32.mul (ν 3) f.b2 f.x2)) (F32.mul (ν 5) f.a1 f.y1)) (F32.mul (ν 7) f.a2 f.y2)
      f.process ν x = (y, { f with x1 := x, x2 := f.x1, y1 := y, y2 := f.y1 }))

/-- R244: the read comes before the write, both positions advance by one and wrap, and no other byte of DBUF changes. That
the sum written is the pseudocode's also for a NaN or an infinity with feedback 0, against a corner case of the rule, is
the model's choice (log 22). -/
def Obligations.DelayReadsThenWrites : Prop :=
  ∀ (ν : Nat → BitVec 32) (l : Nat) (x : F32) (d : Delay) (m : Memory), m.wf = true → d.inRange l = true →
    l ≤ 2 ^ 24 →
    let y := dbufRead d.readPos.toNat m
    let r := d.process ν l x m
    r.1 = y ∧
    dbufRead d.writePos.toNat r.2.2 = F32.add (ν 1) x (F32.mul (ν 0) d.feedback y) ∧
    (∀ a, a < 4 * d.writePos.toNat ∨ 4 * d.writePos.toNat + 4 ≤ a → r.2.2.readByte a = m.readByte a) ∧
    r.2.1.writePos.toNat = (d.writePos.toNat + 1) % l ∧ r.2.1.readPos.toNat = (d.readPos.toNat + 1) % l ∧
    r.2.1.sampleRate = d.sampleRate ∧ r.2.1.feedback = d.feedback

/-- R243: the effective delay lies in 1..L, a process call keeps it, update_delay by k samples makes it ((k − 1) mod L) + 1,
and it is L with the delay as reset and INIT leave it. -/
def Obligations.EffectiveDelayIsKept : Prop :=
  ∀ (l : Nat) (d : Delay), 1 ≤ l → l ≤ 2 ^ 24 → d.inRange l = true →
    (1 ≤ delayLen l d ∧ delayLen l d ≤ l) ∧
    (∀ (ν : Nat → BitVec 32) (x : F32) (m : Memory), delayLen l (d.process ν l x m).2.1 = delayLen l d) ∧
    (∀ (ν : Nat → BitVec 32) (t : F32) (d' : Delay), d.updateDelay ν l t = some d' →
      (delayLen l d' : Int) = (F32.round (d.product ν t) - 1) % l + 1) ∧
    (∀ c : Config, delayLen l (Delay.atReset c) = l)

/-- The delay line delays: what a call writes is what the call `delay_len` calls later reads. The sum written is the
pseudocode's (log 22). -/
def Obligations.WrittenSampleReturnsAfterDelay : Prop :=
  ∀ (ν : Nat → Nat → BitVec 32) (l : Nat) (x : Nat → F32) (d : Delay) (m : Memory),
    1 ≤ l → l ≤ 2 ^ 24 → d.inRange l = true → m.wf = true →
    let r := delayCalls ν l x (delayLen l d) (d, m)
    (r.1.process (ν (delayLen l d)) l (x (delayLen l d)) r.2).1 =
      F32.add (ν 0 1) (x 0) (F32.mul (ν 0 0) d.feedback (dbufRead d.readPos.toNat m))

/-- R264: an effect that no active slot binds is not stepped, and its state is frozen. -/
def Obligations.UnboundEffectIsFrozen : Prop :=
  ∀ (k : Nat) (x : F32) (s : State),
    (¬ binds s.slot0 .lowPass → ¬ binds s.slot1 .lowPass → (fxRender k x s).2.filter = s.filter) ∧
    (¬ binds s.slot0 .delay → ¬ binds s.slot1 .delay →
      (fxRender k x s).2.delay = s.delay ∧ (fxRender k x s).2.dbuf = s.dbuf) ∧
    (transparent s.slot0 → transparent s.slot1 → fxRender k x s = (x, s))

/-- R261, R262: slot 0 comes before slot 1, an effect bound in both slots is one instance stepped twice in series, and an
effect bound in one slot beside a transparent one steps once. -/
def Obligations.SlotsFoldInOrder : Prop :=
  ∀ (k : Nat) (x : F32) (s : State),
    (binds s.slot0 .lowPass → binds s.slot1 .delay →
      let a := s.filter.process (Config.freeNaN s.fresh k 0) x
      let b := s.delay.process (Config.freeNaN s.fresh k 1) s.cfg.l a.1 s.dbuf
      fxRender k x s = (b.1, { s with filter := a.2, delay := b.2.1, dbuf := b.2.2 })) ∧
    (binds s.slot0 .delay → binds s.slot1 .lowPass →
      let a := s.delay.process (Config.freeNaN s.fresh k 0) s.cfg.l x s.dbuf
      let b := s.filter.process (Config.freeNaN s.fresh k 1) a.1
      fxRender k x s = (b.1, { s with filter := b.2, delay := a.2.1, dbuf := a.2.2 })) ∧
    (binds s.slot0 .delay → binds s.slot1 .delay →
      let a := s.delay.process (Config.freeNaN s.fresh k 0) s.cfg.l x s.dbuf
      let b := a.2.1.process (Config.freeNaN s.fresh k 1) s.cfg.l a.1 a.2.2
      fxRender k x s = (b.1, { s with delay := b.2.1, dbuf := b.2.2 })) ∧
    (binds s.slot0 .lowPass → binds s.slot1 .lowPass →
      let a := s.filter.process (Config.freeNaN s.fresh k 0) x
      let b := a.2.process (Config.freeNaN s.fresh k 1) a.1
      fxRender k x s = (b.1, { s with filter := b.2 })) ∧
    (binds s.slot0 .lowPass → transparent s.slot1 →
      let a := s.filter.process (Config.freeNaN s.fresh k 0) x
      fxRender k x s = (a.1, { s with filter := a.2 })) ∧
    (transparent s.slot0 → binds s.slot1 .lowPass →
      let b := s.filter.process (Config.freeNaN s.fresh k 1) x
      fxRender k x s = (b.1, { s with filter := b.2 })) ∧
    (binds s.slot0 .delay → transparent s.slot1 →
      let a := s.delay.process (Config.freeNaN s.fresh k 0) s.cfg.l x s.dbuf
      fxRender k x s = (a.1, { s with delay := a.2.1, dbuf := a.2.2 })) ∧
    (transparent s.slot0 → binds s.slot1 .delay →
      let b := s.delay.process (Config.freeNaN s.fresh k 1) s.cfg.l x s.dbuf
      fxRender k x s = (b.1, { s with delay := b.2.1, dbuf := b.2.2 }))

/-! ### The render -/

/-- R315: the output conversion, in units of 2^-149: it saturates, it truncates toward zero, and a NaN is silence. The
units of an infinity are those its pattern's formula gives, ±2^128 · 2^149, so the infinities saturate. -/
def Obligations.OutputSaturatesAndTruncates : Prop :=
  ∀ (ν : Nat → BitVec 32) (oscale v : F32),
    let y := F32.mul (ν 0) v oscale
    (F32.isNaN y = true → toS16 ν oscale v = 0) ∧
    (F32.isNaN y = false → 32767 * 2 ^ 149 ≤ F32.units y → (toS16 ν oscale v).toInt = 32767) ∧
    (F32.isNaN y = false → F32.units y ≤ -32768 * 2 ^ 149 → (toS16 ν oscale v).toInt = -32768) ∧
    (F32.isNaN y = false → -32768 * 2 ^ 149 < F32.units y → F32.units y < 32767 * 2 ^ 149 →
      (toS16 ν oscale v).toInt = (F32.units y).tdiv (2 ^ 149))

/-- R311 for one voice of the mix, with R312 and R314: an inactive voice is skipped; an active one adds gain times sample,
and is deactivated after that, in the same frame, exactly when its envelope has reached Off. -/
def Obligations.VoiceIsMixedThenReclaimed : Prop :=
  ∀ (ν : Nat → BitVec 32) (c : Config) (sum : F32) (v : Voice),
    (v.active = false → v.mix ν c sum = (sum, v)) ∧
    (v.active = true →
      let e := v.env.process ν
      let r := { v with env := e }.nextSample ν c
      (v.mix ν c sum).1 = F32.add (ν 13) sum (F32.mul (ν 12) e.ramp.current r.1) ∧
      (v.mix ν c sum).2 = if e.stage = .off then deactivated r.2 else r.2)

/-- R310: a render of a half leaves every byte of OUT outside its H frames as it was: the device can go on reading the
other half. -/
def Obligations.RenderWritesOnlyItsHalf : Prop :=
  ∀ (half : Half) (s t : State), s.out.wf = true → serve half s = .next t →
    ∀ a, a < 4 * startFrame half s.cfg ∨ 4 * (startFrame half s.cfg + s.cfg.h) ≤ a →
      t.out.readByte a = s.out.readByte a

/-- R310, R311 and R320: each frame of a half takes the state that the frame before it left: the voices summed in index order
from +0.0, the sum through the effect chain, the result converted. A render leaves the voices of its last frame's mix and
the filter, delay and DBUF of its last frame's effect chain, and frame `j` holds the sample of the state before it. -/
def Obligations.HalfHoldsItsFrames : Prop :=
  ∀ (half : Half) (s t : State), s.out.wf = true → serve half s = .next t →
    let start := startFrame half s.cfg
    let last := beforeFrame s start s.cfg.h
    t.voices = last.voices ∧ t.filter = last.filter ∧ t.delay = last.delay ∧ t.dbuf = last.dbuf ∧
    ∀ j < s.cfg.h,
      outRead (2 * (start + j)) t.out =
        toS16 (Config.freeNaN s.fresh (start + j) 2) s.cfg.oscale (frameOf (beforeFrame s start j) (start + j)).1

/-- R316 and R64: every frame of a rendered half carries one value in both channels, each stored little-endian, left at
byte address 4k and right at 4k + 2; and an element of DBUF is little-endian at byte address 4i. -/
def Obligations.BothChannelsCarryOneValue : Prop :=
  (∀ (half : Half) (s t : State), s.out.wf = true → serve half s = .next t →
    ∀ k, startFrame half s.cfg ≤ k → k < startFrame half s.cfg + s.cfg.h →
      let o := outRead (2 * k) t.out
      outRead (2 * k + 1) t.out = o ∧
      t.out.readByte (4 * k) = lowByte o ∧ t.out.readByte (4 * k + 1) = highByte o ∧
      t.out.readByte (4 * k + 2) = lowByte o ∧ t.out.readByte (4 * k + 3) = highByte o) ∧
  (∀ (ν : Nat → BitVec 32) (l : Nat) (x : F32) (d : Delay) (m : Memory), m.wf = true →
    let y := dbufRead d.readPos.toNat m
    let r := d.process ν l x m
    ∀ j < 4,
      m.readByte (4 * d.readPos.toNat + j) = y.extractLsb' (8 * j) 8 ∧
      r.2.2.readByte (4 * d.writePos.toNat + j) =
        (F32.add (ν 1) x (F32.mul (ν 0) d.feedback y)).extractLsb' (8 * j) 8)

/-- R320 and R317: a render changes no parameter of a voice, no parameter of an effect, no slot, no lifecycle, mask or
response register, and no input; and it answers a next state whenever the delay positions lie in DBUF. -/
def Obligations.RenderFrame : Prop :=
  ∀ (half : Half) (s : State), s.delay.inRange s.cfg.l = true →
    ∃ t, serve half s = .next t ∧
      t.cfg = s.cfg ∧ List.Forall₂ sameParameters s.voices t.voices ∧
      t.filter.cutoff = s.filter.cutoff ∧ t.filter.q = s.filter.q ∧ t.filter.ready = s.filter.ready ∧
      t.filter.sampleRate = s.filter.sampleRate ∧ t.filter.a1 = s.filter.a1 ∧ t.filter.a2 = s.filter.a2 ∧
      t.filter.b0 = s.filter.b0 ∧ t.filter.b1 = s.filter.b1 ∧ t.filter.b2 = s.filter.b2 ∧
      t.delay.sampleRate = s.delay.sampleRate ∧ t.delay.feedback = s.delay.feedback ∧
      t.slot0 = s.slot0 ∧ t.slot1 = s.slot1 ∧ t.lc = s.lc ∧ t.rmask = s.rmask ∧
      t.rsp0 = s.rsp0 ∧ t.rsp1 = s.rsp1 ∧ t.rsp2 = s.rsp2 ∧
      t.inProgress = s.inProgress ∧ t.cmdIn = s.cmdIn ∧ t.evIn = s.evIn ∧ t.fresh = s.fresh ∧
      t.pendHalf = (s.pendHalf && decide (half = .second)) ∧ t.pendFull = (s.pendFull && decide (half = .first))

/-- R319: with no voice active and every slot transparent, every frame of the half is 0 in both channels. -/
def Obligations.SilenceRendersZero : Prop :=
  ∀ (half : Half) (s t : State), s.out.wf = true → F32.isFinite s.cfg.oscale = true →
    (∀ v ∈ s.voices, v.active = false) → transparent s.slot0 → transparent s.slot1 → serve half s = .next t →
    ∀ k, startFrame half s.cfg ≤ k → k < startFrame half s.cfg + s.cfg.h →
      outRead (2 * k) t.out = 0 ∧ outRead (2 * k + 1) t.out = 0

/-- R317: a render "does not read or write RMASK and does not write the response registers"; R310 and R311 read no response
register. So a render that is served just before a response is written (R270, under the guard of R343) leaves the same state
as one served just after. -/
def Obligations.RenderCommutesWithResponse : Prop :=
  ∀ (half : Half) (s t : State) (r0 r1 r2 : Word), serve half s = .next t →
    serve half (respond r0 r1 r2 s) = .next (respond r0 r1 r2 t)

/-! ### The whole machine -/

/-- R380: every piece of state after reset, under any configuration; a render event changes nothing then, and a block whose
configuration is legal waits for its first command or event. That the waiting is a step is the model's choice (log 13). -/
def Obligations.ResetValues : Prop :=
  ∀ c : Config, let s := State.resetWith c
    (s.cfg = c ∧ s.voices.length = c.nv ∧
      ∀ v ∈ s.voices, v.active = false ∧ v.waveform = .saw ∧ v.frequency = 0 ∧ v.phase = 0 ∧ v.amplitude = 0x3F800000 ∧
        v.env.stage = .off ∧ v.env.attackTime = c.env.attackTime ∧ v.env.decayTime = c.env.decayTime ∧
        v.env.releaseTime = c.env.releaseTime ∧ v.env.attackLevel = c.env.attackLevel ∧
        v.env.sustainLevel =
          (if F32.lt c.env.attackLevel c.env.sustainLevel then c.env.attackLevel else c.env.sustainLevel) ∧
        v.env.ramp = { current := 0, increment := 0, remaining := 0, sampleRate := F32.ofInt c.sr }) ∧
    (s.filter.a1 = 0 ∧ s.filter.a2 = 0 ∧ s.filter.b0 = 0 ∧ s.filter.b1 = 0 ∧ s.filter.b2 = 0 ∧ s.filter.x1 = 0 ∧
      s.filter.x2 = 0 ∧ s.filter.y1 = 0 ∧ s.filter.y2 = 0 ∧ s.filter.sampleRate = F32.ofInt c.sr ∧
      s.filter.cutoff = 0 ∧ s.filter.q = 0 ∧ s.filter.ready = false) ∧
    ((∀ j < c.l, dbufRead j s.dbuf = 0) ∧ s.delay.writePos = 0 ∧ s.delay.readPos = 0 ∧
      s.delay.sampleRate = F32.ofInt c.sr ∧ s.delay.feedback = 0) ∧
    (s.slot0 = { effect := .none, active := false } ∧ s.slot1 = { effect := .none, active := false }) ∧
    (∀ j < 4 * c.h, outRead j s.out = 0) ∧
    (s.lc = .reset ∧ s.rmask = false ∧ s.pendHalf = false ∧ s.pendFull = false ∧
      s.rsp0 = 0 ∧ s.rsp1 = 0 ∧ s.rsp2 = 0) ∧
    (exec .evHalf s = .next s ∧ exec .evFull s = .next s ∧ (failingCheck c = none → step s = .next (begun s)))

/-- The reset state under a legal configuration meets the invariant. -/
def Obligations.ResetMeetsInvariant : Prop := ∀ c : Config, failingCheck c = none → (State.resetWith c).Inv

/-- HEADLINE: from every state that meets the invariant, a step answers a next state that meets it: no step is stuck, every
register keeps a legal value, both memories stay canonical and in bounds. -/
def Obligations.StepKeepsInvariant : Prop := ∀ s : State, s.Inv → ∃ t, step s = .next t ∧ t.Inv

/-- From every state that meets the invariant, no run stops (U26). -/
def Obligations.EveryRunIsSafe : Prop := ∀ s : State, s.Inv → s.SafeRun

/-- R40: LC is RESET after reset, and "Only INIT and DEINIT write it": a step that changes LC runs one of the two, INIT to
RUNNING and DEINIT to STOPPED. -/
def Obligations.OnlyInitAndDeinitChangeLifecycle : Prop :=
  (∀ c : Config, (State.resetWith c).lc = .reset) ∧
  ∀ s t : State, step s = .next t → t.lc ≠ s.lc →
    ∃ u, (nextMove s = .run .init u ∧ t.lc = .running) ∨ (nextMove s = .run .deinit u ∧ t.lc = .stopped)

/-- The configuration is never written (R30), and each control register of R44 is written only by INIT and by the command
its row names: CR0 to CR2, CR4, CR5 and CR7, CR6 and CR8; CR9, in each of its three registers (the filter's, the delay's
and every voice's ramp's), by INIT alone. CR3, the read position, also moves with every call of the delay (R244): what
UPDATE_DELAY alone sets is the delay length it is read back as. -/
def Obligations.ControlFieldsChangeOnlyByTheirCommand : Prop :=
  ∀ s t : State, step s = .next t →
    t.cfg = s.cfg ∧
    (∀ n ∈ [0, 1, 2], t.controlRegister n ≠ s.controlRegister n →
      ∃ u, nextMove s = .run .init u ∨ ∃ c q, nextMove s = .run (.updateFilter c q) u) ∧
    (1 ≤ s.cfg.l → s.cfg.l ≤ 2 ^ 24 → s.delay.inRange s.cfg.l = true →
      delayLen t.cfg.l t.delay ≠ delayLen s.cfg.l s.delay →
      ∃ u, nextMove s = .run .init u ∨ ∃ d fb, nextMove s = .run (.updateDelay d fb) u) ∧
    (t.controlRegister 4 ≠ s.controlRegister 4 →
      ∃ u, nextMove s = .run .init u ∨ ∃ d fb, nextMove s = .run (.updateDelay d fb) u) ∧
    (∀ n ∈ [5, 7], t.controlRegister n ≠ s.controlRegister n →
      ∃ u, nextMove s = .run .init u ∨ ∃ slot e, nextMove s = .run (.effectSetSlot slot e) u) ∧
    (∀ n ∈ [6, 8], t.controlRegister n ≠ s.controlRegister n →
      ∃ u, nextMove s = .run .init u ∨ ∃ slot a, nextMove s = .run (.effectActivateSlot slot a) u) ∧
    (t.controlRegister 9 ≠ s.controlRegister 9 ∨ t.delay.sampleRate ≠ s.delay.sampleRate ∨
      t.voices.map (fun v => v.env.ramp.sampleRate) ≠ s.voices.map (fun v => v.env.ramp.sampleRate) →
      ∃ u, nextMove s = .run .init u)

/-- R392: under ASSUMED_DEADLINE, from a state with at most one pending bit, the two are never set at once. -/
def Obligations.DeadlineKeepsOneRenderPending : Prop :=
  ∀ s : State, ASSUMED_DEADLINE s → (s.pendHalf && s.pendFull) = false →
    ∀ n t, State.after n s = .next t → (t.pendHalf && t.pendFull) = false

/-- R311: the mix is a fold over the voices in index order from +0.0: voice `i` is mixed with the sum of voices 0 to i − 1,
every voice is mixed once, and the sum of all is the result. -/
def Obligations.VoicesAreFoldedInOrder : Prop :=
  ∀ (ν : Nat → Nat → BitVec 32) (c : Config) (vs : List Voice),
    let r := mixVoices ν c 0 0 vs
    r.1 = sumBefore ν c vs vs.length ∧ r.2.length = vs.length ∧
    ∀ (i : Nat) (v : Voice), vs[i]? = some v → r.2[i]? = some (v.mix (ν (3 + i)) c (sumBefore ν c vs i)).2

/-- R270, R384: the response registers change only in a step that ends a command; along a run every packet taken off the
port is given exactly one response, the command in progress at the end excepted; and a run that ends has its last
response in the response registers. -/
def Obligations.EveryCommandIsAnsweredOnce : Prop :=
  (∀ s t : State, step s = .next t →
    (t.response ≠ s.response → s.endsCommand t = true) ∧ (s.endsCommand t = true → t.inProgress = none)) ∧
  (∀ (n : Nat) (s t : State), State.after n s = .next t →
    ∃ taken : List Packet, s.cmdIn = taken ++ t.cmdIn ∧
      (State.responses n s).length + (if t.inProgress.isSome then 1 else 0) =
        taken.length + (if s.inProgress.isSome then 1 else 0)) ∧
  (∀ (n : Nat) (s : State) (r : RunResult), State.runResult n s = some r →
    State.after n s = .next r.state ∧ r.state.inProgress = none ∧ r.state.noPending = true ∧
    (r.responses.getLast?).getD s.response = r.state.response)
end

