-- ==== Sys2Proof/Laws/Encoding.lean ====
section
/-! SUPPORT. The fields of a packed word, and the opcode map read both ways. -/

namespace Sys2Proof

/-- A bit of W0, in terms of the field that holds it. -/
theorem getLsbD_packFields (op : Op) (fs : Fields) (i : Nat) :
    (packFields op fs).w0.getLsbD i =
      if i < 8 then (opCode op).getLsbD i
      else if i < 16 then fs.idx.getLsbD (i - 8)
      else if i < 24 then fs.a.getLsbD (i - 16)
      else if i < 31 then fs.b.getLsbD (i - 24)
      else (BitVec.ofBool fs.f).getLsbD (i - 31) := by
  have h : (packFields op fs).w0 = (BitVec.ofBool fs.f ++ fs.b ++ fs.a ++ fs.idx ++ opCode op : BitVec (1 + 7 + 8 + 8 + 8)) :=
    rfl
  rw [h]
  change BitVec.getLsbD (BitVec.ofBool fs.f ++ fs.b ++ fs.a ++ fs.idx ++ opCode op : BitVec (1 + 7 + 8 + 8 + 8)) i = _
  simp only [BitVec.getLsbD_append]
  by_cases h1 : i < 8
  · simp [h1]
  by_cases h2 : i < 16
  · simp [h1, h2, show i - 8 < 8 by omega]
  by_cases h3 : i < 24
  · simp [h1, h2, h3, show ¬ i - 8 < 8 by omega, show i - 16 < 8 by omega, show i - 8 - 8 = i - 16 by omega]
  by_cases h4 : i < 31
  · simp [h1, h2, h3, h4, show ¬ i - 8 < 8 by omega, show ¬ i - 16 < 8 by omega, show i - 24 < 7 by omega,
      show i - 8 - 8 = i - 16 by omega, show i - 16 - 8 = i - 24 by omega]
  · simp [h1, h2, h3, h4, show ¬ i - 8 < 8 by omega, show ¬ i - 8 - 8 < 8 by omega, show ¬ i - 8 - 8 - 8 < 7 by omega,
      show i - 8 - 8 - 8 - 7 = i - 31 by omega]

/-- W0[7:0] of a packed word. -/
theorem op_packFields (op : Op) (fs : Fields) : (packFields op fs).op = opCode op := by
  apply BitVec.eq_of_getLsbD_eq
  intro i hi
  simp only [Packet.op, BitVec.getLsbD_extractLsb', getLsbD_packFields]
  simp [hi]

/-- The other fields of a packed word. -/
theorem fields_packFields (op : Op) (fs : Fields) : (packFields op fs).fields = fs := by
  obtain ⟨idx, a, b, f, x, y⟩ := fs
  have hidx : (packFields op ⟨idx, a, b, f, x, y⟩).w0.extractLsb' 8 8 = idx := by
    apply BitVec.eq_of_getLsbD_eq
    intro i hi
    simp only [BitVec.getLsbD_extractLsb', getLsbD_packFields]
    simp [hi, show 8 + i < 16 by omega]
  have ha : (packFields op ⟨idx, a, b, f, x, y⟩).w0.extractLsb' 16 8 = a := by
    apply BitVec.eq_of_getLsbD_eq
    intro i hi
    simp only [BitVec.getLsbD_extractLsb', getLsbD_packFields]
    simp [hi, show ¬ 16 + i < 8 by omega, show 16 + i < 24 by omega]
  have hb : (packFields op ⟨idx, a, b, f, x, y⟩).w0.extractLsb' 24 7 = b := by
    apply BitVec.eq_of_getLsbD_eq
    intro i hi
    simp only [BitVec.getLsbD_extractLsb', getLsbD_packFields]
    simp [hi, show ¬ 24 + i < 8 by omega, show ¬ 24 + i < 16 by omega, show 24 + i < 31 by omega]
  have hf : (packFields op ⟨idx, a, b, f, x, y⟩).w0.getLsbD 31 = f := by
    rw [getLsbD_packFields]
    cases f <;> simp
  simp only [Packet.fields, hidx, ha, hb, hf]
  rfl

/-- Packing the fields of a packet with its OP gives the packet back. -/
theorem packFields_fields (p : Packet) (op : Op) (h : opCode op = p.op) : packFields op p.fields = p := by
  have h0 : (packFields op p.fields).w0 = p.w0 := by
    apply BitVec.eq_of_getLsbD_eq
    intro i hi
    rw [getLsbD_packFields, h]
    simp only [Packet.op, Packet.fields, BitVec.getLsbD_extractLsb', BitVec.getLsbD_ofBool]
    split_ifs with h1 h2 h3 h4
    · simp [h1]
    · simp [show i - 8 < 8 by omega, show 8 + (i - 8) = i by omega]
    · simp [show i - 16 < 8 by omega, show 16 + (i - 16) = i by omega]
    · simp [show i - 24 < 7 by omega, show 24 + (i - 24) = i by omega]
    · have : i = 31 := by omega
      subst this
      simp
  have hp : packFields op p.fields = ⟨(packFields op p.fields).w0, p.w1, p.w2⟩ := rfl
  rw [hp, h0]

/-- The opcode map read both ways. -/
theorem opOfCode_opCode (op : Op) : opOfCode (opCode op) = some op := by cases op <;> decide

theorem opCode_of_opOfCode {c : BitVec 8} {op : Op} (h : opOfCode c = some op) : opCode op = c := by
  have all : ∀ n : Fin 256, (opOfCode (BitVec.ofFin n)).all (fun o => decide (opCode o = BitVec.ofFin n)) = true := by
    decide +kernel
  have hc := all c.toFin
  rw [show BitVec.ofFin c.toFin = c from rfl, h] at hc
  simpa using hc

/-- A packet decodes when its OP is in the map and its reserved fields are zero, and not otherwise. -/
theorem decodePacket_eq_ok {p : Packet} {i : Instr} (h : decodePacket p = .ok i) :
    ∃ op, opCode op = p.op ∧ reservedClear op p.fields = true ∧ instrOf op p.fields = i := by
  unfold decodePacket at h
  split at h
  · cases h
  · rename_i op hop
    split_ifs at h with hr
    exact ⟨op, opCode_of_opOfCode hop, hr, by simpa using h⟩

/-- The command port carries commands, and the event input events (R100). -/
theorem isEvent_of_decodePacket {p : Packet} {i : Instr} (h : decodePacket p = .ok i) : i.isEvent = false := by
  obtain ⟨op, -, -, rfl⟩ := decodePacket_eq_ok h
  cases op <;> rfl

theorem isEvent_of_decodeEvent {ev : BitVec 2} {i : Instr} (h : decodeEvent ev = .ok i) : i.isEvent = true := by
  unfold decodeEvent at h
  split_ifs at h <;> (injection h with h; subst h; rfl)

end Sys2Proof
end

