-- ==== Sys2Proof/Laws/F32.lean ====
section
/-! SUPPORT. What rounding does: `magOf` is strictly monotone, and `roundBits` picks one of the two neighbouring patterns
by the distance to them, ties to the even one (R9). -/

namespace Sys2Proof.F32

/-- The magnitude of the pattern with last-place exponent `e` and significand `k`. -/
theorem magOf_scaled (e k : Nat) (hk : k ≤ 2 ^ 24) (h : e = 0 ∨ 2 ^ 23 ≤ k) : magOf (e * 2 ^ 23 + k) = k * 2 ^ e := by
  unfold magOf
  rcases Nat.lt_or_ge k (2 ^ 24) with hlt | hge
  · by_cases hsmall : e * 2 ^ 23 + k < 2 ^ 23
    · have he : e = 0 := by omega
      subst he
      simp_all
    · rw [if_neg hsmall]
      have hk23 : 2 ^ 23 ≤ k := by
        rcases h with rfl | h
        · omega
        · exact h
      have h1 : (e * 2 ^ 23 + k) % 2 ^ 23 = k - 2 ^ 23 := by omega
      have h2 : (e * 2 ^ 23 + k) / 2 ^ 23 = e + 1 := by omega
      rw [h1, h2, show 2 ^ 23 + (k - 2 ^ 23) = k by omega, Nat.add_sub_cancel]
  · have hk' : k = 2 ^ 24 := by omega
    subst hk'
    rw [if_neg (by omega)]
    have h1 : (e * 2 ^ 23 + 2 ^ 24) % 2 ^ 23 = 0 := by omega
    have h2 : (e * 2 ^ 23 + 2 ^ 24) / 2 ^ 23 = e + 2 := by omega
    rw [h1, h2, show e + 2 - 1 = e + 1 from rfl, pow_succ]
    ring

/-- Every pattern is a significand scaled by the exponent of its last place. -/
theorem exists_scaled (b : Nat) : ∃ e k, b = e * 2 ^ 23 + k ∧ k < 2 ^ 24 ∧ (e = 0 ∨ 2 ^ 23 ≤ k) := by
  by_cases h : b < 2 ^ 23
  · exact ⟨0, b, by omega, by omega, Or.inl rfl⟩
  · exact ⟨b / 2 ^ 23 - 1, b % 2 ^ 23 + 2 ^ 23, by omega, by omega, Or.inr (by omega)⟩

theorem magOf_lt_succ (b : Nat) : magOf b < magOf (b + 1) := by
  obtain ⟨e, k, rfl, hk, h⟩ := exists_scaled b
  rw [magOf_scaled e k (by omega) h, add_assoc, magOf_scaled e (k + 1) (by omega) (by omega)]
  exact Nat.mul_lt_mul_of_pos_right (Nat.lt_succ_self k) (by positivity)

theorem magOf_strictMono : StrictMono magOf := strictMono_nat_of_lt_succ magOf_lt_succ

theorem magOf_le_iff {a b : Nat} : magOf a ≤ magOf b ↔ a ≤ b := magOf_strictMono.le_iff_le

theorem magOf_lt_iff {a b : Nat} : magOf a < magOf b ↔ a < b := magOf_strictMono.lt_iff_lt

@[simp] theorem magOf_zero : magOf 0 = 0 := rfl

/-- Is `n / d` nearer to the pattern above `b` than to `b`, or half way with `b` odd? -/
def roundsUp (b n d : Nat) : Prop :=
  (magOf (b + 1) - magOf b) * d < 2 * (n - magOf b * d) ∨
    (2 * (n - magOf b * d) = (magOf (b + 1) - magOf b) * d ∧ b % 2 = 1)

/-- What `roundBits` does: `b` is the pattern at or below `n / d`, and the result is `b` or its successor. -/
theorem roundBits_spec (n d : Nat) (hd : 0 < d) :
    ∃ b, magOf b * d ≤ n ∧ n < magOf (b + 1) * d ∧
      ((roundsUp b n d ∧ roundBits n d = min (b + 1) infBits) ∨
        (¬ roundsUp b n d ∧ roundBits n d = min b infBits)) := by
  set q := n / d with hq
  set e := Nat.log2 q - 23 with he
  set ulp := d * 2 ^ e with hulp
  set k := n / ulp with hk
  set r := n % ulp with hr
  have hp : 0 < 2 ^ e := by positivity
  have hulp0 : 0 < ulp := Nat.mul_pos hd hp
  have hkq : k = q / 2 ^ e := by rw [hk, hq, hulp, Nat.div_div_eq_div_mul]
  have hkb : k < 2 ^ 24 ∧ (e = 0 ∨ 2 ^ 23 ≤ k) := by
    by_cases hsmall : Nat.log2 q ≤ 23
    · have he0 : e = 0 := by omega
      have hlt : q < 2 ^ 24 := by
        have := Nat.lt_log2_self (n := q)
        exact lt_of_lt_of_le this (Nat.pow_le_pow_right (by norm_num) (by omega))
      rw [hkq, he0]
      simpa using hlt
    · have hq0 : q ≠ 0 := by
        intro h
        rw [h] at hsmall
        exact hsmall (by decide)
      have h1 : 2 ^ (Nat.log2 q) ≤ q := Nat.log2_self_le hq0
      have h2 : q < 2 ^ (Nat.log2 q + 1) := Nat.lt_log2_self
      have h3 : Nat.log2 q = e + 23 := by omega
      rw [h3] at h1 h2
      constructor
      · rw [hkq, Nat.div_lt_iff_lt_mul hp, ← pow_add]
        calc q < 2 ^ (e + 23 + 1) := h2
          _ = 2 ^ (24 + e) := by ring_nf
      · right
        rw [hkq, Nat.le_div_iff_mul_le hp, ← pow_add]
        calc 2 ^ (23 + e) = 2 ^ (e + 23) := by ring_nf
          _ ≤ q := h1
  obtain ⟨hk24, hnorm⟩ := hkb
  have hm : magOf (e * 2 ^ 23 + k) = k * 2 ^ e := magOf_scaled e k (by omega) hnorm
  have hm1 : magOf (e * 2 ^ 23 + k + 1) = (k + 1) * 2 ^ e := by
    rw [add_assoc]
    exact magOf_scaled e (k + 1) (by omega) (by omega)
  have hn : n = k * ulp + r := by rw [hk, hr]; exact (Nat.div_add_mod' n ulp).symm
  have hrlt : r < ulp := Nat.mod_lt _ hulp0
  have hk2 : k * 2 ^ e * d = k * ulp := by rw [hulp]; ring
  have hk3 : (k + 1) * 2 ^ e * d = k * ulp + ulp := by rw [hulp]; ring
  refine ⟨e * 2 ^ 23 + k, ?_, ?_, ?_⟩
  · rw [hm, hk2]; omega
  · rw [hm1, hk3]; omega
  · have hgap : (magOf (e * 2 ^ 23 + k + 1) - magOf (e * 2 ^ 23 + k)) * d = ulp := by
      rw [Nat.sub_mul, hm, hm1, hk2, hk3]; omega
    have hrest : n - magOf (e * 2 ^ 23 + k) * d = r := by rw [hm, hk2]; omega
    have hpar : (e * 2 ^ 23 + k) % 2 = k % 2 := by omega
    have hup : roundsUp (e * 2 ^ 23 + k) n d ↔ (ulp < 2 * r ∨ (2 * r = ulp ∧ k % 2 = 1)) := by
      unfold roundsUp
      rw [hgap, hrest, hpar]
    have hdef : roundBits n d =
        min (e * 2 ^ 23 + if ulp < 2 * r ∨ (2 * r = ulp ∧ k % 2 = 1) then k + 1 else k) infBits := rfl
    by_cases h : ulp < 2 * r ∨ (2 * r = ulp ∧ k % 2 = 1)
    · left
      refine ⟨hup.mpr h, ?_⟩
      rw [hdef, if_pos h, add_assoc]
    · right
      exact ⟨fun h' => h (hup.mp h'), by rw [hdef, if_neg h]⟩

theorem roundBits_le_inf (n d : Nat) : roundBits n d ≤ infBits := Nat.min_le_right _ _

/-- A representable fraction is returned as it is. -/
theorem roundBits_exact (b d : Nat) (hd : 0 < d) : roundBits (magOf b * d) d = min b infBits := by
  obtain ⟨c, h1, h2, h3⟩ := roundBits_spec (magOf b * d) d hd
  have hc1 : c ≤ b := magOf_le_iff.mp (Nat.le_of_mul_le_mul_right h1 hd)
  have hc2 : b < c + 1 := magOf_lt_iff.mp (Nat.lt_of_mul_lt_mul_right h2)
  have hcb : c = b := by omega
  subst hcb
  have hno : ¬ roundsUp c (magOf c * d) d := by
    unfold roundsUp
    have hpos : 0 < (magOf (c + 1) - magOf c) * d := Nat.mul_pos (by have := magOf_lt_succ c; omega) hd
    omega
  rcases h3 with ⟨h, _⟩ | ⟨_, h⟩
  · exact absurd h hno
  · exact h

/-- Rounding is monotone in the fraction. -/
theorem roundBits_mono {n d n' d' : Nat} (hd : 0 < d) (hd' : 0 < d') (h : n * d' ≤ n' * d) :
    roundBits n d ≤ roundBits n' d' := by
  obtain ⟨b, h1, h2, h3⟩ := roundBits_spec n d hd
  obtain ⟨b', h1', h2', h3'⟩ := roundBits_spec n' d' hd'
  have hle : b ≤ b' := by
    have : magOf b < magOf (b' + 1) := by
      have hlt : magOf b * d * d' < magOf (b' + 1) * d' * d := by
        calc magOf b * d * d' ≤ n * d' := Nat.mul_le_mul_right _ h1
          _ ≤ n' * d := h
          _ < magOf (b' + 1) * d' * d := Nat.mul_lt_mul_of_pos_right h2' hd
      have hlt' : magOf b * (d * d') < magOf (b' + 1) * (d * d') := by
        calc magOf b * (d * d') = magOf b * d * d' := by ring
          _ < magOf (b' + 1) * d' * d := hlt
          _ = magOf (b' + 1) * (d * d') := by ring
      exact Nat.lt_of_mul_lt_mul_right hlt'
    have := magOf_lt_iff.mp this
    omega
  generalize infBits = top at h3 h3'
  rcases Nat.lt_or_ge b b' with hlt | hge
  · have u : roundBits n d ≤ min (b + 1) top := by
      rcases h3 with ⟨_, h⟩ | ⟨_, h⟩
      · rw [h]
      · rw [h]; omega
    have l : min b' top ≤ roundBits n' d' := by
      rcases h3' with ⟨_, h⟩ | ⟨_, h⟩
      · rw [h]; omega
      · rw [h]
    omega
  · have hbb : b = b' := by omega
    subst hbb
    have himp : roundsUp b n d → roundsUp b n' d' := by
      unfold roundsUp
      generalize magOf (b + 1) - magOf b = g
      generalize magOf b = m at *
      intro hup
      have key : (n - m * d) * d' ≤ (n' - m * d') * d := by
        rw [Nat.sub_mul, Nat.sub_mul]
        have : m * d * d' = m * d' * d := by ring
        omega
      rcases hup with hup | ⟨hup, hodd⟩
      · left
        have h4 : g * d * d' < 2 * (n - m * d) * d' := Nat.mul_lt_mul_of_pos_right hup hd'
        have h5 : g * d' * d < 2 * (n' - m * d') * d := by
          calc g * d' * d = g * d * d' := by ring
            _ < 2 * (n - m * d) * d' := h4
            _ = 2 * ((n - m * d) * d') := by ring
            _ ≤ 2 * ((n' - m * d') * d) := Nat.mul_le_mul_left _ key
            _ = 2 * (n' - m * d') * d := by ring
        exact Nat.lt_of_mul_lt_mul_right h5
      · have h5 : g * d' * d ≤ 2 * (n' - m * d') * d := by
          calc g * d' * d = g * d * d' := by ring
            _ = 2 * (n - m * d) * d' := by rw [hup]
            _ = 2 * ((n - m * d) * d') := by ring
            _ ≤ 2 * ((n' - m * d') * d) := Nat.mul_le_mul_left _ key
            _ = 2 * (n' - m * d') * d := by ring
        have h6 : g * d' ≤ 2 * (n' - m * d') := Nat.le_of_mul_le_mul_right h5 hd
        rcases Nat.lt_or_ge (g * d') (2 * (n' - m * d')) with h7 | h7
        · exact Or.inl h7
        · exact Or.inr ⟨by omega, hodd⟩
    rcases h3 with ⟨u, h⟩ | ⟨_, h⟩ <;> rcases h3' with ⟨u', h'⟩ | ⟨u', h'⟩ <;> rw [h, h']
    · exact absurd (himp u) u'
    · omega

/-- A fraction at most the magnitude of `b` rounds to at most `b`. -/
theorem roundBits_le_of_le {n d b : Nat} (hd : 0 < d) (h : n ≤ magOf b * d) : roundBits n d ≤ b := by
  have h1 := roundBits_mono hd hd (n := n) (n' := magOf b * d) (Nat.mul_le_mul_right d h)
  rw [roundBits_exact b d hd] at h1
  omega

/-- A fraction at least the magnitude of `b` rounds to at least `b`. -/
theorem le_roundBits_of_le {n d b : Nat} (hd : 0 < d) (hb : b ≤ infBits) (h : magOf b * d ≤ n) : b ≤ roundBits n d := by
  have h1 := roundBits_mono hd hd (n := magOf b * d) (n' := n) (Nat.mul_le_mul_right d h)
  rw [roundBits_exact b d hd] at h1
  omega

/-- The fields of a packed pattern. -/
theorem toNat_pack (s : Bool) (b : Nat) (hb : b < 2 ^ 31) : (pack s b).toNat = (if s then 2 ^ 31 else 0) + b := by
  unfold pack
  rw [BitVec.toNat_ofNat]
  apply Nat.mod_eq_of_lt
  split <;> omega

@[simp] theorem magBits_pack (s : Bool) (b : Nat) (hb : b < 2 ^ 31) : magBits (pack s b) = b := by
  unfold magBits
  rw [toNat_pack s b hb]
  split <;> omega

@[simp] theorem sign_pack (s : Bool) (b : Nat) (hb : b < 2 ^ 31) : sign (pack s b) = s := by
  unfold sign
  rw [BitVec.msb_eq_decide, toNat_pack s b hb]
  cases s
  · simp; omega
  · simp

theorem magBits_lt (x : F32) : magBits x < 2 ^ 31 := Nat.mod_lt _ (by norm_num)

/-- A pattern is its sign and its exponent and fraction fields. -/
theorem pack_sign_magBits (x : F32) : pack (sign x) (magBits x) = x := by
  apply BitVec.eq_of_toNat_eq
  rw [toNat_pack _ _ (magBits_lt x)]
  unfold sign magBits
  rw [BitVec.msb_eq_decide]
  have := x.isLt
  by_cases h : 2 ^ (32 - 1) ≤ x.toNat
  · rw [decide_eq_true h, if_pos rfl]; omega
  · rw [decide_eq_false h, if_neg (by simp)]; omega

/-- A NaN result is a NaN. -/
@[simp] theorem isNaN_nanOf (n : BitVec 32) : isNaN (nanOf n) = true := by
  unfold isNaN nanOf
  have h : max 1 (n.toNat % 2 ^ 23) < 2 ^ 23 := by
    have := Nat.mod_lt n.toNat (show 0 < 2 ^ 23 by norm_num)
    omega
  rw [magBits_pack _ _ (by unfold infBits; omega)]
  simp

/-- Every NaN pattern is a NaN result for some encoding: the free value leaves none out (log 2). -/
theorem nanOf_self (x : F32) (h : isNaN x = true) : nanOf x = x := by
  unfold isNaN at h
  have h' : infBits < magBits x := of_decide_eq_true h
  have hlt := magBits_lt x
  have hm : x.toNat % 2 ^ 23 = magBits x - infBits := by
    unfold magBits infBits at *
    omega
  unfold nanOf
  rw [hm]
  have : infBits + max 1 (magBits x - infBits) = magBits x := by omega
  rw [this]
  exact pack_sign_magBits x

theorem isFinite_iff (x : F32) : isFinite x = true ↔ magBits x < infBits := by simp [isFinite]

theorem isFinite_not_nan {x : F32} (h : isFinite x = true) : isNaN x = false := by
  simp only [isFinite, isNaN, decide_eq_true_eq, decide_eq_false_iff_not] at *
  omega

theorem isFinite_not_inf {x : F32} (h : isFinite x = true) : isInf x = false := by
  simp only [isFinite, isInf, decide_eq_true_eq, decide_eq_false_iff_not] at *
  omega

theorem isFinite_pack (s : Bool) {b : Nat} (h : b < infBits) : isFinite (pack s b) = true := by
  rw [isFinite_iff, magBits_pack _ _ (by unfold infBits at h; omega)]
  exact h

/-- The sum of two finite values. -/
theorem add_finite (nan : BitVec 32) {x y : F32} (hx : isFinite x = true) (hy : isFinite y = true) :
    add nan x y = if units x + units y = 0 then pack (sign x && sign y) 0
      else pack (decide (units x + units y < 0)) (roundBits (units x + units y).natAbs 1) := by
  simp [add, isFinite_not_nan hx, isFinite_not_nan hy, isFinite_not_inf hx, isFinite_not_inf hy]

/-- The product of two finite values. -/
theorem mul_finite (nan : BitVec 32) {x y : F32} (hx : isFinite x = true) (hy : isFinite y = true) :
    mul nan x y = pack (sign x != sign y) (roundBits (mag x * mag y) one) := by
  simp [mul, isFinite_not_nan hx, isFinite_not_nan hy, isFinite_not_inf hx, isFinite_not_inf hy]

/-- The quotient of a finite value by a finite value that is not zero. -/
theorem div_finite (nan : BitVec 32) {x y : F32} (hx : isFinite x = true) (hy : isFinite y = true)
    (h0 : isZero y = false) : div nan x y = pack (sign x != sign y) (roundBits (mag x * one) (mag y)) := by
  simp [div, isFinite_not_nan hx, isFinite_not_nan hy, isFinite_not_inf hx, isFinite_not_inf hy, h0]

theorem key_finite {x : F32} (h : isFinite x = true) : key x = some (units x) := by
  simp [key, isFinite_not_nan h]

theorem le_finite {x y : F32} (hx : isFinite x = true) (hy : isFinite y = true) :
    le x y = decide (units x ≤ units y) := by
  simp [le, cmp, key_finite hx, key_finite hy]

theorem lt_finite {x y : F32} (hx : isFinite x = true) (hy : isFinite y = true) :
    lt x y = decide (units x < units y) := by
  simp [lt, cmp, key_finite hx, key_finite hy]

theorem natAbs_units (x : F32) : (units x).natAbs = mag x := by
  unfold units
  split <;> simp

/-- Negation keeps the magnitude and flips the sign. -/
@[simp] theorem magBits_neg (x : F32) : magBits (neg x) = magBits x := by
  unfold magBits neg
  rw [BitVec.toNat_xor, Nat.xor_mod_two_pow]
  simp

@[simp] theorem sign_neg (x : F32) : sign (neg x) = !sign x := by
  unfold sign neg
  rw [BitVec.msb_xor, show (0x80000000#32).msb = true by decide, Bool.xor_true]

@[simp] theorem isFinite_neg (x : F32) : isFinite (neg x) = isFinite x := by simp [isFinite]

@[simp] theorem units_neg (x : F32) : units (neg x) = -units x := by
  unfold units mag
  rw [magBits_neg, sign_neg]
  cases sign x <;> simp

/-- A difference of equal finite values is a zero. -/
theorem isZero_sub_self (nan : BitVec 32) {x y : F32} (hx : isFinite x = true) (hy : isFinite y = true)
    (h : units x = units y) : isZero (sub nan x y) = true := by
  unfold sub
  rw [add_finite _ hx (by simpa using hy), if_pos (by simp [h])]
  simp [isZero]

/-- A zero times a finite value is a zero. -/
theorem isZero_mul (nan : BitVec 32) {x y : F32} (hx : isZero x = true) (hy : isFinite y = true) :
    isZero (mul nan x y) = true := by
  have hx0 : magBits x = 0 := by simpa [isZero] using hx
  have hfx : isFinite x = true := by rw [isFinite_iff, hx0]; decide
  have h0 : mag x = 0 := by unfold mag; rw [hx0, magOf_zero]
  rw [mul_finite _ hfx hy, h0, Nat.zero_mul]
  have hr : roundBits 0 one = 0 := by
    have := roundBits_exact 0 one (by unfold one; positivity)
    simpa using this
  rw [hr]
  simp [isZero]

/-- Adding a zero to a finite value that is no zero gives it back. -/
theorem add_isZero (nan : BitVec 32) {x z : F32} (hx : isFinite x = true) (hnz : isZero x = false)
    (hz : isZero z = true) : add nan x z = x := by
  have hz0 : magBits z = 0 := by simpa [isZero] using hz
  have hfz : isFinite z = true := by rw [isFinite_iff, hz0]; decide
  have hu : units z = 0 := by unfold units mag; rw [hz0, magOf_zero]; simp
  have hm : 0 < magBits x := by
    have : magBits x ≠ 0 := by simpa [isZero] using hnz
    omega
  have hmag : 0 < mag x := magOf_zero ▸ magOf_lt_iff.mpr hm
  have hr : roundBits (mag x) 1 = magBits x := by
    have := roundBits_exact (magBits x) 1 (by norm_num)
    rw [Nat.mul_one] at this
    exact this.trans (Nat.min_eq_left (le_of_lt ((isFinite_iff x).mp hx)))
  rw [add_finite _ hx hfz, hu, add_zero]
  have hn : units x ≠ 0 := by unfold units; split <;> omega
  have hs : decide (units x < 0) = sign x := by
    unfold units
    cases sign x <;> simp
    omega
  rw [if_neg hn, hs, natAbs_units, hr, pack_sign_magBits]

/-- An ordered comparison holds when neither operand is a NaN and the values compare so (R9). -/
theorem le_iff (x y : F32) : le x y = true ↔ isNaN x = false ∧ isNaN y = false ∧ units x ≤ units y := by
  unfold le cmp key
  cases isNaN x <;> cases isNaN y <;> simp

theorem lt_iff (x y : F32) : lt x y = true ↔ isNaN x = false ∧ isNaN y = false ∧ units x < units y := by
  unfold lt cmp key
  cases isNaN x <;> cases isNaN y <;> simp

theorem one_pos : 0 < one := by unfold one; positivity

end Sys2Proof.F32
end

