-- ==== Sys2Proof/Laws/Memory.lean ====
section
/-! SUPPORT. The laws of the memories: every operation keeps the canonical form and the space's bounds; a read after a
write to the same place gives the value written, and a write leaves every other byte alone. -/

namespace Sys2Proof.Machine

theorem Memory.wf_cons (a : Nat) (v : Byte) (m : Memory) :
    Memory.wf ((a, v) :: m) = true ↔ v ≠ 0 ∧ (∀ c ∈ m, a < c.1) ∧ m.wf = true := by
  simp [Memory.wf, and_assoc]

theorem Memory.readByte_absent {a : Nat} {m : Memory} (h : ∀ c ∈ m, a < c.1) : m.readByte a = 0 := by
  induction m with
  | nil => rfl
  | cons c m ih =>
    obtain ⟨b, w⟩ := c
    have hb : a < b := h (b, w) (by simp)
    rw [Memory.readByte, if_neg (by omega)]
    exact ih fun c hc => h c (by simp [hc])

/-- The addresses of a written memory: those it had, and the one written. -/
theorem Memory.mem_writeByte {a : Nat} {v : Byte} {m : Memory} {c : Host.Cell} (h : c ∈ m.writeByte a v) :
    c.1 = a ∨ c ∈ m := by
  induction m with
  | nil =>
    unfold Memory.writeByte at h
    split at h <;> simp_all
  | cons d m ih =>
    obtain ⟨b, w⟩ := d
    unfold Memory.writeByte at h
    split_ifs at h <;> simp only [List.mem_cons] at h ⊢ <;> try tauto
    all_goals rcases h with h | h
    all_goals first | tauto | (subst h; simp)

theorem Memory.wf_writeByte (a : Nat) (v : Byte) (m : Memory) (h : m.wf = true) : (m.writeByte a v).wf = true := by
  induction m with
  | nil =>
    unfold Memory.writeByte
    split_ifs with hv
    · rfl
    · exact (Memory.wf_cons _ _ _).mpr ⟨hv, by simp, rfl⟩
  | cons d m ih =>
    obtain ⟨b, w⟩ := d
    have h' := (Memory.wf_cons b w m).mp h
    unfold Memory.writeByte
    split_ifs with h1 hv h2 hv
    · exact h
    · refine (Memory.wf_cons _ _ _).mpr ⟨hv, ?_, h⟩
      intro c hc
      rcases List.mem_cons.mp hc with rfl | hc
      · exact h1
      · exact lt_trans h1 (h'.2.1 c hc)
    · exact h'.2.2
    · subst h2
      exact (Memory.wf_cons _ _ _).mpr ⟨hv, h'.2.1, h'.2.2⟩
    · refine (Memory.wf_cons _ _ _).mpr ⟨h'.1, ?_, ih h'.2.2⟩
      intro c hc
      rcases Memory.mem_writeByte hc with hc | hc
      · omega
      · exact h'.2.1 c hc

/-- A read of one byte after a write of one byte. -/
theorem Memory.readByte_writeByte (a b : Nat) (v : Byte) (m : Memory) (h : m.wf = true) :
    (m.writeByte a v).readByte b = if b = a then v else m.readByte b := by
  induction m with
  | nil =>
    unfold Memory.writeByte
    split_ifs with hv hb hb <;> simp_all [Memory.readByte]
  | cons d m ih =>
    obtain ⟨c, w⟩ := d
    have h' := (Memory.wf_cons c w m).mp h
    have hlow : ∀ x, x < c → Memory.readByte x ((c, w) :: m) = 0 := by
      intro x hx
      refine Memory.readByte_absent ?_
      intro e he
      rcases List.mem_cons.mp he with rfl | he
      · exact hx
      · exact lt_trans hx (h'.2.1 e he)
    unfold Memory.writeByte
    split_ifs with h1 hv hb hb h2 hv hb hb hb
    · rw [hb, hlow a h1, hv]
    · rfl
    · simp [Memory.readByte, hb]
    · rw [Memory.readByte, if_neg hb]
    · subst h2
      rw [hb, hv]
      exact Memory.readByte_absent h'.2.1
    · subst h2
      rw [Memory.readByte, if_neg hb]
    · simp [Memory.readByte, hb]
    · subst h2
      rw [Memory.readByte, if_neg hb, Memory.readByte, if_neg hb]
    · subst hb
      rw [Memory.readByte, if_neg h2, ih h'.2.2, if_pos rfl]
    · rw [Memory.readByte, Memory.readByte, ih h'.2.2, if_neg hb]

theorem Memory.within_iff (size : Nat) (m : Memory) : m.within size = true ↔ ∀ c ∈ m, c.1 < size := by
  simp [Memory.within]

theorem Memory.within_writeByte {size a : Nat} (v : Byte) {m : Memory} (ha : a < size) (h : m.within size = true) :
    (m.writeByte a v).within size = true := by
  rw [Memory.within_iff] at *
  intro c hc
  rcases Memory.mem_writeByte hc with hc | hc
  · omega
  · exact h c hc

theorem Memory.wf_writeHalf (a : Nat) (v : BitVec 16) {m : Memory} (h : m.wf = true) : (m.writeHalf a v).wf = true :=
  Memory.wf_writeByte _ _ _ (Memory.wf_writeByte _ _ _ h)

theorem Memory.wf_writeWord (a : Nat) (v : BitVec 32) {m : Memory} (h : m.wf = true) : (m.writeWord a v).wf = true :=
  Memory.wf_writeByte _ _ _ (Memory.wf_writeByte _ _ _ (Memory.wf_writeByte _ _ _ (Memory.wf_writeByte _ _ _ h)))

theorem Memory.within_writeHalf {size a : Nat} (v : BitVec 16) {m : Memory} (ha : a + 1 < size)
    (h : m.within size = true) : (m.writeHalf a v).within size = true :=
  Memory.within_writeByte _ ha (Memory.within_writeByte _ (by omega) h)

theorem Memory.within_writeWord {size a : Nat} (v : BitVec 32) {m : Memory} (ha : a + 3 < size)
    (h : m.within size = true) : (m.writeWord a v).within size = true :=
  Memory.within_writeByte _ ha (Memory.within_writeByte _ (by omega)
    (Memory.within_writeByte _ (by omega) (Memory.within_writeByte _ (by omega) h)))

/-- Every byte outside the two stored is as before. -/
theorem Memory.readByte_writeHalf_of_ne {a b : Nat} (v : BitVec 16) {m : Memory} (h : m.wf = true)
    (hb : b < a ∨ a + 2 ≤ b) : (m.writeHalf a v).readByte b = m.readByte b := by
  unfold Memory.writeHalf
  rw [Memory.readByte_writeByte _ _ _ _ (Memory.wf_writeByte _ _ _ h), if_neg (by omega),
    Memory.readByte_writeByte _ _ _ _ h, if_neg (by omega)]

/-- Every byte outside the four stored is as before. -/
theorem Memory.readByte_writeWord_of_ne {a b : Nat} (v : BitVec 32) {m : Memory} (h : m.wf = true)
    (hb : b < a ∨ a + 4 ≤ b) : (m.writeWord a v).readByte b = m.readByte b := by
  unfold Memory.writeWord
  have h1 := Memory.wf_writeByte a (v.extractLsb' 0 8) m h
  have h2 := Memory.wf_writeByte (a + 1) (v.extractLsb' 8 8) _ h1
  have h3 := Memory.wf_writeByte (a + 2) (v.extractLsb' 16 8) _ h2
  rw [Memory.readByte_writeByte _ _ _ _ h3, if_neg (by omega), Memory.readByte_writeByte _ _ _ _ h2,
    if_neg (by omega), Memory.readByte_writeByte _ _ _ _ h1, if_neg (by omega),
    Memory.readByte_writeByte _ _ _ _ h, if_neg (by omega)]

/-- A halfword's two bytes give it back. -/
theorem half_of_bytes (v : BitVec 16) : v.extractLsb' 8 8 ++ v.extractLsb' 0 8 = v := by
  apply BitVec.eq_of_getLsbD_eq
  intro i hi
  rw [BitVec.getLsbD_append]
  simp only [BitVec.getLsbD_extractLsb']
  rcases Nat.lt_or_ge i 8 with h | h
  · simp [h]
  · simp [Nat.not_lt.mpr h, show i - 8 < 8 by omega, show 8 + (i - 8) = i by omega]

/-- A word's four bytes give it back. -/
theorem word_of_bytes (v : BitVec 32) :
    v.extractLsb' 24 8 ++ v.extractLsb' 16 8 ++ v.extractLsb' 8 8 ++ v.extractLsb' 0 8 = v := by
  apply BitVec.eq_of_getLsbD_eq
  intro i hi
  simp only [BitVec.getLsbD_append, BitVec.getLsbD_extractLsb']
  rcases Nat.lt_or_ge i 8 with h | h
  · simp [h]
  rcases Nat.lt_or_ge i 16 with h2 | h2
  · simp [Nat.not_lt.mpr h, show i - 8 < 8 by omega, show 8 + (i - 8) = i by omega]
  rcases Nat.lt_or_ge i 24 with h3 | h3
  · simp [Nat.not_lt.mpr h, show ¬ i - 8 < 8 by omega, show i - 8 - 8 < 8 by omega,
      show 16 + (i - 8 - 8) = i by omega]
  · simp [Nat.not_lt.mpr h, show ¬ i - 8 < 8 by omega, show ¬ i - 8 - 8 < 8 by omega,
      show i - 8 - 8 - 8 < 8 by omega, show 24 + (i - 8 - 8 - 8) = i by omega]

/-- The halfword at `a` after it is stored there. -/
theorem Memory.readHalf_writeHalf (a : Nat) (v : BitVec 16) {m : Memory} (h : m.wf = true) :
    (m.writeHalf a v).readHalf a = v := by
  unfold Memory.readHalf Memory.writeHalf
  have h1 := Memory.wf_writeByte a (v.extractLsb' 0 8) m h
  simp only [Memory.readByte_writeByte _ _ _ _ h1, Memory.readByte_writeByte _ _ _ _ h]
  simp [half_of_bytes]

/-- The word at `a` after it is stored there. -/
theorem Memory.readWord_writeWord (a : Nat) (v : BitVec 32) {m : Memory} (h : m.wf = true) :
    (m.writeWord a v).readWord a = v := by
  unfold Memory.readWord Memory.writeWord
  have h1 := Memory.wf_writeByte a (v.extractLsb' 0 8) m h
  have h2 := Memory.wf_writeByte (a + 1) (v.extractLsb' 8 8) _ h1
  have h3 := Memory.wf_writeByte (a + 2) (v.extractLsb' 16 8) _ h2
  simp only [Memory.readByte_writeByte _ _ _ _ h3, Memory.readByte_writeByte _ _ _ _ h2,
    Memory.readByte_writeByte _ _ _ _ h1, Memory.readByte_writeByte _ _ _ _ h]
  simp [word_of_bytes]

/-- Words at places whose bytes do not meet. -/
theorem Memory.readWord_writeWord_of_ne {a b : Nat} (v : BitVec 32) {m : Memory} (h : m.wf = true)
    (hb : b + 4 ≤ a ∨ a + 4 ≤ b) : (m.writeWord a v).readWord b = m.readWord b := by
  unfold Memory.readWord
  rw [Memory.readByte_writeWord_of_ne v h (by omega), Memory.readByte_writeWord_of_ne v h (by omega),
    Memory.readByte_writeWord_of_ne v h (by omega), Memory.readByte_writeWord_of_ne v h (by omega)]

/-- Halfwords at places whose bytes do not meet. -/
theorem Memory.readHalf_writeHalf_of_ne {a b : Nat} (v : BitVec 16) {m : Memory} (h : m.wf = true)
    (hb : b + 2 ≤ a ∨ a + 2 ≤ b) : (m.writeHalf a v).readHalf b = m.readHalf b := by
  unfold Memory.readHalf
  rw [Memory.readByte_writeHalf_of_ne v h (by omega), Memory.readByte_writeHalf_of_ne v h (by omega)]

/-- `DBUF[j]` after `DBUF[i]` is written (R62). -/
theorem dbufRead_dbufWrite (i j : Nat) (v : F32) {m : Memory} (h : m.wf = true) :
    dbufRead j (dbufWrite i v m) = if j = i then v else dbufRead j m := by
  unfold dbufRead dbufWrite
  split_ifs with hj
  · subst hj
    exact Memory.readWord_writeWord _ _ h
  · exact Memory.readWord_writeWord_of_ne v h (by omega)

/-- `OUT[j]` after `OUT[i]` is written (R63). -/
theorem outRead_outWrite (i j : Nat) (v : Sample) {m : Memory} (h : m.wf = true) :
    outRead j (outWrite i v m) = if j = i then v else outRead j m := by
  unfold outRead outWrite
  split_ifs with hj
  · subst hj
    exact Memory.readHalf_writeHalf _ _ h
  · exact Memory.readHalf_writeHalf_of_ne v h (by omega)

/-- A memory that lists nothing reads as zero everywhere (R380). -/
@[simp] theorem Memory.readByte_nil (a : Nat) : Memory.readByte a [] = 0 := rfl

/-- Two canonical memories that read alike everywhere are one list. -/
theorem Memory.ext_of_readByte {m n : Memory} (hm : m.wf = true) (hn : n.wf = true)
    (h : ∀ a, m.readByte a = n.readByte a) : m = n := by
  induction m generalizing n with
  | nil =>
    cases n with
    | nil => rfl
    | cons d n =>
      obtain ⟨b, w⟩ := d
      have hn' := (Memory.wf_cons b w n).mp hn
      have := h b
      simp only [Memory.readByte, if_true] at this
      exact absurd this.symm hn'.1
  | cons d m ih =>
    obtain ⟨a, v⟩ := d
    have hm' := (Memory.wf_cons a v m).mp hm
    cases n with
    | nil =>
      have := h a
      simp only [Memory.readByte, if_true] at this
      exact absurd this hm'.1
    | cons e n =>
      obtain ⟨b, w⟩ := e
      have hn' := (Memory.wf_cons b w n).mp hn
      have hab : a = b := by
        rcases lt_trichotomy a b with hlt | heq | hgt
        · have h1 := h a
          rw [Memory.readByte, if_pos rfl, Memory.readByte_absent (a := a) (m := (b, w) :: n)] at h1
          · exact absurd h1 hm'.1
          · intro c hc
            rcases List.mem_cons.mp hc with rfl | hc
            · exact hlt
            · exact lt_trans hlt (hn'.2.1 c hc)
        · exact heq
        · have h1 := h b
          rw [Memory.readByte_absent (a := b) (m := (a, v) :: m), Memory.readByte, if_pos rfl] at h1
          · exact absurd h1.symm hn'.1
          · intro c hc
            rcases List.mem_cons.mp hc with rfl | hc
            · exact hgt
            · exact lt_trans hgt (hm'.2.1 c hc)
      subst hab
      have hvw : v = w := by simpa [Memory.readByte] using h a
      subst hvw
      congr 1
      refine ih hm'.2.2 hn'.2.2 ?_
      intro c
      by_cases hc : c = a
      · subst hc
        rw [Memory.readByte_absent hm'.2.1, Memory.readByte_absent hn'.2.1]
      · simpa [Memory.readByte, hc] using h c

end Sys2Proof.Machine
end

