-- ==== Sys2Proof/Laws/PerInstr.lean ====
section
/-! SUPPORT. A statement about every instruction as syntax, one lemma a constructor: the words of a command select an
operation and leave its reserved fields zero, and the code of an event is not "no event" (R104, R107, R110). -/

namespace Sys2Proof.Laws

/-- What an instruction is encoded as can be presented: it is never rejected for its OP or for a reserved field. -/
def ReservedZero.Statement (i : Instr) : Prop :=
  match encode i with
  | .packet p => ∃ op, opOfCode p.op = some op ∧ reservedClear op p.fields = true
  | .event ev => ev ≠ 0

/-- A packet made from fields whose reserved ones are zero. -/
theorem packFields_presentable (op : Op) (fs : Fields) (h : reservedClear op fs = true) :
    ∃ o, opOfCode (packFields op fs).op = some o ∧ reservedClear o (packFields op fs).fields = true :=
  ⟨op, by rw [op_packFields, opOfCode_opCode], by rw [fields_packFields, h]⟩

theorem ReservedZero.activateVoice (idx : BitVec 8) (active : Bool) : ReservedZero.Statement (.activateVoice idx active) :=
  packFields_presentable .activateVoice _ rfl

theorem ReservedZero.setFrequency (idx : BitVec 8) (freq : F32) : ReservedZero.Statement (.setFrequency idx freq) :=
  packFields_presentable .setFrequency _ rfl

theorem ReservedZero.setMidiNote (idx note : BitVec 8) (velocity : BitVec 7) (active : Bool) : ReservedZero.Statement (.setMidiNote idx note velocity active) :=
  packFields_presentable .setMidiNote _ rfl

theorem ReservedZero.setWaveform (idx wf : BitVec 8) : ReservedZero.Statement (.setWaveform idx wf) :=
  packFields_presentable .setWaveform _ rfl

theorem ReservedZero.updateFilter (cutoff q : F32) : ReservedZero.Statement (.updateFilter cutoff q) :=
  packFields_presentable .updateFilter _ rfl

theorem ReservedZero.updateDelay (time feedback : F32) : ReservedZero.Statement (.updateDelay time feedback) :=
  packFields_presentable .updateDelay _ rfl

theorem ReservedZero.effectSetSlot (slot effect : BitVec 8) : ReservedZero.Statement (.effectSetSlot slot effect) :=
  packFields_presentable .effectSetSlot _ rfl

theorem ReservedZero.effectActivateSlot (slot : BitVec 8) (active : Bool) : ReservedZero.Statement (.effectActivateSlot slot active) :=
  packFields_presentable .effectActivateSlot _ rfl

theorem ReservedZero.getFilter : ReservedZero.Statement (.getFilter) :=
  packFields_presentable .getFilter _ rfl

theorem ReservedZero.getDelay : ReservedZero.Statement (.getDelay) :=
  packFields_presentable .getDelay _ rfl

theorem ReservedZero.init : ReservedZero.Statement (.init) :=
  packFields_presentable .init _ rfl

theorem ReservedZero.deinit : ReservedZero.Statement (.deinit) :=
  packFields_presentable .deinit _ rfl

theorem ReservedZero.evHalf : ReservedZero.Statement .evHalf := (by decide : _ ≠ (0 : BitVec 2))

theorem ReservedZero.evFull : ReservedZero.Statement .evFull := (by decide : _ ≠ (0 : BitVec 2))

theorem ReservedZero.evError : ReservedZero.Statement .evError := (by decide : _ ≠ (0 : BitVec 2))

end Sys2Proof.Laws
end

