-- ==== Sys2Proof/Laws/Phase.lean ====
section
/-! SUPPORT. The phase stays in [0, 256): `wrap` lands there from every finite value (R154), and under a legal
configuration the increment and the sum it wraps are finite (R153). -/

namespace Sys2Proof.F32

theorem magOf_infBits : magOf infBits = 2 ^ 23 * 2 ^ 254 := magOf_scaled 254 (2 ^ 23) (by norm_num) (Or.inr le_rfl)

theorem magOf_maxFinite : magOf (infBits - 1) = (2 ^ 24 - 1) * 2 ^ 253 :=
  magOf_scaled 253 (2 ^ 24 - 1) (by norm_num) (Or.inr (by norm_num))

theorem mag_le_of_finite {x : F32} (h : isFinite x = true) : mag x ≤ (2 ^ 24 - 1) * 2 ^ 253 := by
  rw [← magOf_maxFinite]
  exact magOf_le_iff.mpr (by have := (isFinite_iff x).mp h; omega)

/-- A value less than half a last place above the greatest finite one rounds to a finite one. -/
theorem roundBits_lt_inf {n : Nat} (h : n < (2 ^ 25 - 1) * 2 ^ 252) : roundBits n 1 < infBits := by
  obtain ⟨b, h1, h2, h3⟩ := roundBits_spec n 1 Nat.one_pos
  have hle : b < infBits := by
    rw [← magOf_lt_iff, magOf_infBits]
    calc magOf b = magOf b * 1 := (Nat.mul_one _).symm
      _ ≤ n := h1
      _ < (2 ^ 25 - 1) * 2 ^ 252 := h
      _ < 2 ^ 23 * 2 ^ 254 := by norm_num
  rcases Nat.lt_or_ge (b + 1) infBits with hb | hb
  · rcases h3 with ⟨_, h⟩ | ⟨_, h⟩ <;> rw [h] <;> exact lt_of_le_of_lt (Nat.min_le_left _ _) (by omega)
  · have hbe : b = infBits - 1 := by omega
    have hno : ¬ roundsUp b n 1 := by
      unfold roundsUp
      rw [show b + 1 = infBits by omega, hbe, magOf_infBits, magOf_maxFinite]
      norm_num at h ⊢
      omega
    rcases h3 with ⟨h, _⟩ | ⟨_, h⟩
    · exact absurd h hno
    · rw [h]
      exact lt_of_le_of_lt (Nat.min_le_left _ _) hle

/-- 256.0 is 2^157 units. -/
theorem magOf_c256 : magOf (magBits c256) = 2 ^ 157 := by
  have h := magOf_scaled 134 (2 ^ 23) (by norm_num) (Or.inr le_rfl)
  have hb : magBits c256 = 134 * 2 ^ 23 + 2 ^ 23 := by decide
  rw [hb, h]
  norm_num

theorem units_c256 : units c256 = 2 ^ 157 := by
  have hs : sign c256 = false := by decide
  unfold units mag
  rw [hs, magOf_c256]
  norm_num

theorem units_zero : units 0 = 0 := by decide

/-- A packed non-negative finite pattern, in units. -/
theorem units_pack_false {b : Nat} (h : b < 2 ^ 31) : units (pack false b) = (magOf b : Int) := by
  unfold units mag
  rw [sign_pack _ _ h, magBits_pack _ _ h]
  simp

end Sys2Proof.F32

namespace Sys2Proof.Machine

open Sys2Proof.F32 (units magOf magBits isFinite infBits c256 roundBits)

/-- A legal phase is a finite value whose units lie in [0, 2^157). -/
theorem phaseLegal_iff (x : F32) : phaseLegal x = true ↔ isFinite x = true ∧ 0 ≤ units x ∧ units x < 2 ^ 157 := by
  have h0 : isFinite (0 : F32) = true := by decide
  have hc : isFinite c256 = true := by decide
  constructor
  · intro h
    have hfin : isFinite x = true := by
      by_contra hn
      simp only [phaseLegal, Bool.and_eq_true] at h
      obtain ⟨hge, hlt⟩ := h
      have hnf : ¬ magBits x < infBits := fun hh => hn ((F32.isFinite_iff x).mpr hh)
      by_cases hnan : F32.isNaN x = true
      · simp [F32.lt, F32.cmp, F32.key, hnan] at hlt
      · have hinf : F32.isInf x = true := by
          simp only [F32.isNaN, F32.isInf, decide_eq_true_eq] at *
          omega
        have hmb : magBits x = infBits := of_decide_eq_true hinf
        have hkey : F32.key x = some (units x) := by simp [F32.key, hnan]
        simp only [F32.lt, F32.ge, F32.le, F32.cmp, hkey, F32.key_finite h0, F32.key_finite hc, F32.units_zero,
          F32.units_c256, decide_eq_true_eq] at hge hlt
        unfold units F32.mag at hge hlt
        rw [hmb, F32.magOf_infBits] at hge hlt
        by_cases hs : F32.sign x = true
        · rw [if_pos hs] at hge
          norm_num at hge
        · rw [if_neg hs] at hlt
          norm_num at hlt
    refine ⟨hfin, ?_⟩
    simp only [phaseLegal, Bool.and_eq_true, F32.ge, F32.le_finite h0 hfin, F32.lt_finite hfin hc, F32.units_zero,
      F32.units_c256, decide_eq_true_eq] at h
    exact h
  · rintro ⟨hfin, h1, h2⟩
    simp only [phaseLegal, Bool.and_eq_true, F32.ge, F32.le_finite h0 hfin, F32.lt_finite hfin hc, F32.units_zero,
      F32.units_c256, decide_eq_true_eq]
    exact ⟨h1, h2⟩

@[simp] theorem phaseLegal_zero : phaseLegal 0 = true := by
  rw [phaseLegal_iff, F32.units_zero]
  exact ⟨by decide, le_rfl, by norm_num⟩

/-- `wrap` of a finite value is a legal phase (R154). -/
theorem phaseLegal_wrap {p : F32} (h : isFinite p = true) : phaseLegal (F32.wrap p) = true := by
  unfold F32.wrap
  rw [if_pos h]
  set e := (units p % (256 * F32.one : Nat)).toNat with he
  have hpos : (0 : Int) < (256 * F32.one : Nat) := by unfold F32.one; positivity
  have hlt : e ≤ 2 ^ 157 := by
    have h1 := Int.emod_lt_of_pos (units p) hpos
    have h2 := Int.emod_nonneg (units p) (ne_of_gt hpos)
    have h3 : ((256 * F32.one : Nat) : Int) = 2 ^ 157 := by unfold F32.one; norm_num
    rw [h3] at h1 h2 he
    omega
  have hb : roundBits e 1 ≤ magBits c256 := by
    apply F32.roundBits_le_of_le Nat.one_pos
    rw [F32.magOf_c256]
    omega
  have hc : magBits c256 = 0x43800000 := by decide
  by_cases hcase : roundBits e 1 = magBits c256
  · simp only [hcase, if_true]
    exact phaseLegal_zero
  · simp only [hcase, if_false]
    have hb' : roundBits e 1 < magBits c256 := lt_of_le_of_ne hb hcase
    have h31 : roundBits e 1 < 2 ^ 31 := by omega
    rw [phaseLegal_iff, F32.units_pack_false h31]
    refine ⟨F32.isFinite_pack _ (by unfold infBits; omega), by positivity, ?_⟩
    have := F32.magOf_lt_iff.mpr hb'
    rw [F32.magOf_c256] at this
    exact_mod_cast this

/-- The sum of a legal phase and a finite value is finite. -/
theorem isFinite_add_phase (nan : BitVec 32) {p x : F32} (hp : phaseLegal p = true) (hx : isFinite x = true) :
    isFinite (F32.add nan p x) = true := by
  obtain ⟨hpf, hp0, hp1⟩ := (phaseLegal_iff p).mp hp
  rw [F32.add_finite nan hpf hx]
  split_ifs
  · exact F32.isFinite_pack _ (by decide)
  · apply F32.isFinite_pack
    apply F32.roundBits_lt_inf
    have h1 : (units p + units x).natAbs ≤ (units p).natAbs + (units x).natAbs := Int.natAbs_add_le _ _
    have h2 : (units p).natAbs < 2 ^ 157 := by
      have : ((2 : Int) ^ 157) = ((2 ^ 157 : Nat) : Int) := by norm_num
      rw [this] at hp1
      omega
    have h3 := F32.mag_le_of_finite hx
    rw [← F32.natAbs_units] at h3
    calc (units p + units x).natAbs ≤ (units p).natAbs + (units x).natAbs := h1
      _ < 2 ^ 157 + (2 ^ 24 - 1) * 2 ^ 253 := by omega
      _ ≤ (2 ^ 25 - 1) * 2 ^ 252 := by norm_num

/-- An integer 1..2^24 converts exactly (R9). -/
theorem mag_ofInt {n : Nat} (h1 : 1 ≤ n) (h2 : n ≤ 2 ^ 24) :
    F32.mag (F32.ofInt n) = n * F32.one ∧ isFinite (F32.ofInt n) = true ∧ F32.isZero (F32.ofInt n) = false ∧
      F32.sign (F32.ofInt n) = false := by
  have key : ∃ b, b < infBits ∧ magOf b = n * F32.one := by
    rcases Nat.lt_or_ge n (2 ^ 24) with hlt | hge
    · obtain ⟨j, hj⟩ : ∃ j, j = Nat.log2 n := ⟨_, rfl⟩
      have hl : 2 ^ j ≤ n := hj ▸ Nat.log2_self_le (by omega)
      have hu : n < 2 ^ (j + 1) := hj ▸ Nat.lt_log2_self
      have hj24 : j < 24 := by
        by_contra hc
        have : 2 ^ 24 ≤ 2 ^ j := Nat.pow_le_pow_right (by norm_num) (by omega)
        omega
      have hk1 : 2 ^ 23 ≤ n * 2 ^ (23 - j) := by
        calc 2 ^ 23 = 2 ^ j * 2 ^ (23 - j) := by rw [← pow_add]; congr 1; omega
          _ ≤ n * 2 ^ (23 - j) := Nat.mul_le_mul_right _ hl
      have hk2 : n * 2 ^ (23 - j) < 2 ^ 24 := by
        calc n * 2 ^ (23 - j) < 2 ^ (j + 1) * 2 ^ (23 - j) := Nat.mul_lt_mul_of_pos_right hu (by positivity)
          _ = 2 ^ 24 := by rw [← pow_add]; congr 1; omega
      refine ⟨(126 + j) * 2 ^ 23 + n * 2 ^ (23 - j), ?_, ?_⟩
      · unfold infBits; omega
      · rw [F32.magOf_scaled _ _ (by omega) (Or.inr hk1)]
        unfold F32.one
        rw [mul_assoc, ← pow_add]
        congr 2
        omega
    · have hn : n = 2 ^ 24 := by omega
      subst hn
      refine ⟨150 * 2 ^ 23 + 2 ^ 23, by decide, ?_⟩
      rw [F32.magOf_scaled _ _ (by norm_num) (Or.inr le_rfl)]
      unfold F32.one
      norm_num
  obtain ⟨b, hb, hm⟩ := key
  have hr : roundBits (n * F32.one) 1 = b := by
    have := F32.roundBits_exact b 1 Nat.one_pos
    rw [Nat.mul_one, hm] at this
    rw [this]
    exact Nat.min_eq_left (le_of_lt hb)
  have hdef : F32.ofInt n = F32.pack false b := by
    unfold F32.ofInt
    rw [Int.natAbs_natCast, hr]
    congr 1
  have h31 : b < 2 ^ 31 := lt_trans hb (by decide)
  refine ⟨?_, ?_, ?_, ?_⟩
  · rw [hdef]
    unfold F32.mag
    rw [F32.magBits_pack _ _ h31, hm]
  · rw [hdef]
    exact F32.isFinite_pack _ hb
  · rw [hdef]
    unfold F32.isZero
    rw [F32.magBits_pack _ _ h31]
    apply decide_eq_false
    rintro rfl
    rw [F32.magOf_zero] at hm
    have := Nat.mul_pos (show 0 < n by omega) F32.one_pos
    omega
  · rw [hdef]
    exact F32.sign_pack _ _ h31

/-- Under a legal sample rate the phase increment of a finite frequency is finite (R153). -/
theorem isFinite_phaseInc (ν : Nat → BitVec 32) {c : Config} {v : Voice} (h1 : 256 ≤ c.sr) (h2 : c.sr ≤ 2 ^ 24)
    (hf : isFinite v.frequency = true) : isFinite (v.phaseInc ν c) = true := by
  obtain ⟨hm, hfin, hz, -⟩ := mag_ofInt (n := c.sr) (by omega) h2
  unfold Voice.phaseInc
  rw [F32.div_finite _ hf hfin hz]
  set q := roundBits (F32.mag v.frequency * F32.one) (F32.mag (F32.ofInt c.sr)) with hq
  have hB : magOf (245 * 2 ^ 23 + (2 ^ 24 - 1)) = (2 ^ 24 - 1) * 2 ^ 245 :=
    F32.magOf_scaled _ _ (by norm_num) (Or.inr (by norm_num))
  have hqle : q ≤ 245 * 2 ^ 23 + (2 ^ 24 - 1) := by
    have hpos : 0 < c.sr * F32.one := Nat.mul_pos (by omega) F32.one_pos
    rw [hq, hm]
    apply F32.roundBits_le_of_le hpos
    rw [hB]
    calc F32.mag v.frequency * F32.one ≤ (2 ^ 24 - 1) * 2 ^ 253 * F32.one :=
          Nat.mul_le_mul_right _ (F32.mag_le_of_finite hf)
      _ = (2 ^ 24 - 1) * 2 ^ 245 * (2 ^ 8 * F32.one) := by
          rw [show (2 : Nat) ^ 253 = 2 ^ 245 * 2 ^ 8 by norm_num]
          ring
      _ ≤ (2 ^ 24 - 1) * 2 ^ 245 * (c.sr * F32.one) :=
          Nat.mul_le_mul_left _ (Nat.mul_le_mul_right _ (by omega))
  have hq31 : q < 2 ^ 31 := by omega
  have hqf : isFinite (F32.pack (F32.sign v.frequency != F32.sign (F32.ofInt c.sr)) q) = true :=
    F32.isFinite_pack _ (by unfold infBits; omega)
  have hcf : isFinite c256 = true := by decide
  rw [F32.mul_finite _ hcf hqf]
  apply F32.isFinite_pack
  have hmq : F32.mag (F32.pack (F32.sign v.frequency != F32.sign (F32.ofInt c.sr)) q) = magOf q := by
    unfold F32.mag
    rw [F32.magBits_pack _ _ hq31]
  have hle : roundBits (F32.mag c256 * magOf q) F32.one ≤ infBits - 1 := by
    apply F32.roundBits_le_of_le F32.one_pos
    rw [F32.magOf_maxFinite]
    have hmc : F32.mag c256 = 2 ^ 157 := F32.magOf_c256
    rw [hmc]
    calc 2 ^ 157 * magOf q ≤ 2 ^ 157 * ((2 ^ 24 - 1) * 2 ^ 245) := by
          apply Nat.mul_le_mul_left
          rw [← hB]
          exact F32.magOf_le_iff.mpr hqle
      _ = (2 ^ 24 - 1) * 2 ^ 253 * F32.one := by
          unfold F32.one
          norm_num
  rw [hmq]
  have : 0 < infBits := by decide
  omega

/-- The checks a legal configuration passes. -/
theorem checkPasses_of_legal {c : Config} (h : failingCheck c = none) (k : ConfigCheck) : checkPasses c k = true := by
  unfold failingCheck at h
  rw [List.find?_eq_none] at h
  have := h k (by cases k <;> simp)
  simpa using this

/-- The phase after a sample is legal (R33, R155). -/
theorem phaseLegal_nextPhase (ν : Nat → BitVec 32) {c : Config} {v : Voice} (hc : failingCheck c = none)
    (hp : phaseLegal v.phase = true) (hf : isFinite v.frequency = true) : phaseLegal (v.nextPhase ν c) = true := by
  have h2 := checkPasses_of_legal hc .c2
  simp only [checkPasses, decide_eq_true_eq] at h2
  exact phaseLegal_wrap (isFinite_add_phase _ hp (isFinite_phaseInc ν h2.1 h2.2 hf))

end Sys2Proof.Machine
end

