-- ==== Sys2Proof/Laws/Voice.lean ====
section
/-! SUPPORT. The ramp, the envelope and the voice: the small lemmas of each operation, and that each keeps `Voice.Inv`. -/

namespace Sys2Proof.Machine

/-! ### Ramp and envelope -/

@[simp] theorem Ramp.finished_iff (r : Ramp) : r.finished = true ↔ r.remaining = 0 := by simp [Ramp.finished]

@[simp] theorem Ramp.process_sampleRate (ν : Nat → BitVec 32) (r : Ramp) : (r.process ν).sampleRate = r.sampleRate := by
  unfold Ramp.process
  split <;> rfl

/-- A finished ramp stays as it is (R182). -/
theorem Ramp.process_finished (ν : Nat → BitVec 32) {r : Ramp} (h : r.remaining = 0) : r.process ν = r := by
  unfold Ramp.process
  rw [if_pos h]

/-- The two outcomes of `start_stage` (R202): a jump, or the ramp of R180. -/
theorem startStage_cases (ν : Nat → BitVec 32) (target duration : F32) (r : Ramp) :
    ((r.rampTo ν target duration).remaining = 0 ∧
      startStage ν target duration r = { r with current := target, increment := 0, remaining := 0 }) ∨
    ((r.rampTo ν target duration).remaining ≠ 0 ∧ startStage ν target duration r = r.rampTo ν target duration) := by
  by_cases h : (r.rampTo ν target duration).remaining = 0
  · refine Or.inl ⟨h, ?_⟩
    simp only [startStage, (Ramp.finished_iff _).mpr h, if_true]
    rfl
  · refine Or.inr ⟨h, ?_⟩
    have hf : (r.rampTo ν target duration).finished = false := by
      rw [Bool.eq_false_iff]
      exact fun hc => h ((Ramp.finished_iff _).mp hc)
    simp only [startStage, hf, Bool.false_eq_true, if_false]

@[simp] theorem startStage_sampleRate (ν : Nat → BitVec 32) (target duration : F32) (r : Ramp) :
    (startStage ν target duration r).sampleRate = r.sampleRate := by
  rcases startStage_cases ν target duration r with ⟨-, h⟩ | ⟨-, h⟩
  · rw [h]
  · rw [h]
    rfl

/-- What no envelope operation writes: the times, the levels and the ramp's sample rate (R35, R36). -/
structure Env.Same (e e' : Env) : Prop where
  attackTime   : e'.attackTime = e.attackTime
  decayTime    : e'.decayTime = e.decayTime
  releaseTime  : e'.releaseTime = e.releaseTime
  attackLevel  : e'.attackLevel = e.attackLevel
  sustainLevel : e'.sustainLevel = e.sustainLevel
  rate         : e'.ramp.sampleRate = e.ramp.sampleRate

theorem Env.Same.refl (e : Env) : e.Same e := ⟨rfl, rfl, rfl, rfl, rfl, rfl⟩

theorem Env.Same.trans {a b c : Env} (h : a.Same b) (g : b.Same c) : a.Same c :=
  ⟨g.1.trans h.1, g.2.trans h.2, g.3.trans h.3, g.4.trans h.4, g.5.trans h.5, g.6.trans h.6⟩

theorem Env.same_trigger (ν : Nat → BitVec 32) (e : Env) : e.Same (e.trigger ν) :=
  ⟨rfl, rfl, rfl, rfl, rfl, startStage_sampleRate _ _ _ _⟩

theorem Env.same_release (ν : Nat → BitVec 32) (e : Env) : e.Same (e.release ν) := by
  unfold Env.release
  split
  · exact Env.Same.refl e
  · exact ⟨rfl, rfl, rfl, rfl, rfl, startStage_sampleRate _ _ _ _⟩

/-- What one call of `process` does (R203): one ramp step, and at most one transition. -/
theorem Env.process_cases (ν : Nat → BitVec 32) (e : Env) :
    ((e.ramp.process ν).remaining ≠ 0 ∧ e.process ν = { e with ramp := e.ramp.process ν }) ∨
    ((e.ramp.process ν).remaining = 0 ∧
      ((e.stage = .attack ∧ e.process ν = { e with
          stage := .decay, ramp := startStage ν e.sustainLevel e.decayTime (e.ramp.process ν) }) ∨
       (e.stage = .decay ∧ e.process ν = { e with stage := .sustain, ramp := e.ramp.process ν }) ∨
       (e.stage = .release ∧ e.process ν = { e with stage := .off, ramp := e.ramp.process ν }) ∨
       ((e.stage = .sustain ∨ e.stage = .off) ∧ e.process ν = { e with ramp := e.ramp.process ν }))) := by
  by_cases h : (e.ramp.process ν).remaining = 0
  · refine Or.inr ⟨h, ?_⟩
    have hf : (e.ramp.process ν).finished = true := (Ramp.finished_iff _).mpr h
    have hp : e.process ν = Env.nextStage ν { e with ramp := e.ramp.process ν } := by
      simp only [Env.process, hf, if_true]
    rw [hp]
    cases hs : e.stage <;> simp [Env.nextStage]
  · refine Or.inl ⟨h, ?_⟩
    have hf : (e.ramp.process ν).finished = false := by
      rw [Bool.eq_false_iff]
      exact fun hc => h ((Ramp.finished_iff _).mp hc)
    simp only [Env.process, hf, Bool.false_eq_true, if_false]

theorem Env.same_process (ν : Nat → BitVec 32) (e : Env) : e.Same (e.process ν) := by
  have hr := Ramp.process_sampleRate ν e.ramp
  rcases Env.process_cases ν e with ⟨-, h⟩ | ⟨-, ⟨-, h⟩ | ⟨-, h⟩ | ⟨-, h⟩ | ⟨-, h⟩⟩ <;> rw [h]
  · exact ⟨rfl, rfl, rfl, rfl, rfl, hr⟩
  · exact ⟨rfl, rfl, rfl, rfl, rfl, (startStage_sampleRate _ _ _ _).trans hr⟩
  · exact ⟨rfl, rfl, rfl, rfl, rfl, hr⟩
  · exact ⟨rfl, rfl, rfl, rfl, rfl, hr⟩
  · exact ⟨rfl, rfl, rfl, rfl, rfl, hr⟩

/-- In Sustain and Off the ramp is finished, and a call of `process` keeps it so (R203). -/
theorem Env.settled_process (ν : Nat → BitVec 32) {e : Env}
    (h : e.stage = .sustain ∨ e.stage = .off → e.ramp.remaining = 0)
    (hs : (e.process ν).stage = .sustain ∨ (e.process ν).stage = .off) : (e.process ν).ramp.remaining = 0 := by
  rcases Env.process_cases ν e with ⟨hne, he⟩ | ⟨hz, ⟨-, he⟩ | ⟨-, he⟩ | ⟨-, he⟩ | ⟨-, he⟩⟩ <;> rw [he] at hs ⊢
  · have h0 := h hs
    rw [Ramp.process_finished ν h0] at hne
    exact absurd h0 hne
  · simp at hs
  · exact hz
  · exact hz
  · exact hz

/-! ### Voice -/

/-- What no operation on a sounding voice writes but the commands: the waveform, the frequency, the amplitude and the
envelope's parameters (R320). -/
structure Voice.Same (v w : Voice) : Prop where
  waveform  : w.waveform = v.waveform
  frequency : w.frequency = v.frequency
  amplitude : w.amplitude = v.amplitude
  env       : v.env.Same w.env

theorem Voice.Same.refl (v : Voice) : v.Same v := ⟨rfl, rfl, rfl, Env.Same.refl _⟩

theorem Voice.Same.trans {a b c : Voice} (h : a.Same b) (g : b.Same c) : a.Same c :=
  ⟨g.1.trans h.1, g.2.trans h.2, g.3.trans h.3, h.4.trans g.4⟩

theorem Voice.same_deactivate (v : Voice) : v.Same v.deactivate := ⟨rfl, rfl, rfl, rfl, rfl, rfl, rfl, rfl, rfl⟩

/-- What one voice of the mix does (R311, R312, R314). -/
theorem Voice.mix_cases (ν : Nat → BitVec 32) (c : Config) (sum : F32) (v : Voice) :
    (v.active = false ∧ v.mix ν c sum = (sum, v)) ∨
    (v.active = true ∧
      (v.mix ν c sum).1 = F32.add (ν 13) sum (F32.mul (ν 12) (v.env.process ν).ramp.current (v.sample ν c)) ∧
      (((v.env.process ν).stage ≠ .off ∧
          (v.mix ν c sum).2 = { v with env := v.env.process ν, phase := v.nextPhase ν c }) ∨
       ((v.env.process ν).stage = .off ∧
          (v.mix ν c sum).2 = Voice.deactivate { v with env := v.env.process ν, phase := v.nextPhase ν c }))) := by
  cases ha : v.active with
  | false => exact Or.inl ⟨rfl, by simp [Voice.mix, ha]⟩
  | true =>
    refine Or.inr ⟨rfl, ?_, ?_⟩
    · simp only [Voice.mix, ha, if_true, Voice.contribution, Voice.nextSample]
      rfl
    · by_cases hs : (v.env.process ν).stage = .off
      · refine Or.inr ⟨hs, ?_⟩
        simp only [Voice.mix, ha, if_true, Voice.contribution, Voice.nextSample, Env.isActive, hs]
        rfl
      · refine Or.inl ⟨hs, ?_⟩
        simp only [Voice.mix, ha, if_true, Voice.contribution, Voice.nextSample, Env.isActive, ne_eq, hs,
          not_false_eq_true, decide_true]
        rfl

theorem Voice.same_mix (ν : Nat → BitVec 32) (c : Config) (sum : F32) (v : Voice) : v.Same (v.mix ν c sum).2 := by
  have he := Env.same_process ν v.env
  rcases Voice.mix_cases ν c sum v with ⟨-, h⟩ | ⟨-, -, ⟨-, h⟩ | ⟨-, h⟩⟩ <;> rw [h]
  · exact Voice.Same.refl v
  · exact ⟨rfl, rfl, rfl, he⟩
  · exact Voice.Same.trans (b := { v with env := v.env.process ν, phase := v.nextPhase ν c }) ⟨rfl, rfl, rfl, he⟩
      (Voice.same_deactivate _)

/-! ### The invariant of a voice -/

/-- The parameters of an invariant voice, carried over to a voice with the same. -/
theorem Voice.Inv.params {c : Config} {v w : Voice} (h : v.Inv c) (s : v.Same w) :
    (w.env.attackTime = c.env.attackTime ∧ w.env.decayTime = c.env.decayTime ∧
      w.env.releaseTime = c.env.releaseTime) ∧
    (w.env.attackLevel = c.env.attackLevel ∧ w.env.sustainLevel = (Env.atReset c).sustainLevel) ∧
    w.env.ramp.sampleRate = F32.ofInt c.sr := by
  obtain ⟨t1, t2, t3⟩ := h.times
  obtain ⟨l1, l2⟩ := h.levels
  exact ⟨⟨s.env.attackTime.trans t1, s.env.decayTime.trans t2, s.env.releaseTime.trans t3⟩,
    ⟨s.env.attackLevel.trans l1, s.env.sustainLevel.trans l2⟩, s.env.rate.trans h.rate⟩

theorem Voice.Inv.deactivate {c : Config} {v : Voice} (h : v.Inv c) : v.deactivate.Inv c where
  phase := phaseLegal_zero
  frequency := h.frequency
  amplitude := h.amplitude
  active := fun hc => by cases hc
  inactive := fun _ => ⟨rfl, rfl, rfl, rfl, rfl⟩
  settled := fun _ => rfl
  times := h.times
  levels := h.levels
  rate := h.rate

theorem Voice.Inv.activate {c : Config} {v : Voice} (ν : Nat → BitVec 32) (h : v.Inv c) : (v.activate ν).Inv c where
  phase := h.phase
  frequency := h.frequency
  amplitude := h.amplitude
  active := fun _ hc => by cases hc
  inactive := fun hc => by cases hc
  settled := fun hc => by rcases hc with hc | hc <;> cases hc
  times := h.times
  levels := h.levels
  rate := (startStage_sampleRate _ _ _ _).trans h.rate

theorem Voice.Inv.setFrequency {c : Config} {v : Voice} {x : F32} (h : v.Inv c) (hx : F32.isFinite x = true) :
    Voice.Inv c { v with frequency := x } :=
  { h with frequency := hx }

theorem Voice.Inv.setAmplitude {c : Config} {v : Voice} {x : F32} (h : v.Inv c) (hx : F32.isFinite x = true) :
    Voice.Inv c { v with amplitude := x } :=
  { h with amplitude := hx }

theorem Voice.Inv.setWaveform {c : Config} {v : Voice} (w : Waveform) (h : v.Inv c) :
    Voice.Inv c { v with waveform := w } :=
  { h with }

theorem Voice.Inv.release {c : Config} {v : Voice} (ν : Nat → BitVec 32) (h : v.Inv c) :
    Voice.Inv c { v with env := v.env.release ν } := by
  unfold Env.release
  split
  · exact h
  · rename_i hs
    have ha : v.active = true := by
      cases hc : v.active with
      | true => rfl
      | false => exact absurd (Or.inl (h.inactive hc).2.1) hs
    exact
      { phase := h.phase
        frequency := h.frequency
        amplitude := h.amplitude
        active := fun _ hc => by cases hc
        inactive := fun hc => by rw [show v.active = false from hc] at ha; cases ha
        settled := fun hc => by rcases hc with hc | hc <;> cases hc
        times := h.times
        levels := h.levels
        rate := (startStage_sampleRate _ _ _ _).trans h.rate }

theorem Voice.Inv.mix {c : Config} {v : Voice} (ν : Nat → BitVec 32) (sum : F32) (hc : failingCheck c = none)
    (h : v.Inv c) : ((v.mix ν c sum).2).Inv c := by
  have hp := phaseLegal_nextPhase ν hc h.phase h.frequency
  have same := Env.same_process ν v.env
  rcases Voice.mix_cases ν c sum v with ⟨-, e⟩ | ⟨ha, -, ⟨hs, e⟩ | ⟨hs, e⟩⟩ <;> rw [e]
  · exact h
  · obtain ⟨ht, hl, hr⟩ := h.params (w := { v with env := v.env.process ν, phase := v.nextPhase ν c }) ⟨rfl, rfl, rfl, same⟩
    exact
      { phase := hp
        frequency := h.frequency
        amplitude := h.amplitude
        active := fun _ => hs
        inactive := fun hf => by rw [show v.active = false from hf] at ha; cases ha
        settled := Env.settled_process ν h.settled
        times := ht
        levels := hl
        rate := hr }
  · obtain ⟨ht, hl, hr⟩ := h.params (w := { v with env := v.env.process ν, phase := v.nextPhase ν c }) ⟨rfl, rfl, rfl, same⟩
    exact
      { phase := phaseLegal_zero
        frequency := h.frequency
        amplitude := h.amplitude
        active := fun hf => by cases hf
        inactive := fun _ => ⟨rfl, rfl, rfl, rfl, rfl⟩
        settled := fun _ => rfl
        times := ht
        levels := hl
        rate := hr }

theorem Voice.inv_atReset (c : Config) : (Voice.atReset c).Inv c where
  phase := phaseLegal_zero
  frequency := (by decide : F32.isFinite 0 = true)
  amplitude := (by decide : F32.isFinite 0x3F800000 = true)
  active := fun hf => by cases hf
  inactive := fun _ => ⟨rfl, rfl, rfl, rfl, rfl⟩
  settled := fun _ => rfl
  times := ⟨rfl, rfl, rfl⟩
  levels := ⟨rfl, rfl⟩
  rate := rfl

/-- Every note's frequency is finite (R274). -/
theorem isFinite_noteHz {n : Nat} (h : n < 128) : F32.isFinite (noteHz n) = true := by
  have all : ∀ k : Fin 128, F32.isFinite (noteHz k) = true := by decide +kernel
  exact all ⟨n, h⟩

/-- Every velocity's amplitude is finite under a legal configuration (R381 c8). -/
theorem isFinite_vgain {c : Config} (hc : failingCheck c = none) (v : BitVec 7) : F32.isFinite (vgainOf c v) = true := by
  have h := checkPasses_of_legal hc .c8
  simp only [checkPasses, Bool.and_eq_true, decide_eq_true_eq, List.all_eq_true] at h
  have hlt : v.toNat < c.vgain.length := h.1 ▸ v.isLt
  unfold vgainOf
  rw [List.getD_eq_getElem _ _ hlt]
  exact h.2 _ (List.getElem_mem hlt)

end Sys2Proof.Machine
end

