-- ==== Sys2Proof/Laws/Render.lean ====
section
/-! SUPPORT. The render: what each of its parts leaves as it is, and what it keeps (47_render.md, 43_filter.md, 44_delay.md,
45_router.md). -/

namespace Sys2Proof.Machine

/-! ### Filter and delay -/

/-- `lpf_process` writes the history and nothing else, and until ready not even that (R225). -/
theorem Filter.process_cases (ν : Nat → BitVec 32) (x : F32) (f : Filter) :
    (f.ready = false ∧ f.process ν x = (x, f)) ∨
    (f.ready = true ∧ f.process ν x =
      (f.output ν x, { f with x2 := f.x1, x1 := x, y2 := f.y1, y1 := f.output ν x })) := by
  cases h : f.ready with
  | false => exact Or.inl ⟨rfl, by simp [Filter.process, h]⟩
  | true => exact Or.inr ⟨rfl, by simp [Filter.process, h]⟩

/-- What `lpf_process` never writes: the parameters and the coefficients (R320). -/
structure Filter.Same (f g : Filter) : Prop where
  cutoff     : g.cutoff = f.cutoff
  q          : g.q = f.q
  ready      : g.ready = f.ready
  sampleRate : g.sampleRate = f.sampleRate
  a1         : g.a1 = f.a1
  a2         : g.a2 = f.a2
  b0         : g.b0 = f.b0
  b1         : g.b1 = f.b1
  b2         : g.b2 = f.b2

theorem Filter.Same.refl (f : Filter) : f.Same f := ⟨rfl, rfl, rfl, rfl, rfl, rfl, rfl, rfl, rfl⟩

theorem Filter.Same.trans {f g h : Filter} (s : f.Same g) (t : g.Same h) : f.Same h :=
  ⟨t.1.trans s.1, t.2.trans s.2, t.3.trans s.3, t.4.trans s.4, t.5.trans s.5, t.6.trans s.6, t.7.trans s.7,
    t.8.trans s.8, t.9.trans s.9⟩

theorem Filter.same_process (ν : Nat → BitVec 32) (x : F32) (f : Filter) : f.Same (f.process ν x).2 := by
  rcases Filter.process_cases ν x f with ⟨-, h⟩ | ⟨-, h⟩ <;> rw [h]
  · exact Filter.Same.refl f
  · exact ⟨rfl, rfl, rfl, rfl, rfl, rfl, rfl, rfl, rfl⟩

theorem Filter.Inv.process {c : Config} {f : Filter} (ν : Nat → BitVec 32) (x : F32) (h : f.Inv c) :
    ((f.process ν x).2).Inv c := by
  rcases Filter.process_cases ν x f with ⟨-, e⟩ | ⟨hr, e⟩ <;> rw [e]
  · exact h
  · refine ⟨fun hf => ?_, fun _ => ?_, h.rate, h.cutoff, h.q⟩
    · rw [show f.ready = false from hf] at hr
      cases hr
    · have := h.ready hr
      obtain ⟨a1, a2, b0, b1, b2, x1, x2, y1, y2, sr, cut, q, rdy⟩ := f
      simp only [Filter.recompute, Filter.mk.injEq] at this ⊢
      exact ⟨this.1, this.2.1, this.2.2.1, this.2.2.2.1, this.2.2.2.2.1, by simp⟩

theorem Filter.inv_atReset (c : Config) : (Filter.atReset c).Inv c where
  notReady := fun _ => rfl
  ready := fun h => by cases h
  rate := rfl
  cutoff := (by decide : F32.ge 0 0 = true)
  q := (by decide : F32.ge 0 0 = true)

/-- What UPDATE_FILTER does to the filter, and when it is rejected (R278): the coefficients are those of the two new
parameters. -/
theorem Filter.update_eq (cutoff q : F32) (f : Filter) :
    f.update cutoff q =
      if F32.ge cutoff 0 && F32.ge q 0 then
        some { ({ f with cutoff := cutoff, q := q } : Filter).recompute with ready := true }
      else none := by
  unfold Filter.update Filter.setCutoff Filter.setQ
  cases F32.ge cutoff 0
  · rfl
  · cases F32.ge q 0 <;> rfl

/-- A successful pair of setters leaves a filter that is ready, with the coefficients of its parameters (R278). -/
theorem Filter.Inv.update {c : Config} {f g : Filter} {cutoff q : F32} (hf : f.Inv c)
    (h : f.update cutoff q = some g) : g.Inv c := by
  rw [Filter.update_eq] at h
  split_ifs at h with hcq
  cases h
  rw [Bool.and_eq_true] at hcq
  exact ⟨fun hr => (by cases hr), fun _ => rfl, hf.rate, hcq.1, hcq.2⟩

@[simp] theorem Delay.inRange_iff (l : Nat) (d : Delay) :
    d.inRange l = true ↔ d.writePos.toNat < l ∧ d.readPos.toNat < l := by simp [Delay.inRange]

/-- A position advances and wraps at L (R244, R245). -/
theorem toNat_advancePos {l : Nat} (h1 : 1 ≤ l) (h2 : l ≤ 2 ^ 24) (p : BitVec 32) :
    (advancePos l p).toNat = (p.toNat + 1) % l := by
  unfold advancePos
  rw [BitVec.toNat_ofNat]
  have := Nat.mod_lt (p.toNat + 1) (show 0 < l by omega)
  exact Nat.mod_eq_of_lt (by omega)

theorem Delay.inRange_process (ν : Nat → BitVec 32) {l : Nat} (x : F32) (d : Delay) (m : Memory) (h1 : 1 ≤ l)
    (h2 : l ≤ 2 ^ 24) : (d.process ν l x m).2.1.inRange l = true := by
  rw [Delay.inRange_iff]
  simp only [Delay.process, toNat_advancePos h1 h2]
  exact ⟨Nat.mod_lt _ (by omega), Nat.mod_lt _ (by omega)⟩

theorem Delay.Inv.process {c : Config} {d : Delay} (ν : Nat → BitVec 32) (x : F32) (m : Memory)
    (hc : failingCheck c = none) (h : d.Inv c) : ((d.process ν c.l x m).2.1).Inv c := by
  have hl := checkPasses_of_legal hc .c4
  simp only [checkPasses, decide_eq_true_eq] at hl
  exact ⟨Delay.inRange_process ν x d m hl.1 hl.2, h.rate, h.feedback⟩

theorem Delay.inv_atReset {c : Config} (hc : failingCheck c = none) : (Delay.atReset c).Inv c := by
  have hl := checkPasses_of_legal hc .c4
  simp only [checkPasses, decide_eq_true_eq] at hl
  refine ⟨?_, rfl, (by decide : (F32.ge 0 0 && F32.lt 0 0x3F800000) = true)⟩
  rw [Delay.inRange_iff]
  exact ⟨hl.1, hl.1⟩

/-- `posBack` is a position (R241). -/
theorem Delay.toNat_posBack {l : Nat} (h1 : 1 ≤ l) (h2 : l ≤ 2 ^ 24) (k : Int) (d : Delay) :
    ((d.posBack l k).toNat : Int) = ((d.writePos.toNat : Int) + (l : Int) - k) % (l : Int) := by
  unfold Delay.posBack
  have a := Int.emod_nonneg ((d.writePos.toNat : Int) + (l : Int) - k) (b := (l : Int)) (by omega)
  have b := Int.emod_lt_of_pos ((d.writePos.toNat : Int) + (l : Int) - k) (b := (l : Int)) (by omega)
  rw [BitVec.toNat_ofInt]
  omega

/-- What UPDATE_DELAY does to the delay, and when it is rejected (R279). -/
theorem Delay.update_eq (ν : Nat → BitVec 32) (l : Nat) (t fb : F32) (d : Delay) :
    d.update ν l t fb =
      if F32.isFinite (d.product ν t) = true ∧ F32.ge (d.product ν t) (F32.ofInt l) = false ∧
          (F32.ge fb 0 && F32.lt fb 0x3F800000) = true then
        some { d with readPos := d.posBack l (F32.round (d.product ν t)), feedback := fb }
      else none := by
  unfold Delay.update Delay.updateDelay
  simp only
  cases h1 : F32.isFinite (d.product ν t)
  · rfl
  cases h2 : F32.ge (d.product ν t) (F32.ofInt l)
  · simp only [Bool.not_true, Bool.false_eq_true, if_false, true_and]
    rfl
  · rfl

/-- A successful `update_delay` and `update_feedback` keep the delay's registers legal (R241, R242). -/
theorem Delay.Inv.update {c : Config} {d f : Delay} {ν : Nat → BitVec 32} {t fb : F32} (hc : failingCheck c = none)
    (h : d.Inv c) (hu : d.update ν c.l t fb = some f) : f.Inv c := by
  have hl := checkPasses_of_legal hc .c4
  simp only [checkPasses, decide_eq_true_eq] at hl
  rw [Delay.update_eq] at hu
  split_ifs at hu with hcond
  cases hu
  refine ⟨?_, h.rate, hcond.2.2⟩
  have hp := h.positions
  rw [Delay.inRange_iff] at hp ⊢
  refine ⟨hp.1, ?_⟩
  have := Delay.toNat_posBack hl.1 hl.2 (F32.round (d.product ν t)) d
  have b := Int.emod_lt_of_pos ((d.writePos.toNat : Int) + (c.l : Int) - F32.round (d.product ν t)) (b := (c.l : Int))
    (by omega)
  show (d.posBack c.l (F32.round (d.product ν t))).toNat < c.l
  omega

/-- The buffer a call leaves is canonical and in its space (R244). -/
theorem Delay.wf_process (ν : Nat → BitVec 32) (l : Nat) (x : F32) (d : Delay) {m : Memory} (h : m.wf = true) :
    (d.process ν l x m).2.2.wf = true := Memory.wf_writeWord _ _ h

theorem Delay.within_process (ν : Nat → BitVec 32) {l : Nat} (x : F32) {d : Delay} {m : Memory}
    (hd : d.inRange l = true) (h : m.within (4 * l) = true) : (d.process ν l x m).2.2.within (4 * l) = true := by
  rw [Delay.inRange_iff] at hd
  exact Memory.within_writeWord _ (by omega) h

/-! ### One slot, and the chain -/

/-- A slot writes the filter, the delay and DBUF, and nothing else (R261). -/
theorem runSlot_eq (ν : Nat → BitVec 32) (slot : Slot) (x : F32) (s : State) :
    (runSlot ν slot x s).2 = { s with
      filter := (runSlot ν slot x s).2.filter, delay := (runSlot ν slot x s).2.delay,
      dbuf := (runSlot ν slot x s).2.dbuf } := by
  unfold runSlot
  cases slot.active <;> cases slot.effect <;> rfl

/-- So does the chain. -/
theorem fxRender_eq (k : Nat) (x : F32) (s : State) :
    (fxRender k x s).2 = { s with
      filter := (fxRender k x s).2.filter, delay := (fxRender k x s).2.delay, dbuf := (fxRender k x s).2.dbuf } := by
  have h0 := runSlot_eq (s.nans k unitSlot0) s.slot0 x s
  have h1 := runSlot_eq (s.nans k unitSlot1) s.slot1 (runSlot (s.nans k unitSlot0) s.slot0 x s).1
    (runSlot (s.nans k unitSlot0) s.slot0 x s).2
  unfold fxRender
  rw [h1, h0]

@[simp] theorem runSlot_cfg (ν : Nat → BitVec 32) (slot : Slot) (x : F32) (s : State) :
    (runSlot ν slot x s).2.cfg = s.cfg := (congrArg State.cfg (runSlot_eq ν slot x s) :)

@[simp] theorem fxRender_out (k : Nat) (x : F32) (s : State) : (fxRender k x s).2.out = s.out :=
  (congrArg State.out (fxRender_eq k x s) :)

/-- The three outcomes of a slot (R260, R261). -/
theorem runSlot_cases (ν : Nat → BitVec 32) (slot : Slot) (x : F32) (s : State) :
    ((slot.active = false ∨ slot.effect = .none) ∧ runSlot ν slot x s = (x, s)) ∨
    (slot.active = true ∧ slot.effect = .lowPass ∧ runSlot ν slot x s =
      ((s.filter.process ν x).1, { s with filter := (s.filter.process ν x).2 })) ∨
    (slot.active = true ∧ slot.effect = .delay ∧ runSlot ν slot x s =
      ((s.delay.process ν s.cfg.l x s.dbuf).1,
        { s with delay := (s.delay.process ν s.cfg.l x s.dbuf).2.1,
                 dbuf := (s.delay.process ν s.cfg.l x s.dbuf).2.2 })) := by
  unfold runSlot
  cases ha : slot.active <;> cases he : slot.effect <;> simp

/-- A property of the filter that `lpf_process` keeps is kept by a slot and by the chain. -/
theorem fxRender_filter_induct {P : Filter → Prop} (hP : ∀ ν x f, P f → P (f.process ν x).2) (k : Nat) (x : F32)
    (s : State) (h : P s.filter) : P (fxRender k x s).2.filter := by
  have one : ∀ (ν : Nat → BitVec 32) (slot : Slot) (x : F32) (s : State), P s.filter → P (runSlot ν slot x s).2.filter := by
    intro ν slot x s h
    rcases runSlot_cases ν slot x s with ⟨-, e⟩ | ⟨-, -, e⟩ | ⟨-, -, e⟩ <;> rw [e]
    · exact h
    · exact hP ν x s.filter h
    · exact h
  exact one _ _ _ _ (one _ _ _ _ h)

/-- A property of the delay and its buffer that `delay_process` keeps is kept by the chain. -/
theorem fxRender_delay_induct {l : Nat} {P : Delay → Memory → Prop}
    (hP : ∀ ν x d m, P d m → P (d.process ν l x m).2.1 (d.process ν l x m).2.2) (k : Nat) (x : F32) (s : State)
    (hl : s.cfg.l = l) (h : P s.delay s.dbuf) : P (fxRender k x s).2.delay (fxRender k x s).2.dbuf := by
  have one : ∀ (ν : Nat → BitVec 32) (slot : Slot) (x : F32) (s : State), s.cfg.l = l → P s.delay s.dbuf →
      P (runSlot ν slot x s).2.delay (runSlot ν slot x s).2.dbuf := by
    intro ν slot x s hl h
    rcases runSlot_cases ν slot x s with ⟨-, e⟩ | ⟨-, -, e⟩ | ⟨-, -, e⟩ <;> rw [e]
    · exact h
    · exact h
    · simp only [hl]
      exact hP ν x s.delay s.dbuf h
  exact one _ _ _ _ (by simpa using hl) (one _ _ _ _ hl h)

/-! ### The mix -/

/-- A relation every voice of the mix bears to what it becomes. -/
theorem forall₂_mixVoices {R : Voice → Voice → Prop} {c : Config} (h : ∀ ν sum v, R v (Voice.mix ν c sum v).2)
    (ν : Nat → Nat → BitVec 32) (i : Nat) (sum : F32) (vs : List Voice) :
    List.Forall₂ R vs (mixVoices ν c i sum vs).2 := by
  induction vs generalizing i sum with
  | nil => exact List.Forall₂.nil
  | cons v vs ih => exact List.Forall₂.cons (h _ _ _) (ih _ _)

@[simp] theorem length_mixVoices (ν : Nat → Nat → BitVec 32) (c : Config) (i : Nat) (sum : F32) (vs : List Voice) :
    (mixVoices ν c i sum vs).2.length = vs.length := by
  induction vs generalizing i sum with
  | nil => rfl
  | cons v vs ih => simp [mixVoices, ih]

theorem inv_mixVoices {c : Config} (hc : failingCheck c = none) (ν : Nat → Nat → BitVec 32) (i : Nat) (sum : F32)
    (vs : List Voice) (h : ∀ v ∈ vs, v.Inv c) : ∀ v ∈ (mixVoices ν c i sum vs).2, v.Inv c := by
  induction vs generalizing i sum with
  | nil => intro v hv; simp [mixVoices] at hv
  | cons w vs ih =>
    intro v hv
    rw [mixVoices, List.mem_cons] at hv
    rcases hv with rfl | hv
    · exact (h w (by simp)).mix _ _ hc
    · exact ih _ _ (fun u hu => h u (by simp [hu])) v hv

/-- With no voice active the mix is +0.0 and changes nothing (R311). -/
theorem mixVoices_inactive (ν : Nat → Nat → BitVec 32) (c : Config) (i : Nat) (sum : F32) (vs : List Voice)
    (h : ∀ v ∈ vs, v.active = false) : mixVoices ν c i sum vs = (sum, vs) := by
  induction vs generalizing i sum with
  | nil => rfl
  | cons v vs ih =>
    have hv : v.mix (ν (unitVoice i)) c sum = (sum, v) := by simp [Voice.mix, h v (by simp)]
    simp only [mixVoices, hv, ih (i + 1) sum (fun u hu => h u (by simp [hu]))]

/-! ### A frame, a half -/

/-- The state a frame's chain starts from. -/
def mixed (k : Nat) (s : State) : F32 × List Voice := mixVoices (s.nans k) s.cfg 0 0 s.voices

/-- A frame writes the voices, the filter, the delay, DBUF and OUT, and nothing else (R311). -/
theorem renderFrame_eq (k : Nat) (s : State) : renderFrame k s = { s with
    voices := (mixed k s).2, filter := (renderFrame k s).filter, delay := (renderFrame k s).delay,
    dbuf := (renderFrame k s).dbuf, out := (renderFrame k s).out } := by
  have h : renderFrame k s = { (fxRender k (mixed k s).1 { s with voices := (mixed k s).2 }).2 with
      out := (renderFrame k s).out } := rfl
  rw [h, fxRender_eq]

@[simp] theorem renderFrame_voices (k : Nat) (s : State) : (renderFrame k s).voices = (mixed k s).2 :=
  (congrArg State.voices (renderFrame_eq k s) :)

@[simp] theorem renderFrame_cfg (k : Nat) (s : State) : (renderFrame k s).cfg = s.cfg :=
  (congrArg State.cfg (renderFrame_eq k s) :)

theorem renderFrame_filter (k : Nat) (s : State) :
    (renderFrame k s).filter = (fxRender k (mixed k s).1 { s with voices := (mixed k s).2 }).2.filter := rfl

theorem renderFrame_delay (k : Nat) (s : State) :
    (renderFrame k s).delay = (fxRender k (mixed k s).1 { s with voices := (mixed k s).2 }).2.delay := rfl

theorem renderFrame_dbuf (k : Nat) (s : State) :
    (renderFrame k s).dbuf = (fxRender k (mixed k s).1 { s with voices := (mixed k s).2 }).2.dbuf := rfl

/-- The sample frame `k` writes to both channels (R311). -/
def frameSample (k : Nat) (s : State) : Sample :=
  toS16 (s.nans k unitOutput) s.cfg.oscale (fxRender k (mixed k s).1 { s with voices := (mixed k s).2 }).1

theorem renderFrame_out (k : Nat) (s : State) :
    (renderFrame k s).out = outWrite (2 * k + 1) (frameSample k s) (outWrite (2 * k) (frameSample k s) s.out) := by
  have : (fxRender k (mixed k s).1 { s with voices := (mixed k s).2 }).2.out = s.out := by simp
  rw [← this]
  rfl

/-- A half writes the voices, the filter, the delay, DBUF and OUT, and nothing else (R310, R320). -/
theorem renderFrames_eq (n k : Nat) (s : State) : renderFrames n k s = { s with
    voices := (renderFrames n k s).voices, filter := (renderFrames n k s).filter,
    delay := (renderFrames n k s).delay, dbuf := (renderFrames n k s).dbuf, out := (renderFrames n k s).out } := by
  induction n generalizing k s with
  | zero => rfl
  | succ n ih =>
    rw [renderFrames, ih, renderFrame_eq]

@[simp] theorem renderFrames_cfg (n k : Nat) (s : State) : (renderFrames n k s).cfg = s.cfg :=
  (congrArg State.cfg (renderFrames_eq n k s) :)

@[simp] theorem renderFrames_slot0 (n k : Nat) (s : State) : (renderFrames n k s).slot0 = s.slot0 :=
  (congrArg State.slot0 (renderFrames_eq n k s) :)

@[simp] theorem renderFrames_slot1 (n k : Nat) (s : State) : (renderFrames n k s).slot1 = s.slot1 :=
  (congrArg State.slot1 (renderFrames_eq n k s) :)

@[simp] theorem renderFrames_lc (n k : Nat) (s : State) : (renderFrames n k s).lc = s.lc :=
  (congrArg State.lc (renderFrames_eq n k s) :)

@[simp] theorem renderFrames_rmask (n k : Nat) (s : State) : (renderFrames n k s).rmask = s.rmask :=
  (congrArg State.rmask (renderFrames_eq n k s) :)

@[simp] theorem renderFrames_pendHalf (n k : Nat) (s : State) : (renderFrames n k s).pendHalf = s.pendHalf :=
  (congrArg State.pendHalf (renderFrames_eq n k s) :)

@[simp] theorem renderFrames_pendFull (n k : Nat) (s : State) : (renderFrames n k s).pendFull = s.pendFull :=
  (congrArg State.pendFull (renderFrames_eq n k s) :)

@[simp] theorem renderFrames_rsp0 (n k : Nat) (s : State) : (renderFrames n k s).rsp0 = s.rsp0 :=
  (congrArg State.rsp0 (renderFrames_eq n k s) :)

@[simp] theorem renderFrames_rsp1 (n k : Nat) (s : State) : (renderFrames n k s).rsp1 = s.rsp1 :=
  (congrArg State.rsp1 (renderFrames_eq n k s) :)

@[simp] theorem renderFrames_rsp2 (n k : Nat) (s : State) : (renderFrames n k s).rsp2 = s.rsp2 :=
  (congrArg State.rsp2 (renderFrames_eq n k s) :)

@[simp] theorem renderFrames_inProgress (n k : Nat) (s : State) : (renderFrames n k s).inProgress = s.inProgress :=
  (congrArg State.inProgress (renderFrames_eq n k s) :)

@[simp] theorem renderFrames_cmdIn (n k : Nat) (s : State) : (renderFrames n k s).cmdIn = s.cmdIn :=
  (congrArg State.cmdIn (renderFrames_eq n k s) :)

@[simp] theorem renderFrames_evIn (n k : Nat) (s : State) : (renderFrames n k s).evIn = s.evIn :=
  (congrArg State.evIn (renderFrames_eq n k s) :)

@[simp] theorem renderFrames_fresh (n k : Nat) (s : State) : (renderFrames n k s).fresh = s.fresh :=
  (congrArg State.fresh (renderFrames_eq n k s) :)

/-- Rendering `m + n` frames is rendering `m` and then the other `n`. -/
theorem renderFrames_add (m n k : Nat) (s : State) :
    renderFrames (m + n) k s = renderFrames n (k + m) (renderFrames m k s) := by
  induction m generalizing k s with
  | zero => simp [renderFrames]
  | succ m ih => rw [Nat.succ_add, renderFrames, ih, renderFrames, show k + 1 + m = k + (m + 1) by omega]

/-- A property of the state that every frame keeps is kept by the frames of a half. -/
theorem renderFrames_induct {P : State → Prop} (h : ∀ k s, P s → P (renderFrame k s)) (n k : Nat) (s : State) (hs : P s) :
    P (renderFrames n k s) := by
  induction n generalizing k s with
  | zero => exact hs
  | succ n ih => exact ih _ _ (h _ _ hs)

theorem forall₂_trans {R : Voice → Voice → Prop} (ht : ∀ a b c, R a b → R b c → R a c) {xs ys zs : List Voice}
    (h : List.Forall₂ R xs ys) (g : List.Forall₂ R ys zs) : List.Forall₂ R xs zs := by
  induction h generalizing zs with
  | nil => exact g
  | cons hab _ ih =>
    cases g with
    | cons hbc g => exact List.Forall₂.cons (ht _ _ _ hab hbc) (ih g)

/-- A reflexive and transitive relation every voice of a mix bears to what it becomes, over the frames of a half. -/
theorem forall₂_renderFrames {R : Voice → Voice → Prop} (hr : ∀ v, R v v) (ht : ∀ a b c, R a b → R b c → R a c)
    (n k : Nat) (s : State) (h : ∀ ν sum v, R v (Voice.mix ν s.cfg sum v).2) :
    List.Forall₂ R s.voices (renderFrames n k s).voices := by
  induction n generalizing k s with
  | zero => exact List.forall₂_same.mpr (fun v _ => hr v)
  | succ n ih =>
    have h1 := ih (k + 1) (renderFrame k s) (by rw [renderFrame_cfg]; exact h)
    rw [renderFrame_voices] at h1
    exact forall₂_trans ht (forall₂_mixVoices h (s.nans k) 0 0 s.voices) h1

theorem wf_outWrite (j : Nat) (o : Sample) {m : Memory} (h : m.wf = true) : (outWrite j o m).wf = true :=
  Memory.wf_writeHalf _ _ h

theorem renderFrames_wf_out (n k : Nat) (s : State) (h : s.out.wf = true) : (renderFrames n k s).out.wf = true :=
  renderFrames_induct (P := fun s => s.out.wf = true)
    (fun k s h => by rw [renderFrame_out]; exact wf_outWrite _ _ (wf_outWrite _ _ h)) n k s h

theorem renderFrames_within_out {size : Nat} (n k : Nat) (s : State) (hk : 4 * (k + n) ≤ size)
    (h : s.out.within size = true) : (renderFrames n k s).out.within size = true := by
  induction n generalizing k s with
  | zero => exact h
  | succ n ih =>
    refine ih _ _ (by omega) ?_
    rw [renderFrame_out]
    exact Memory.within_writeHalf _ (by omega) (Memory.within_writeHalf _ (by omega) h)

/-- A byte of OUT outside the frames that are rendered is as it was (R310). -/
theorem renderFrames_readByte (n k : Nat) (s : State) (hw : s.out.wf = true) {a : Nat}
    (ha : a < 4 * k ∨ 4 * (k + n) ≤ a) : (renderFrames n k s).out.readByte a = s.out.readByte a := by
  induction n generalizing k s with
  | zero => rfl
  | succ n ih =>
    have hw' : (renderFrame k s).out.wf = true := by
      rw [renderFrame_out]
      exact wf_outWrite _ _ (wf_outWrite _ _ hw)
    rw [renderFrames, ih _ _ hw' (by omega), renderFrame_out]
    unfold outWrite
    rw [Memory.readByte_writeHalf_of_ne _ (Memory.wf_writeHalf _ _ hw) (by omega),
      Memory.readByte_writeHalf_of_ne _ hw (by omega)]

/-- Both channels of frame `k` right after it is rendered (R316). -/
theorem outRead_renderFrame (k : Nat) (s : State) (hw : s.out.wf = true) :
    outRead (2 * k) (renderFrame k s).out = frameSample k s ∧
      outRead (2 * k + 1) (renderFrame k s).out = frameSample k s := by
  rw [renderFrame_out]
  constructor
  · rw [outRead_outWrite _ _ _ (wf_outWrite _ _ hw), outRead_outWrite _ _ _ hw]
    simp
  · rw [outRead_outWrite _ _ _ (wf_outWrite _ _ hw)]
    simp

/-- A halfword whose two bytes a render leaves alone. -/
theorem renderFrames_outRead_of_lt (n k : Nat) (s : State) (hw : s.out.wf = true) {j : Nat} (hj : j < 2 * k) :
    outRead j (renderFrames n k s).out = outRead j s.out := by
  unfold outRead Memory.readHalf
  rw [renderFrames_readByte n k s hw (by omega), renderFrames_readByte n k s hw (by omega)]

/-- Frame `k + j` of `n` rendered frames holds the sample of the state the `j` frames before it left (R310, R311). -/
theorem outRead_renderFrames (n k : Nat) (s : State) (hw : s.out.wf = true) {j : Nat} (hj : j < n) :
    outRead (2 * (k + j)) (renderFrames n k s).out = frameSample (k + j) (renderFrames j k s) ∧
      outRead (2 * (k + j) + 1) (renderFrames n k s).out = frameSample (k + j) (renderFrames j k s) := by
  have hwj := renderFrames_wf_out j k s hw
  have hw1 : (renderFrame (k + j) (renderFrames j k s)).out.wf = true := renderFrames_wf_out 1 (k + j) _ hwj
  have hn : n = j + (1 + (n - j - 1)) := by omega
  have he : renderFrames n k s =
      renderFrames (n - j - 1) (k + j + 1) (renderFrame (k + j) (renderFrames j k s)) := by
    rw [hn, renderFrames_add, renderFrames_add]
    simp [renderFrames]
  rw [he, renderFrames_outRead_of_lt _ _ _ hw1 (by omega), renderFrames_outRead_of_lt _ _ _ hw1 (by omega)]
  exact outRead_renderFrame _ _ hwj

/-! ### What a render does not look at -/

/-- The state with other mask, pending bits and response: what the render context neither reads nor writes (R317). -/
def State.withControl (mask half full : Bool) (r0 r1 r2 : Word) (s : State) : State :=
  { s with rmask := mask, pendHalf := half, pendFull := full, rsp0 := r0, rsp1 := r1, rsp2 := r2 }

theorem runSlot_withControl (mask half full : Bool) (r0 r1 r2 : Word) (ν : Nat → BitVec 32) (slot : Slot) (x : F32)
    (s : State) : runSlot ν slot x (s.withControl mask half full r0 r1 r2) =
      ((runSlot ν slot x s).1, (runSlot ν slot x s).2.withControl mask half full r0 r1 r2) := by
  unfold runSlot
  cases slot.active <;> cases slot.effect <;> rfl

theorem fxRender_withControl (mask half full : Bool) (r0 r1 r2 : Word) (k : Nat) (x : F32) (s : State) :
    fxRender k x (s.withControl mask half full r0 r1 r2) =
      ((fxRender k x s).1, (fxRender k x s).2.withControl mask half full r0 r1 r2) := by
  have h0 := runSlot_withControl mask half full r0 r1 r2 (s.nans k unitSlot0) s.slot0 x s
  have h1 := runSlot_withControl mask half full r0 r1 r2 (s.nans k unitSlot1) s.slot1
    (runSlot (s.nans k unitSlot0) s.slot0 x s).1 (runSlot (s.nans k unitSlot0) s.slot0 x s).2
  change runSlot (s.nans k unitSlot1) s.slot1
    (runSlot (s.nans k unitSlot0) s.slot0 x (s.withControl mask half full r0 r1 r2)).1
    (runSlot (s.nans k unitSlot0) s.slot0 x (s.withControl mask half full r0 r1 r2)).2 = _
  rw [h0]
  exact h1

theorem renderFrame_withControl (mask half full : Bool) (r0 r1 r2 : Word) (k : Nat) (s : State) :
    renderFrame k (s.withControl mask half full r0 r1 r2) =
      (renderFrame k s).withControl mask half full r0 r1 r2 := by
  have h := fxRender_withControl mask half full r0 r1 r2 k (mixed k s).1 { s with voices := (mixed k s).2 }
  change { (fxRender k (mixed k s).1
      (State.withControl mask half full r0 r1 r2 { s with voices := (mixed k s).2 })).2 with
    out := outWrite (2 * k + 1) (toS16 (s.nans k unitOutput) s.cfg.oscale (fxRender k (mixed k s).1
        (State.withControl mask half full r0 r1 r2 { s with voices := (mixed k s).2 })).1)
      (outWrite (2 * k) (toS16 (s.nans k unitOutput) s.cfg.oscale (fxRender k (mixed k s).1
        (State.withControl mask half full r0 r1 r2 { s with voices := (mixed k s).2 })).1)
        (fxRender k (mixed k s).1
          (State.withControl mask half full r0 r1 r2 { s with voices := (mixed k s).2 })).2.out) } = _
  rw [h]
  rfl

/-- A render commutes with every change of the mask, the pending bits and the response. -/
theorem renderFrames_withControl (mask half full : Bool) (r0 r1 r2 : Word) (n k : Nat) (s : State) :
    renderFrames n k (s.withControl mask half full r0 r1 r2) =
      (renderFrames n k s).withControl mask half full r0 r1 r2 := by
  induction n generalizing k s with
  | zero => rfl
  | succ n ih => rw [renderFrames, renderFrame_withControl, ih, renderFrames]

/-! ### Service -/

theorem serve_eq (half : Half) (s : State) (h : s.delay.inRange s.cfg.l = true) :
    serve half s = .next (renderFrames s.cfg.h (startFrame half s.cfg) (beginService half s)) := by
  unfold serve
  rw [if_pos h]
  cases half <;> rfl

/-- What a service answers: the H frames of its half, from the state with its pending bit clear (R346). -/
theorem serve_next {half : Half} {s t : State} (h : serve half s = .next t) :
    s.delay.inRange s.cfg.l = true ∧ t = renderFrames s.cfg.h (startFrame half s.cfg) (beginService half s) := by
  by_cases hr : s.delay.inRange s.cfg.l = true
  · rw [serve_eq half s hr] at h
    exact ⟨hr, by cases h; rfl⟩
  · unfold serve at h
    rw [if_neg hr] at h
    cases h

end Sys2Proof.Machine
end

