-- ==== Sys2Proof/Laws/State.lean ====
section
/-! SUPPORT. One lemma a field for each named update of State, so that no later proof unfolds a record update. -/

namespace Sys2Proof.Machine

@[simp] theorem respond_cfg (r0 r1 r2 : Word) (s : State) : (respond r0 r1 r2 s).cfg = s.cfg := rfl
@[simp] theorem respond_voices (r0 r1 r2 : Word) (s : State) : (respond r0 r1 r2 s).voices = s.voices := rfl
@[simp] theorem respond_filter (r0 r1 r2 : Word) (s : State) : (respond r0 r1 r2 s).filter = s.filter := rfl
@[simp] theorem respond_delay (r0 r1 r2 : Word) (s : State) : (respond r0 r1 r2 s).delay = s.delay := rfl
@[simp] theorem respond_dbuf (r0 r1 r2 : Word) (s : State) : (respond r0 r1 r2 s).dbuf = s.dbuf := rfl
@[simp] theorem respond_slot0 (r0 r1 r2 : Word) (s : State) : (respond r0 r1 r2 s).slot0 = s.slot0 := rfl
@[simp] theorem respond_slot1 (r0 r1 r2 : Word) (s : State) : (respond r0 r1 r2 s).slot1 = s.slot1 := rfl
@[simp] theorem respond_lc (r0 r1 r2 : Word) (s : State) : (respond r0 r1 r2 s).lc = s.lc := rfl
@[simp] theorem respond_rmask (r0 r1 r2 : Word) (s : State) : (respond r0 r1 r2 s).rmask = false := rfl
@[simp] theorem respond_pendHalf (r0 r1 r2 : Word) (s : State) : (respond r0 r1 r2 s).pendHalf = s.pendHalf := rfl
@[simp] theorem respond_pendFull (r0 r1 r2 : Word) (s : State) : (respond r0 r1 r2 s).pendFull = s.pendFull := rfl
@[simp] theorem respond_rsp0 (r0 r1 r2 : Word) (s : State) : (respond r0 r1 r2 s).rsp0 = r0 := rfl
@[simp] theorem respond_rsp1 (r0 r1 r2 : Word) (s : State) : (respond r0 r1 r2 s).rsp1 = r1 := rfl
@[simp] theorem respond_rsp2 (r0 r1 r2 : Word) (s : State) : (respond r0 r1 r2 s).rsp2 = r2 := rfl
@[simp] theorem respond_out (r0 r1 r2 : Word) (s : State) : (respond r0 r1 r2 s).out = s.out := rfl
@[simp] theorem respond_inProgress (r0 r1 r2 : Word) (s : State) : (respond r0 r1 r2 s).inProgress = s.inProgress := rfl
@[simp] theorem respond_cmdIn (r0 r1 r2 : Word) (s : State) : (respond r0 r1 r2 s).cmdIn = s.cmdIn := rfl
@[simp] theorem respond_evIn (r0 r1 r2 : Word) (s : State) : (respond r0 r1 r2 s).evIn = s.evIn := rfl
@[simp] theorem respond_fresh (r0 r1 r2 : Word) (s : State) : (respond r0 r1 r2 s).fresh = s.fresh := rfl

@[simp] theorem complete_cfg (s : State) : (complete s).cfg = s.cfg := rfl
@[simp] theorem complete_voices (s : State) : (complete s).voices = s.voices := rfl
@[simp] theorem complete_filter (s : State) : (complete s).filter = s.filter := rfl
@[simp] theorem complete_delay (s : State) : (complete s).delay = s.delay := rfl
@[simp] theorem complete_dbuf (s : State) : (complete s).dbuf = s.dbuf := rfl
@[simp] theorem complete_slot0 (s : State) : (complete s).slot0 = s.slot0 := rfl
@[simp] theorem complete_slot1 (s : State) : (complete s).slot1 = s.slot1 := rfl
@[simp] theorem complete_lc (s : State) : (complete s).lc = s.lc := rfl
@[simp] theorem complete_rmask (s : State) : (complete s).rmask = false := rfl
@[simp] theorem complete_pendHalf (s : State) : (complete s).pendHalf = s.pendHalf := rfl
@[simp] theorem complete_pendFull (s : State) : (complete s).pendFull = s.pendFull := rfl
@[simp] theorem complete_rsp0 (s : State) : (complete s).rsp0 = codeOk := rfl
@[simp] theorem complete_rsp1 (s : State) : (complete s).rsp1 = 0 := rfl
@[simp] theorem complete_rsp2 (s : State) : (complete s).rsp2 = 0 := rfl
@[simp] theorem complete_out (s : State) : (complete s).out = s.out := rfl
@[simp] theorem complete_inProgress (s : State) : (complete s).inProgress = none := rfl
@[simp] theorem complete_cmdIn (s : State) : (complete s).cmdIn = s.cmdIn := rfl
@[simp] theorem complete_evIn (s : State) : (complete s).evIn = s.evIn := rfl
@[simp] theorem complete_fresh (s : State) : (complete s).fresh = s.fresh := rfl

@[simp] theorem paramError_cfg (s : State) : (paramError s).cfg = s.cfg := rfl
@[simp] theorem paramError_voices (s : State) : (paramError s).voices = s.voices := rfl
@[simp] theorem paramError_filter (s : State) : (paramError s).filter = s.filter := rfl
@[simp] theorem paramError_delay (s : State) : (paramError s).delay = s.delay := rfl
@[simp] theorem paramError_dbuf (s : State) : (paramError s).dbuf = s.dbuf := rfl
@[simp] theorem paramError_slot0 (s : State) : (paramError s).slot0 = s.slot0 := rfl
@[simp] theorem paramError_slot1 (s : State) : (paramError s).slot1 = s.slot1 := rfl
@[simp] theorem paramError_lc (s : State) : (paramError s).lc = s.lc := rfl
@[simp] theorem paramError_rmask (s : State) : (paramError s).rmask = false := rfl
@[simp] theorem paramError_pendHalf (s : State) : (paramError s).pendHalf = s.pendHalf := rfl
@[simp] theorem paramError_pendFull (s : State) : (paramError s).pendFull = s.pendFull := rfl
@[simp] theorem paramError_rsp0 (s : State) : (paramError s).rsp0 = codeParamError := rfl
@[simp] theorem paramError_rsp1 (s : State) : (paramError s).rsp1 = 0 := rfl
@[simp] theorem paramError_rsp2 (s : State) : (paramError s).rsp2 = 0 := rfl
@[simp] theorem paramError_out (s : State) : (paramError s).out = s.out := rfl
@[simp] theorem paramError_inProgress (s : State) : (paramError s).inProgress = none := rfl
@[simp] theorem paramError_cmdIn (s : State) : (paramError s).cmdIn = s.cmdIn := rfl
@[simp] theorem paramError_evIn (s : State) : (paramError s).evIn = s.evIn := rfl
@[simp] theorem paramError_fresh (s : State) : (paramError s).fresh = s.fresh := rfl

@[simp] theorem modifyVoice_cfg (i : Nat) (f : Voice → Voice) (s : State) : (s.modifyVoice i f).cfg = s.cfg := rfl
@[simp] theorem modifyVoice_voices (i : Nat) (f : Voice → Voice) (s : State) : (s.modifyVoice i f).voices = s.voices.modify i f := rfl
@[simp] theorem modifyVoice_filter (i : Nat) (f : Voice → Voice) (s : State) : (s.modifyVoice i f).filter = s.filter := rfl
@[simp] theorem modifyVoice_delay (i : Nat) (f : Voice → Voice) (s : State) : (s.modifyVoice i f).delay = s.delay := rfl
@[simp] theorem modifyVoice_dbuf (i : Nat) (f : Voice → Voice) (s : State) : (s.modifyVoice i f).dbuf = s.dbuf := rfl
@[simp] theorem modifyVoice_slot0 (i : Nat) (f : Voice → Voice) (s : State) : (s.modifyVoice i f).slot0 = s.slot0 := rfl
@[simp] theorem modifyVoice_slot1 (i : Nat) (f : Voice → Voice) (s : State) : (s.modifyVoice i f).slot1 = s.slot1 := rfl
@[simp] theorem modifyVoice_lc (i : Nat) (f : Voice → Voice) (s : State) : (s.modifyVoice i f).lc = s.lc := rfl
@[simp] theorem modifyVoice_rmask (i : Nat) (f : Voice → Voice) (s : State) : (s.modifyVoice i f).rmask = s.rmask := rfl
@[simp] theorem modifyVoice_pendHalf (i : Nat) (f : Voice → Voice) (s : State) : (s.modifyVoice i f).pendHalf = s.pendHalf := rfl
@[simp] theorem modifyVoice_pendFull (i : Nat) (f : Voice → Voice) (s : State) : (s.modifyVoice i f).pendFull = s.pendFull := rfl
@[simp] theorem modifyVoice_rsp0 (i : Nat) (f : Voice → Voice) (s : State) : (s.modifyVoice i f).rsp0 = s.rsp0 := rfl
@[simp] theorem modifyVoice_rsp1 (i : Nat) (f : Voice → Voice) (s : State) : (s.modifyVoice i f).rsp1 = s.rsp1 := rfl
@[simp] theorem modifyVoice_rsp2 (i : Nat) (f : Voice → Voice) (s : State) : (s.modifyVoice i f).rsp2 = s.rsp2 := rfl
@[simp] theorem modifyVoice_out (i : Nat) (f : Voice → Voice) (s : State) : (s.modifyVoice i f).out = s.out := rfl
@[simp] theorem modifyVoice_inProgress (i : Nat) (f : Voice → Voice) (s : State) : (s.modifyVoice i f).inProgress = s.inProgress := rfl
@[simp] theorem modifyVoice_cmdIn (i : Nat) (f : Voice → Voice) (s : State) : (s.modifyVoice i f).cmdIn = s.cmdIn := rfl
@[simp] theorem modifyVoice_evIn (i : Nat) (f : Voice → Voice) (s : State) : (s.modifyVoice i f).evIn = s.evIn := rfl
@[simp] theorem modifyVoice_fresh (i : Nat) (f : Voice → Voice) (s : State) : (s.modifyVoice i f).fresh = s.fresh := rfl

@[simp] theorem modifySlot_cfg (n : SlotName) (f : Slot → Slot) (s : State) : (State.modifySlot n f s).cfg = s.cfg := by cases n <;> rfl
@[simp] theorem modifySlot_voices (n : SlotName) (f : Slot → Slot) (s : State) : (State.modifySlot n f s).voices = s.voices := by cases n <;> rfl
@[simp] theorem modifySlot_filter (n : SlotName) (f : Slot → Slot) (s : State) : (State.modifySlot n f s).filter = s.filter := by cases n <;> rfl
@[simp] theorem modifySlot_delay (n : SlotName) (f : Slot → Slot) (s : State) : (State.modifySlot n f s).delay = s.delay := by cases n <;> rfl
@[simp] theorem modifySlot_dbuf (n : SlotName) (f : Slot → Slot) (s : State) : (State.modifySlot n f s).dbuf = s.dbuf := by cases n <;> rfl
@[simp] theorem modifySlot_lc (n : SlotName) (f : Slot → Slot) (s : State) : (State.modifySlot n f s).lc = s.lc := by cases n <;> rfl
@[simp] theorem modifySlot_rmask (n : SlotName) (f : Slot → Slot) (s : State) : (State.modifySlot n f s).rmask = s.rmask := by cases n <;> rfl
@[simp] theorem modifySlot_pendHalf (n : SlotName) (f : Slot → Slot) (s : State) : (State.modifySlot n f s).pendHalf = s.pendHalf := by cases n <;> rfl
@[simp] theorem modifySlot_pendFull (n : SlotName) (f : Slot → Slot) (s : State) : (State.modifySlot n f s).pendFull = s.pendFull := by cases n <;> rfl
@[simp] theorem modifySlot_rsp0 (n : SlotName) (f : Slot → Slot) (s : State) : (State.modifySlot n f s).rsp0 = s.rsp0 := by cases n <;> rfl
@[simp] theorem modifySlot_rsp1 (n : SlotName) (f : Slot → Slot) (s : State) : (State.modifySlot n f s).rsp1 = s.rsp1 := by cases n <;> rfl
@[simp] theorem modifySlot_rsp2 (n : SlotName) (f : Slot → Slot) (s : State) : (State.modifySlot n f s).rsp2 = s.rsp2 := by cases n <;> rfl
@[simp] theorem modifySlot_out (n : SlotName) (f : Slot → Slot) (s : State) : (State.modifySlot n f s).out = s.out := by cases n <;> rfl
@[simp] theorem modifySlot_inProgress (n : SlotName) (f : Slot → Slot) (s : State) : (State.modifySlot n f s).inProgress = s.inProgress := by cases n <;> rfl
@[simp] theorem modifySlot_cmdIn (n : SlotName) (f : Slot → Slot) (s : State) : (State.modifySlot n f s).cmdIn = s.cmdIn := by cases n <;> rfl
@[simp] theorem modifySlot_evIn (n : SlotName) (f : Slot → Slot) (s : State) : (State.modifySlot n f s).evIn = s.evIn := by cases n <;> rfl
@[simp] theorem modifySlot_fresh (n : SlotName) (f : Slot → Slot) (s : State) : (State.modifySlot n f s).fresh = s.fresh := by cases n <;> rfl

@[simp] theorem tick_cfg (s : State) : (s.tick).cfg = s.cfg := rfl
@[simp] theorem tick_voices (s : State) : (s.tick).voices = s.voices := rfl
@[simp] theorem tick_filter (s : State) : (s.tick).filter = s.filter := rfl
@[simp] theorem tick_delay (s : State) : (s.tick).delay = s.delay := rfl
@[simp] theorem tick_dbuf (s : State) : (s.tick).dbuf = s.dbuf := rfl
@[simp] theorem tick_slot0 (s : State) : (s.tick).slot0 = s.slot0 := rfl
@[simp] theorem tick_slot1 (s : State) : (s.tick).slot1 = s.slot1 := rfl
@[simp] theorem tick_lc (s : State) : (s.tick).lc = s.lc := rfl
@[simp] theorem tick_rmask (s : State) : (s.tick).rmask = s.rmask := rfl
@[simp] theorem tick_pendHalf (s : State) : (s.tick).pendHalf = s.pendHalf := rfl
@[simp] theorem tick_pendFull (s : State) : (s.tick).pendFull = s.pendFull := rfl
@[simp] theorem tick_rsp0 (s : State) : (s.tick).rsp0 = s.rsp0 := rfl
@[simp] theorem tick_rsp1 (s : State) : (s.tick).rsp1 = s.rsp1 := rfl
@[simp] theorem tick_rsp2 (s : State) : (s.tick).rsp2 = s.rsp2 := rfl
@[simp] theorem tick_out (s : State) : (s.tick).out = s.out := rfl
@[simp] theorem tick_inProgress (s : State) : (s.tick).inProgress = s.inProgress := rfl
@[simp] theorem tick_cmdIn (s : State) : (s.tick).cmdIn = s.cmdIn := rfl
@[simp] theorem tick_evIn (s : State) : (s.tick).evIn = s.evIn.tail := rfl
@[simp] theorem tick_fresh (s : State) : (s.tick).fresh = s.fresh + 1 := rfl

@[simp] theorem beginService_cfg (half : Half) (s : State) : (beginService half s).cfg = s.cfg := by cases half <;> simp [beginService]
@[simp] theorem beginService_voices (half : Half) (s : State) : (beginService half s).voices = s.voices := by cases half <;> simp [beginService]
@[simp] theorem beginService_filter (half : Half) (s : State) : (beginService half s).filter = s.filter := by cases half <;> simp [beginService]
@[simp] theorem beginService_delay (half : Half) (s : State) : (beginService half s).delay = s.delay := by cases half <;> simp [beginService]
@[simp] theorem beginService_dbuf (half : Half) (s : State) : (beginService half s).dbuf = s.dbuf := by cases half <;> simp [beginService]
@[simp] theorem beginService_slot0 (half : Half) (s : State) : (beginService half s).slot0 = s.slot0 := by cases half <;> simp [beginService]
@[simp] theorem beginService_slot1 (half : Half) (s : State) : (beginService half s).slot1 = s.slot1 := by cases half <;> simp [beginService]
@[simp] theorem beginService_lc (half : Half) (s : State) : (beginService half s).lc = s.lc := by cases half <;> simp [beginService]
@[simp] theorem beginService_rmask (half : Half) (s : State) : (beginService half s).rmask = s.rmask := by cases half <;> simp [beginService]
@[simp] theorem beginService_pendHalf (half : Half) (s : State) : (beginService half s).pendHalf = (s.pendHalf && decide (half = .second)) := by cases half <;> simp [beginService]
@[simp] theorem beginService_pendFull (half : Half) (s : State) : (beginService half s).pendFull = (s.pendFull && decide (half = .first)) := by cases half <;> simp [beginService]
@[simp] theorem beginService_rsp0 (half : Half) (s : State) : (beginService half s).rsp0 = s.rsp0 := by cases half <;> simp [beginService]
@[simp] theorem beginService_rsp1 (half : Half) (s : State) : (beginService half s).rsp1 = s.rsp1 := by cases half <;> simp [beginService]
@[simp] theorem beginService_rsp2 (half : Half) (s : State) : (beginService half s).rsp2 = s.rsp2 := by cases half <;> simp [beginService]
@[simp] theorem beginService_out (half : Half) (s : State) : (beginService half s).out = s.out := by cases half <;> simp [beginService]
@[simp] theorem beginService_inProgress (half : Half) (s : State) : (beginService half s).inProgress = s.inProgress := by cases half <;> simp [beginService]
@[simp] theorem beginService_cmdIn (half : Half) (s : State) : (beginService half s).cmdIn = s.cmdIn := by cases half <;> simp [beginService]
@[simp] theorem beginService_evIn (half : Half) (s : State) : (beginService half s).evIn = s.evIn := by cases half <;> simp [beginService]
@[simp] theorem beginService_fresh (half : Half) (s : State) : (beginService half s).fresh = s.fresh := by cases half <;> simp [beginService]

@[simp] theorem arrive_cfg (half : Half) (s : State) : (arrive half s).cfg = s.cfg := by
  unfold arrive; split <;> cases half <;> simp_all
@[simp] theorem arrive_voices (half : Half) (s : State) : (arrive half s).voices = s.voices := by
  unfold arrive; split <;> cases half <;> simp_all
@[simp] theorem arrive_filter (half : Half) (s : State) : (arrive half s).filter = s.filter := by
  unfold arrive; split <;> cases half <;> simp_all
@[simp] theorem arrive_delay (half : Half) (s : State) : (arrive half s).delay = s.delay := by
  unfold arrive; split <;> cases half <;> simp_all
@[simp] theorem arrive_dbuf (half : Half) (s : State) : (arrive half s).dbuf = s.dbuf := by
  unfold arrive; split <;> cases half <;> simp_all
@[simp] theorem arrive_slot0 (half : Half) (s : State) : (arrive half s).slot0 = s.slot0 := by
  unfold arrive; split <;> cases half <;> simp_all
@[simp] theorem arrive_slot1 (half : Half) (s : State) : (arrive half s).slot1 = s.slot1 := by
  unfold arrive; split <;> cases half <;> simp_all
@[simp] theorem arrive_lc (half : Half) (s : State) : (arrive half s).lc = s.lc := by
  unfold arrive; split <;> cases half <;> simp_all
@[simp] theorem arrive_rmask (half : Half) (s : State) : (arrive half s).rmask = s.rmask := by
  unfold arrive; split <;> cases half <;> simp_all
@[simp] theorem arrive_pendHalf (half : Half) (s : State) : (arrive half s).pendHalf = (s.pendHalf || (decide (s.lc = .running) && decide (half = .first))) := by
  unfold arrive; split <;> cases half <;> simp_all
@[simp] theorem arrive_pendFull (half : Half) (s : State) : (arrive half s).pendFull = (s.pendFull || (decide (s.lc = .running) && decide (half = .second))) := by
  unfold arrive; split <;> cases half <;> simp_all
@[simp] theorem arrive_rsp0 (half : Half) (s : State) : (arrive half s).rsp0 = s.rsp0 := by
  unfold arrive; split <;> cases half <;> simp_all
@[simp] theorem arrive_rsp1 (half : Half) (s : State) : (arrive half s).rsp1 = s.rsp1 := by
  unfold arrive; split <;> cases half <;> simp_all
@[simp] theorem arrive_rsp2 (half : Half) (s : State) : (arrive half s).rsp2 = s.rsp2 := by
  unfold arrive; split <;> cases half <;> simp_all
@[simp] theorem arrive_out (half : Half) (s : State) : (arrive half s).out = s.out := by
  unfold arrive; split <;> cases half <;> simp_all
@[simp] theorem arrive_inProgress (half : Half) (s : State) : (arrive half s).inProgress = s.inProgress := by
  unfold arrive; split <;> cases half <;> simp_all
@[simp] theorem arrive_cmdIn (half : Half) (s : State) : (arrive half s).cmdIn = s.cmdIn := by
  unfold arrive; split <;> cases half <;> simp_all
@[simp] theorem arrive_evIn (half : Half) (s : State) : (arrive half s).evIn = s.evIn := by
  unfold arrive; split <;> cases half <;> simp_all
@[simp] theorem arrive_fresh (half : Half) (s : State) : (arrive half s).fresh = s.fresh := by
  unfold arrive; split <;> cases half <;> simp_all

/-- An update under the guard leaves RMASK clear (R343). -/
@[simp] theorem guarded_rmask (f : State → State) (s : State) : (guarded f s).rmask = false := rfl

@[simp] theorem guarded_cfg (f : State → State) (s : State) : (guarded f s).cfg = (f { s with rmask := true }).cfg := rfl
@[simp] theorem guarded_voices (f : State → State) (s : State) : (guarded f s).voices = (f { s with rmask := true }).voices := rfl
@[simp] theorem guarded_filter (f : State → State) (s : State) : (guarded f s).filter = (f { s with rmask := true }).filter := rfl
@[simp] theorem guarded_delay (f : State → State) (s : State) : (guarded f s).delay = (f { s with rmask := true }).delay := rfl
@[simp] theorem guarded_dbuf (f : State → State) (s : State) : (guarded f s).dbuf = (f { s with rmask := true }).dbuf := rfl
@[simp] theorem guarded_slot0 (f : State → State) (s : State) : (guarded f s).slot0 = (f { s with rmask := true }).slot0 := rfl
@[simp] theorem guarded_slot1 (f : State → State) (s : State) : (guarded f s).slot1 = (f { s with rmask := true }).slot1 := rfl
@[simp] theorem guarded_lc (f : State → State) (s : State) : (guarded f s).lc = (f { s with rmask := true }).lc := rfl
@[simp] theorem guarded_pendHalf (f : State → State) (s : State) : (guarded f s).pendHalf = (f { s with rmask := true }).pendHalf := rfl
@[simp] theorem guarded_pendFull (f : State → State) (s : State) : (guarded f s).pendFull = (f { s with rmask := true }).pendFull := rfl
@[simp] theorem guarded_rsp0 (f : State → State) (s : State) : (guarded f s).rsp0 = (f { s with rmask := true }).rsp0 := rfl
@[simp] theorem guarded_rsp1 (f : State → State) (s : State) : (guarded f s).rsp1 = (f { s with rmask := true }).rsp1 := rfl
@[simp] theorem guarded_rsp2 (f : State → State) (s : State) : (guarded f s).rsp2 = (f { s with rmask := true }).rsp2 := rfl
@[simp] theorem guarded_out (f : State → State) (s : State) : (guarded f s).out = (f { s with rmask := true }).out := rfl
@[simp] theorem guarded_inProgress (f : State → State) (s : State) : (guarded f s).inProgress = (f { s with rmask := true }).inProgress := rfl
@[simp] theorem guarded_cmdIn (f : State → State) (s : State) : (guarded f s).cmdIn = (f { s with rmask := true }).cmdIn := rfl
@[simp] theorem guarded_evIn (f : State → State) (s : State) : (guarded f s).evIn = (f { s with rmask := true }).evIn := rfl
@[simp] theorem guarded_fresh (f : State → State) (s : State) : (guarded f s).fresh = (f { s with rmask := true }).fresh := rfl

/-- Every field of a command's answer, at once. -/
theorem respond_eq (r0 r1 r2 : Word) (s : State) :
    respond r0 r1 r2 s = { s with rsp0 := r0, rsp1 := r1, rsp2 := r2, rmask := false } := rfl

theorem complete_eq (s : State) :
    complete s = { s with rsp0 := 0, rsp1 := 0, rsp2 := 0, rmask := false, inProgress := none } := rfl

theorem paramError_eq (s : State) :
    paramError s = { s with rsp0 := 1, rsp1 := 0, rsp2 := 0, rmask := false, inProgress := none } := rfl

@[simp] theorem modifySlot_slot0 (n : SlotName) (f : Slot → Slot) (s : State) :
    (State.modifySlot n f s).slot0 = if n = .s0 then f s.slot0 else s.slot0 := by cases n <;> rfl

@[simp] theorem modifySlot_slot1 (n : SlotName) (f : Slot → Slot) (s : State) :
    (State.modifySlot n f s).slot1 = if n = .s1 then f s.slot1 else s.slot1 := by cases n <;> rfl

end Sys2Proof.Machine
end

