-- ==== Sys2Proof/Laws/Step.lean ====
section
/-! SUPPORT. What a step can do, said once: the inversion of `nextMove`, of the execution of a command, and of each meaning. -/

namespace Sys2Proof.Machine

/-! ### The next move -/

/-- What the next move of a block can be (R345, R346, R347, R381). -/
theorem nextMove_cases (s : State) :
    (∃ c, failingCheck s.cfg = some c ∧ nextMove s = .refuse c) ∨
    (failingCheck s.cfg = none ∧
      ((∃ i, decodeEvent s.eventCode = .ok i ∧ nextMove s = .run i s.tick) ∨
       (s.eventCode = 0 ∧ s.noPending = false ∧ s.rmask = true ∧ nextMove s = .wait s.tick) ∨
       (s.eventCode = 0 ∧ s.noPending = false ∧ s.rmask = false ∧ nextMove s = .serve (servedHalf s.tick) s.tick) ∨
       (s.eventCode = 0 ∧ s.noPending = true ∧
         ((∃ p, s.inProgress = some p ∧ nextMove s = .run p.instr s.tick) ∨
          (s.inProgress = none ∧ s.cmdIn = [] ∧ nextMove s = .wait s.tick) ∨
          (∃ p rest, s.inProgress = none ∧ s.cmdIn = p :: rest ∧
            ((∃ i, decodePacket p = .ok i ∧ nextMove s = .run i { s.tick with cmdIn := rest }) ∨
             (∃ e, decodePacket p = .error e ∧ nextMove s = .reject { s.tick with cmdIn := rest }))))))) := by
  unfold nextMove
  cases hc : failingCheck s.cfg with
  | some c => exact Or.inl ⟨c, rfl, rfl⟩
  | none =>
    refine Or.inr ⟨rfl, ?_⟩
    simp only
    cases he : decodeEvent s.eventCode with
    | ok i => exact Or.inl ⟨i, rfl, rfl⟩
    | error e =>
      have h0 : s.eventCode = 0 := by
        have all : ∀ n : Fin 4, decodeEvent (BitVec.ofFin n) = .error e → BitVec.ofFin n = (0 : BitVec 2) := by
          cases e <;> decide
        exact all s.eventCode.toFin he
      refine Or.inr ?_
      simp only
      cases hp : s.noPending with
      | false =>
        cases hm : s.rmask with
        | true => exact Or.inl ⟨h0, rfl, rfl, rfl⟩
        | false => exact Or.inr (Or.inl ⟨h0, rfl, rfl, rfl⟩)
      | true =>
        refine Or.inr (Or.inr ⟨h0, rfl, ?_⟩)
        simp only [if_true]
        unfold commandMove
        cases hi : s.inProgress with
        | some p => exact Or.inl ⟨p, rfl, rfl⟩
        | none =>
          refine Or.inr ?_
          cases hq : s.cmdIn with
          | nil => exact Or.inl ⟨rfl, rfl, rfl⟩
          | cons p rest =>
            refine Or.inr ⟨p, rest, rfl, rfl, ?_⟩
            cases hd : decodePacket p with
            | ok i => exact Or.inl ⟨i, rfl, by simp only [hd]⟩
            | error e => exact Or.inr ⟨e, rfl, by simp only [hd]⟩

/-- What a step answers, by its move. -/
theorem step_run {s u : State} {i : Instr} (h : nextMove s = .run i u) : step s = exec i u := by
  unfold step
  rw [h]

theorem step_serve {s u : State} {half : Half} (h : nextMove s = .serve half u) : step s = serve half u := by
  unfold step
  rw [h]

theorem step_reject {s u : State} (h : nextMove s = .reject u) : step s = .next (paramError u) := by
  unfold step
  rw [h]

theorem step_wait {s u : State} (h : nextMove s = .wait u) : step s = .next u := by
  unfold step
  rw [h]

/-! ### Runs -/

@[simp] theorem State.after_zero (s : State) : State.after 0 s = .next s := rfl

theorem State.after_succ {s t : State} (n : Nat) (h : step s = .next t) : State.after (n + 1) s = State.after n t := by
  rw [State.after, h]

theorem State.after_succ_of_stop {s : State} (n : Nat) (h : ∀ t, step s ≠ .next t) (u : State) :
    State.after (n + 1) s ≠ .next u := by
  rw [State.after]
  cases hs : step s with
  | next t => exact absurd hs (h t)
  | fault r => simp
  | refused r => simp

/-- A run of `n + 1` steps that answers is a run of `n` steps that answers, and one step more. -/
theorem State.after_succ_next {s u : State} (n : Nat) (h : State.after (n + 1) s = .next u) :
    ∃ t, State.after n s = .next t ∧ step t = .next u := by
  induction n generalizing s with
  | zero =>
    cases hs : step s with
    | next v =>
      rw [State.after_succ 0 hs, State.after_zero] at h
      exact ⟨s, rfl, by rw [hs, h]⟩
    | fault r => exact absurd h (State.after_succ_of_stop 0 (by simp [hs]) u)
    | refused r => exact absurd h (State.after_succ_of_stop 0 (by simp [hs]) u)
  | succ n ih =>
    cases hs : step s with
    | next v =>
      rw [State.after_succ (n + 1) hs] at h
      obtain ⟨t, ht, hu⟩ := ih h
      exact ⟨t, by rw [State.after_succ n hs, ht], hu⟩
    | fault r => exact absurd h (State.after_succ_of_stop (n + 1) (by simp [hs]) u)
    | refused r => exact absurd h (State.after_succ_of_stop (n + 1) (by simp [hs]) u)

/-! ### The execution of a command -/

/-- What one transition of a command does (R270): with no command in progress a failed check raises ParamError; otherwise
the next sub-step is applied under the guard and the command is in progress; and when none is left the response is
written. -/
theorem execute_cases (i : Instr) (legal : Bool) (us : List (State → State)) (s : State) :
    (s.inProgress = none ∧ legal = false ∧ execute i legal us s = .next (paramError s)) ∨
    ((s.inProgress = none → legal = true) ∧
      ((∃ u, us[s.subStep]? = some u ∧
          execute i legal us s = .next { guarded u s with inProgress := some { instr := i, done := s.subStep + 1 } }) ∨
        (us.length ≤ s.subStep ∧ execute i legal us s = .next (complete s)))) := by
  have hn : s.inProgress.isNone = true ↔ s.inProgress = none := Option.isNone_iff_eq_none
  unfold execute
  split
  · rename_i h
    simp only [Bool.and_eq_true, Bool.not_eq_true'] at h
    exact Or.inl ⟨hn.mp h.1, h.2, rfl⟩
  · rename_i h
    refine Or.inr ⟨fun h0 => by simpa [h0] using h, ?_⟩
    cases hu : us[s.subStep]? with
    | some u => exact Or.inl ⟨u, rfl, rfl⟩
    | none => exact Or.inr ⟨List.getElem?_eq_none_iff.mp hu, rfl⟩

/-- At a command boundary no sub-step is done. -/
theorem subStep_of_none {s : State} (h : s.inProgress = none) : s.subStep = 0 := by
  unfold State.subStep
  rw [h]

theorem subStep_of_some {s : State} {p : Progress} (h : s.inProgress = some p) : s.subStep = p.done := by
  unfold State.subStep
  rw [h]

/-- The voices a legal index names, as the list the sub-steps run over: one voice, or every voice in index order (R271). -/
theorem targets_cases {idx : BitVec 8} {nv : Nat} {vs : List Nat} (h : targets idx nv = some vs) :
    (idx.toNat < nv ∧ vs = [idx.toNat]) ∨ (idx = 0xFF ∧ vs = List.range nv) := by
  unfold targets at h
  split_ifs at h with h2 h3
  · exact Or.inl ⟨h2, (Option.some.inj h).symm⟩
  · exact Or.inr ⟨h3, (Option.some.inj h).symm⟩

/-! ### What no instruction stops on, and what none writes -/

/-- A state with the same inputs, counter and configuration. -/
def SameInputs (s t : State) : Prop :=
  t.evIn = s.evIn ∧ t.cmdIn = s.cmdIn ∧ t.fresh = s.fresh ∧ t.cfg = s.cfg

theorem SameInputs.refl (s : State) : SameInputs s s := ⟨rfl, rfl, rfl, rfl⟩

/-- What a sub-step of a command leaves alone: the inputs, the configuration and the response registers (R270). -/
def IsSubStep (u : State → State) : Prop := ∀ v, SameInputs v (u v) ∧ (u v).response = v.response

theorem isSubStep_modifyVoice (n : Nat) (f : State → Voice → Voice) :
    IsSubStep (fun s => s.modifyVoice n (f s)) := fun _ => ⟨SameInputs.refl _, rfl⟩

theorem isSubStep_modifySlot (n : SlotName) (f : Slot → Slot) : IsSubStep (State.modifySlot n f) := by
  intro v
  cases n <;> exact ⟨SameInputs.refl _, rfl⟩

/-- What an instruction is: an event, which arrives; a getter, which answers at once; or a command of sub-steps and a
response (R270, R345). -/
theorem exec_cases (i : Instr) (s : State) :
    (i.isEvent = true ∧ (exec i s = .next s ∨ ∃ half, exec i s = .next (arrive half s))) ∨
    (i.isEvent = false ∧
      ((∃ r0 r1 r2, exec i s = .next { respond r0 r1 r2 s with inProgress := none }) ∨
        ∃ legal us, exec i s = execute i legal us s ∧ ∀ u ∈ us, IsSubStep u)) := by
  have voice : ∀ idx legal (f : Nat → State → Voice → Voice), exec i s = voiceCommand i idx legal f s →
      ∃ legal us, exec i s = execute i legal us s ∧ ∀ u ∈ us, IsSubStep u := by
    intro idx legal f h
    refine ⟨_, _, h, fun u hu => ?_⟩
    obtain ⟨n, -, rfl⟩ := List.mem_map.mp hu
    exact isSubStep_modifyVoice n (f n)
  have slot : ∀ sl legal f, exec i s = slotCommand i sl legal f s →
      ∃ legal us, exec i s = execute i legal us s ∧ ∀ u ∈ us, IsSubStep u := by
    intro sl legal f h
    refine ⟨_, _, h, fun u hu => ?_⟩
    obtain ⟨n, -, rfl⟩ := List.mem_map.mp hu
    exact isSubStep_modifySlot n f
  have one : ∀ legal (u : State → State), exec i s = execute i legal [u] s → IsSubStep u →
      ∃ legal us, exec i s = execute i legal us s ∧ ∀ u ∈ us, IsSubStep u :=
    fun legal u h hu => ⟨_, _, h, fun v hv => List.mem_singleton.mp hv ▸ hu⟩
  cases i with
  | activateVoice idx on => exact Or.inr ⟨rfl, Or.inr (voice _ _ _ rfl)⟩
  | setFrequency idx freq => exact Or.inr ⟨rfl, Or.inr (voice _ _ _ rfl)⟩
  | setMidiNote idx note velocity on => exact Or.inr ⟨rfl, Or.inr (voice _ _ _ rfl)⟩
  | setWaveform idx wf => exact Or.inr ⟨rfl, Or.inr (voice _ _ _ rfl)⟩
  | updateFilter cutoff q => exact Or.inr ⟨rfl, Or.inr (one _ _ rfl fun _ => ⟨SameInputs.refl _, rfl⟩)⟩
  | updateDelay time feedback => exact Or.inr ⟨rfl, Or.inr (one _ _ rfl fun _ => ⟨SameInputs.refl _, rfl⟩)⟩
  | effectSetSlot sl effect => exact Or.inr ⟨rfl, Or.inr (slot _ _ _ rfl)⟩
  | effectActivateSlot sl on => exact Or.inr ⟨rfl, Or.inr (slot _ _ _ rfl)⟩
  | getFilter => exact Or.inr ⟨rfl, Or.inl ⟨_, _, _, rfl⟩⟩
  | getDelay => exact Or.inr ⟨rfl, Or.inl ⟨_, _, _, rfl⟩⟩
  | init => exact Or.inr ⟨rfl, Or.inr (one _ _ rfl fun _ => ⟨SameInputs.refl _, rfl⟩)⟩
  | deinit => exact Or.inr ⟨rfl, Or.inr (one _ _ rfl fun _ => ⟨SameInputs.refl _, rfl⟩)⟩
  | evHalf => exact Or.inl ⟨rfl, Or.inr ⟨.first, rfl⟩⟩
  | evFull => exact Or.inl ⟨rfl, Or.inr ⟨.second, rfl⟩⟩
  | evError => exact Or.inl ⟨rfl, Or.inl rfl⟩

theorem sameInputs_arrive (half : Half) (s : State) : SameInputs s (arrive half s) := by
  unfold arrive
  split
  · cases half <;> exact ⟨rfl, rfl, rfl, rfl⟩
  · exact ⟨rfl, rfl, rfl, rfl⟩

/-- Every instruction answers a next state, and writes neither the inputs nor the configuration. -/
theorem exec_next (i : Instr) (s : State) : ∃ t, exec i s = .next t ∧ SameInputs s t := by
  rcases exec_cases i s with ⟨-, e | ⟨half, e⟩⟩ | ⟨-, ⟨r0, r1, r2, e⟩ | ⟨legal, us, e, hus⟩⟩
  · exact ⟨_, e, SameInputs.refl s⟩
  · exact ⟨_, e, sameInputs_arrive half s⟩
  · exact ⟨_, e, rfl, rfl, rfl, rfl⟩
  · rw [e]
    rcases execute_cases i legal us s with ⟨-, -, e'⟩ | ⟨-, ⟨u, hu, e'⟩ | ⟨-, e'⟩⟩
    · exact ⟨_, e', rfl, rfl, rfl, rfl⟩
    · exact ⟨_, e', (hus u (List.mem_of_getElem? hu) { s with rmask := true }).1⟩
    · exact ⟨_, e', rfl, rfl, rfl, rfl⟩

/-- A service writes no input. -/
theorem serve_evIn {half : Half} {s t : State} (h : serve half s = .next t) : t.evIn = s.evIn := by
  obtain ⟨-, rfl⟩ := serve_next h
  rw [renderFrames_evIn]
  cases half <;> rfl

/-- A step reads one event code (R107: "At most one event is presented per step"). -/
theorem step_evIn {s t : State} (h : step s = .next t) : t.evIn = s.evIn.tail := by
  have run : ∀ (i : Instr) (u : State), u.evIn = s.evIn.tail → exec i u = .next t → t.evIn = s.evIn.tail := by
    intro i u hu hx
    obtain ⟨v, hv, he, -⟩ := exec_next i u
    rw [hx] at hv
    cases hv
    rw [he, hu]
  rcases nextMove_cases s with ⟨c, -, e⟩ | ⟨-, ⟨i, -, e⟩ | ⟨-, -, -, e⟩ | ⟨-, -, -, e⟩ | ⟨-, -, ⟨p, -, e⟩ | ⟨-, -, e⟩ |
    ⟨p, rest, -, -, ⟨i, -, e⟩ | ⟨er, -, e⟩⟩⟩⟩
  · unfold step at h
    rw [e] at h
    cases h
  · rw [step_run e] at h
    exact run i _ rfl h
  · rw [step_wait e] at h
    cases h
    rfl
  · rw [step_serve e] at h
    exact serve_evIn h
  · rw [step_run e] at h
    exact run p.instr _ rfl h
  · rw [step_wait e] at h
    cases h
    rfl
  · rw [step_run e] at h
    exact run i _ rfl h
  · rw [step_reject e] at h
    cases h
    rfl

/-! ### The invariant, and the shared ways a command ends -/

/-- Registers the invariant leaves free, or that a command's end writes with legal values. -/
theorem State.Inv.respond {s : State} {r0 : Word} (r1 r2 : Word) (h : s.Inv) (h0 : r0 = 0x000 ∨ r0 = 0x001 ∨ r0 = 0x100) :
    State.Inv { respond r0 r1 r2 s with inProgress := none } :=
  { h with mask := rfl, response := h0, progress := fun p hp => by cases hp }

theorem State.Inv.complete {s : State} (h : s.Inv) : (complete s).Inv := h.respond 0 0 (Or.inl rfl)

theorem State.Inv.paramError {s : State} (h : s.Inv) : (paramError s).Inv := h.respond 0 0 (Or.inr (Or.inl rfl))

theorem State.Inv.tick {s : State} (h : s.Inv) : s.tick.Inv := { h with }

theorem State.Inv.dropPacket {s : State} (rest : List Packet) (h : s.Inv) : State.Inv { s with cmdIn := rest } :=
  { h with }

theorem State.Inv.arrive {s : State} (half : Half) (h : s.Inv) : (arrive half s).Inv := by
  unfold Machine.arrive
  split
  · cases half
    · exact { h with }
    · exact { h with }
  · exact h

/-- Changing one voice by an operation that keeps its invariant. -/
theorem State.Inv.modifyVoice {s : State} (h : s.Inv) {g : Voice → Voice} (hg : ∀ v, v.Inv s.cfg → (g v).Inv s.cfg)
    (n : Nat) : State.Inv { s with voices := s.voices.modify n g } :=
  { h with
    voiceCount := by
      have := h.voiceCount
      simpa using this
    voices := by
      intro v hv
      rw [List.mem_iff_getElem?] at hv
      obtain ⟨j, hj⟩ := hv
      rw [List.getElem?_modify] at hj
      cases hw : s.voices[j]? with
      | none => rw [hw] at hj; cases hj
      | some w =>
        have hmem : w ∈ s.voices := List.mem_of_getElem? hw
        rw [hw] at hj
        change some (if n = j then g w else w) = some v at hj
        cases hj
        split
        · exact hg w (h.voices w hmem)
        · exact h.voices w hmem }

end Sys2Proof.Machine
end

