-- ==== Sys2Proof/Machine/Assembler.lean ====
section
/-! DEFINITION. The text syntax of command sequences and its pseudo-instructions (R110, R111). It stands outside the
machine: it turns a text into the operations a host presents, and `encode` gives their words. -/

namespace Sys2Proof.Asm

abbrev Text := List Char

def isBlank (c : Char) : Bool := c == ' ' || c == '\t' || c == '\r'

/-- Without the blanks at both ends. -/
def trim (t : Text) : Text := ((t.dropWhile isBlank).reverse.dropWhile isBlank).reverse

/-- The parts of a text between the separators `c`. -/
def splitAt (c : Char) : Text → List Text
  | [] => [[]]
  | d :: t =>
    match splitAt c t with
    | [] => [[d]]
    | p :: ps => if d == c then [] :: p :: ps else (d :: p) :: ps

def digitValue (base : Nat) (c : Char) : Option Nat :=
  let n := c.toNat
  let d :=
    if 0x30 ≤ n ∧ n ≤ 0x39 then n - 0x30
    else if 0x41 ≤ n ∧ n ≤ 0x46 then n - 0x41 + 10
    else if 0x61 ≤ n ∧ n ≤ 0x66 then n - 0x61 + 10
    else 16
  if d < base then some d else none

/-- The value of a non-empty run of digits. -/
def nat (base : Nat) (t : Text) : Option Nat :=
  if t.isEmpty then none
  else t.foldl (fun acc c =>
    match acc, digitValue base c with
    | some a, some d => some (a * base + d)
    | _, _ => none) (some 0)

/-- A decimal number that fits the field. -/
def field (w : Nat) (t : Text) : Option (BitVec w) :=
  match nat 10 t with
  | some n => if n < 2 ^ w then some (BitVec.ofNat w n) else none
  | none => none

/-- One of the names, or a decimal number that fits the field. -/
def named (names : List (String × BitVec 8)) (t : Text) : Option (BitVec 8) :=
  match names.find? (fun p => p.1.toList == t) with
  | some p => some p.2
  | none => field 8 t

/-- `<v>`: a decimal voice index, or ALL (R110). -/
def voice : Text → Option (BitVec 8) := named [("ALL", 0xFF)]

def waveform : Text → Option (BitVec 8) :=
  named [("SAW", 0), ("RSAW", 1), ("SQUARE", 2), ("SINE", 3), ("TRIANGLE", 4)]

def effect : Text → Option (BitVec 8) := named [("NONE", 0), ("LPF", 1), ("DELAY", 2)]

def onOff (t : Text) : Option Bool :=
  if t == "on".toList then some true else if t == "off".toList then some false else none

/-- A whole number with an optional sign. -/
def integer (t : Text) : Option Int :=
  match t with
  | '-' :: u => (nat 10 u).map (fun n => -(n : Int))
  | '+' :: u => (nat 10 u).map (fun n => (n : Int))
  | u => (nat 10 u).map (fun n => (n : Int))

/-- The binary32 value nearest to n · b^e, ties to even (R110: "correctly rounded"). -/
def rounded (neg : Bool) (n b : Nat) (e : Int) : F32 :=
  F32.pack neg (F32.roundBits (n * b ^ e.toNat * F32.one) (b ^ (-e).toNat))

/-- Digits with an optional point: the digits as one number, and how many stand after the point. -/
def mantissa (base : Nat) (t : Text) : Option (Nat × Nat) :=
  match splitAt '.' t with
  | [i] => (nat base i).map (fun n => (n, 0))
  | [i, f] => (nat base (i ++ f)).map (fun n => (n, f.length))
  | _ => none

/-- A decimal literal, with an optional exponent, or a hexadecimal float, without its sign. -/
def magnitude (neg : Bool) (t : Text) : Option F32 :=
  match t with
  | '0' :: 'x' :: u =>
    match splitAt 'p' u with
    | [m, e] =>
      match mantissa 16 m, integer e with
      | some (n, k), some e => some (rounded neg n 2 (e - 4 * (k : Int)))
      | _, _ => none
    | _ => none
  | u =>
    match splitAt 'e' u with
    | [m] => (mantissa 10 m).map (fun r => rounded neg r.1 10 (-(r.2 : Int)))
    | [m, e] =>
      match mantissa 10 m, integer e with
      | some (n, k), some e => some (rounded neg n 10 (e - (k : Int)))
      | _, _ => none
    | _ => none

/-- `<f32>`: a decimal literal, a hexadecimal float, or a raw pattern `bits:0xHHHHHHHH` (R110). -/
def f32 (t : Text) : Option F32 :=
  if t.take 7 == "bits:0x".toList then
    if (t.drop 7).length = 8 then (nat 16 (t.drop 7)).map (BitVec.ofNat 32) else none
  else
    match t with
    | '-' :: u => magnitude true u
    | u => magnitude false u

/-- The operation of a line whose mnemonic and operands are these: the syntax of R110, with the pseudo-instructions of
R111 at its end. -/
def operation (mnemonic : String) (ops : List Text) : Option Instr :=
  match mnemonic, ops with
  | "ACTIVATE_VOICE", [v, a] => do return .activateVoice (← voice v) (← onOff a)
  | "SET_FREQUENCY", [v, x] => do return .setFrequency (← voice v) (← f32 x)
  | "SET_MIDI_NOTE", [v, n, vel, a] => do return .setMidiNote (← voice v) (← field 8 n) (← field 7 vel) (← onOff a)
  | "SET_WAVEFORM", [v, w] => do return .setWaveform (← voice v) (← waveform w)
  | "UPDATE_FILTER", [c, q] => do return .updateFilter (← f32 c) (← f32 q)
  | "UPDATE_DELAY", [d, fb] => do return .updateDelay (← f32 d) (← f32 fb)
  | "EFFECT_SET_SLOT", [s, e] => do return .effectSetSlot (← field 8 s) (← effect e)
  | "EFFECT_ACTIVATE_SLOT", [s, a] => do return .effectActivateSlot (← field 8 s) (← onOff a)
  | "GET_FILTER", [] => some .getFilter
  | "GET_DELAY", [] => some .getDelay
  | "INIT", [] => some .init
  | "DEINIT", [] => some .deinit
  | "EVENT", [e] =>
    if e == "HALF".toList then some .evHalf
    else if e == "FULL".toList then some .evFull
    else if e == "ERROR".toList then some .evError
    else none
  | "NOTE_ON", [v, n, vel] => do return .setMidiNote (← voice v) (← field 8 n) (← field 7 vel) true
  | "NOTE_OFF", [v] => do return .setMidiNote (← voice v) 0 0 false
  | "MUTE", [v] => do return .activateVoice (← voice v) false
  | "MUTE_ALL", [] => some (.activateVoice 0xFF false)
  | "FX_BYPASS", [s] => do return .effectActivateSlot (← field 8 s) false
  | "FX_CLEAR", [s] => do return .effectSetSlot (← field 8 s) 0
  | _, _ => none

/-- One line, without its comment: nothing, or one operation. -/
def line (t : Text) : Option (List Instr) :=
  let u := trim (t.takeWhile (fun c => c != ';'))
  if u.isEmpty then some []
  else
    let m := u.takeWhile (fun c => !isBlank c)
    let rest := trim (u.dropWhile (fun c => !isBlank c))
    let ops := if rest.isEmpty then [] else (splitAt ',' rest).map trim
    (operation (String.ofList m) ops).map (fun i => [i])

/-- A command sequence, one command a line; none when a line has another form. -/
def assemble (t : Text) : Option (List Instr) := ((splitAt '\n' t).mapM line).map List.flatten

end Sys2Proof.Asm
end

