-- ==== Sys2Proof/Tests/Slice0.lean ====
section
/-! SUPPORT. Tests of the model against the spec's own words and vectors (30_encoding.md, 95_test_vectors.md), and for
each statement of the package with hypotheses a witness that meets them. -/

open Sys2Proof Sys2Proof.Machine Sys2Proof.Claim

namespace Sys2Proof.Test

set_option Elab.async false

/-! ### Well-formed instructions: one ill-formed term a check (R102), under TC1's two voices -/

theorem test_wf_voice : (Instr.setFrequency 2 0x43DC0000).wellFormed 2 = false := by decide
theorem test_wf_voice_not_all : (Instr.setFrequency 0xFE 0x43DC0000).wellFormed 2 = false := by decide
theorem test_wf_note : (Instr.setMidiNote 0 128 100 true).wellFormed 2 = false := by decide
theorem test_wf_waveform : (Instr.setWaveform 0 5).wellFormed 2 = false := by decide
theorem test_wf_slot : (Instr.effectActivateSlot 0xFF true).wellFormed 2 = false := by decide
theorem test_wf_effect : (Instr.effectSetSlot 0 3).wellFormed 2 = false := by decide
theorem test_wf_all : (Instr.setMidiNote 0xFF 127 0 false).wellFormed 2 = true := by decide

/-! ### Decoding: W0 = F, B, A, IDX, OP, written bit by bit from R101 and the rows of R103 -/

theorem test_decode_activateVoice :
    decode (.packet ⟨0b1#1 ++ 0b0000000#7 ++ 0b00000000#8 ++ 0b00000001#8 ++ 0b00000001#8, 0, 0⟩) =
      .ok (.activateVoice 1 true) := by decide
theorem test_decode_setFrequency :
    decode (.packet ⟨0b0#1 ++ 0b0000000#7 ++ 0b00000000#8 ++ 0b11111111#8 ++ 0b00000010#8, 0x43DC0000, 0⟩) =
      .ok (.setFrequency 0xFF 0x43DC0000) := by decide
theorem test_decode_setMidiNote :
    decode (.packet ⟨0b1#1 ++ 0b1111000#7 ++ 0b01000101#8 ++ 0b00000010#8 ++ 0b00000011#8, 0, 0⟩) =
      .ok (.setMidiNote 2 69 120 true) := by decide
theorem test_decode_setWaveform :
    decode (.packet ⟨0b0#1 ++ 0b0000000#7 ++ 0b00000011#8 ++ 0b00000000#8 ++ 0b00000100#8, 0, 0⟩) =
      .ok (.setWaveform 0 3) := by decide
theorem test_decode_updateFilter :
    decode (.packet ⟨0b0#1 ++ 0b0000000#7 ++ 0b00000000#8 ++ 0b00000000#8 ++ 0b00000101#8, 0x45800000, 0x3F3504F3⟩) =
      .ok (.updateFilter 0x45800000 0x3F3504F3) := by decide
theorem test_decode_updateDelay :
    decode (.packet ⟨0b0#1 ++ 0b0000000#7 ++ 0b00000000#8 ++ 0b00000000#8 ++ 0b00000110#8, 0x38C00000, 0x3F000000⟩) =
      .ok (.updateDelay 0x38C00000 0x3F000000) := by decide
theorem test_decode_effectSetSlot :
    decode (.packet ⟨0b0#1 ++ 0b0000000#7 ++ 0b00000010#8 ++ 0b00000001#8 ++ 0b00000111#8, 0, 0⟩) =
      .ok (.effectSetSlot 1 2) := by decide
theorem test_decode_effectActivateSlot :
    decode (.packet ⟨0b1#1 ++ 0b0000000#7 ++ 0b00000000#8 ++ 0b00000000#8 ++ 0b00001000#8, 0, 0⟩) =
      .ok (.effectActivateSlot 0 true) := by decide
theorem test_decode_getFilter :
    decode (.packet ⟨0b0#1 ++ 0b0000000#7 ++ 0b00000000#8 ++ 0b00000000#8 ++ 0b00010000#8, 0, 0⟩) = .ok .getFilter := by
  decide
theorem test_decode_getDelay :
    decode (.packet ⟨0b0#1 ++ 0b0000000#7 ++ 0b00000000#8 ++ 0b00000000#8 ++ 0b00010001#8, 0, 0⟩) = .ok .getDelay := by
  decide
theorem test_decode_init :
    decode (.packet ⟨0b0#1 ++ 0b0000000#7 ++ 0b00000000#8 ++ 0b00000000#8 ++ 0b00100000#8, 0, 0⟩) = .ok .init := by decide
theorem test_decode_deinit :
    decode (.packet ⟨0b0#1 ++ 0b0000000#7 ++ 0b00000000#8 ++ 0b00000000#8 ++ 0b00100001#8, 0, 0⟩) = .ok .deinit := by
  decide
theorem test_decode_evHalf : decode (.event 0b01) = .ok .evHalf := by decide
theorem test_decode_evFull : decode (.event 0b10) = .ok .evFull := by decide
theorem test_decode_evError : decode (.event 0b11) = .ok .evError := by decide

/-- 95_test_vectors.md, section 3.1: the words that are rejected for their encoding. -/
theorem test_decode_reserved :
    [decodePacket ⟨0x80010001, 0, 0⟩, decodePacket ⟨0x00000002, 0, 1⟩, decodePacket ⟨0x80000005, 0, 0⟩,
      decodePacket ⟨0x00000110, 0, 0⟩] = List.replicate 4 (.error .reservedField) := by decide
/-- R105's ranges, at their ends. -/
theorem test_decode_illegal :
    [0x00, 0x09, 0x0F, 0x12, 0x1F, 0x22, 0xFF].map (fun op => decodePacket ⟨BitVec.ofNat 32 op, 0, 0⟩) =
      List.replicate 7 (.error .illegalOp) := by decide
/-- R64: the bytes of 0xF8450203, least significant first. -/
theorem test_decode_bytes :
    decodeBytes [0x03, 0x02, 0x45, 0xF8, 0, 0, 0, 0, 0, 0, 0, 0] = .ok (.setMidiNote 2 69 120 true) := by decide
theorem test_decodeTableWord_command :
    decodeTableWord 32 0x00030004 = some (.setWaveform 0 3) := by decide
theorem test_decodeTableWord_event : decodeTableWord 8 2 = some .evFull := by decide

/-- P3's sequence, with an event, a pseudo-instruction of R111 and two spellings of a binary32 literal (R110). -/
theorem test_assemble :
    Asm.assemble ("INIT\nUPDATE_DELAY         0x1.8p-14, 0.5      ; 3 samples\nSET_WAVEFORM ALL, RSAW\n" ++
      "EVENT HALF\nNOTE_OFF 1\nUPDATE_FILTER bits:0x7FC00000, -1.0").toList =
    some [.init, .updateDelay 0x38C00000 0x3F000000, .setWaveform 0xFF 1, .evHalf, .setMidiNote 1 0 0 false,
      .updateFilter 0x7FC00000 0xBF800000] := by decide +kernel

/-! ### One instruction each, from the spec's examples and vectors, in TC1 after INIT -/

/-- TC1 with LC = RUNNING: what INIT leaves (R382). -/
def base : State := { State.reset with lc := .running }

def result (o : Host.Outcome State Fault Refusal) : Option State :=
  match o with
  | .next t => some t
  | .fault _ => none
  | .refused _ => none

/-- What `f` reads in the next state. -/
def look {α : Type} (i : Instr) (s : State) (f : State → α) : Option α := (result (exec i s)).map f

/-- What `f` reads when a command of one sub-step has been answered: the sub-step, then the response (R270). -/
def lookAnswered {α : Type} (i : Instr) (s : State) (f : State → α) : Option α :=
  (result (exec i s)).bind (fun t => look i t f)

/-- A voice in Sustain at gain 0.5, at phase 8.0 (P1's end state). -/
def sustained : Voice :=
  let v := Voice.atReset Config.reference
  { v with active := true, frequency := 0x43000000, phase := 0x41000000,
           env := { v.env with stage := .sustain,
                               ramp := { v.env.ramp with current := 0x3F000000, increment := 0xBE800000 } } }

def sounding : State := { base with voices := [sustained, Voice.atReset Config.reference] }

/-- R272's example, and A1's note: increment 0.5 and remaining 2. -/
theorem test_activateVoice_on :
    look (.activateVoice 1 true) base (fun t => t.voices.map (fun v =>
      (v.active, v.env.stage, v.env.ramp.increment, v.env.ramp.remaining))) =
    some [(false, .off, 0, 0), (true, .attack, 0x3F000000, 2)] := by decide +kernel
/-- R152: the phase and the ramp are cleared, the frequency is kept. -/
theorem test_activateVoice_off :
    look (.activateVoice 0 false) sounding (fun t => t.voices.map (fun v =>
      (v.active, v.phase, v.frequency, v.env.stage, v.env.ramp.current))) =
    some [(false, 0, 0x43000000, .off, 0), (false, 0, 0, .off, 0)] := by decide +kernel
/-- R273's example is on ALL: its first sub-step changes voice 0 alone, and voice 1 is still to come (R71). -/
theorem test_setFrequency_all :
    look (.setFrequency 0xFF 0x43DC0000) base (fun t => (t.voices.map Voice.frequency, t.inProgress.map Progress.done)) =
    some ([0x43DC0000, 0], some 1) := by decide +kernel
/-- P4 step 3. -/
theorem test_setFrequency_nan :
    look (.setFrequency 1 0x7FC00000) base (fun t => (t.voices == base.voices, t.rsp0)) = some (true, 1) := by
  decide +kernel
/-- S7: 440 Hz, VGAIN(120), Attack. -/
theorem test_setMidiNote_on :
    look (.setMidiNote 1 69 120 true) base (fun t => t.voices[1]?.map (fun v =>
      (v.active, v.frequency, v.amplitude, v.env.stage))) =
    some (some (true, 0x43DC0000, 0x3F71E3C8, .attack)) := by decide +kernel
/-- R205's example: from Sustain at 0.5, increment −0.125 and remaining 4. -/
theorem test_setMidiNote_off :
    look (.setMidiNote 0 0 127 false) sounding (fun t => t.voices[0]?.map (fun v =>
      (v.active, v.env.stage, v.env.ramp.increment, v.env.ramp.remaining))) =
    some (some (true, .release, 0xBE000000, 4)) := by decide +kernel
/-- R277's example. -/
theorem test_setWaveform :
    look (.setWaveform 0 3) sounding (fun t => t.voices.map (fun v => (v.waveform, v.phase))) =
    some [(.sine, 0x41000000), (.saw, 0)] := by decide +kernel
/-- P4 step 2. -/
theorem test_setWaveform_illegal :
    look (.setWaveform 0 5) base (fun t => (t.voices == base.voices, t.rsp0)) = some (true, 1) := by decide +kernel
/-- R282's example: the parameters and the ready bit. -/
theorem test_updateFilter :
    lookAnswered (.updateFilter 0x447A0000 0x3F000000) { base with rsp0 := 1 }
      (fun t => (t.filter.cutoff, t.filter.q, t.filter.ready, t.rsp0)) =
    some (0x447A0000, 0x3F000000, true, 0) := by decide +kernel
/-- P4 step 14. -/
theorem test_updateFilter_nan :
    look (.updateFilter 0x447A0000 0x7FC00000) base (fun t => (t.filter == base.filter, t.rsp0)) = some (true, 1) := by
  decide +kernel
/-- Table D-U, second row. -/
theorem test_updateDelay :
    lookAnswered (.updateDelay 0x38C00000 0x3F000000)
      { base with rsp0 := 1, delay := { base.delay with writePos := 5, readPos := 5 } }
      (fun t => (t.delay.readPos, t.delay.feedback, t.rsp0)) = some (2, 0x3F000000, 0) := by decide +kernel
/-- Table D-U: 8 samples do not fit. -/
theorem test_updateDelay_capacity :
    look (.updateDelay 0x39800000 0x3F000000) base (fun t => (t.delay == base.delay, t.rsp0)) = some (true, 1) := by
  decide +kernel
/-- R280's example. -/
theorem test_effectSetSlot :
    look (.effectSetSlot 1 2) base (fun t => (t.slot0.effect, t.slot1.effect, t.slot1.active)) =
    some (.none, .delay, false) := by decide +kernel
/-- P4 step 15. -/
theorem test_effectSetSlot_illegal :
    look (.effectSetSlot 2 1) base (fun t => (t.slot0.effect, t.slot1.effect, t.rsp0)) = some (.none, .none, 1) := by
  decide +kernel
/-- R281's example. -/
theorem test_effectActivateSlot :
    look (.effectActivateSlot 0 true) base (fun t => (t.slot0.active, t.slot1.active)) = some (true, false) := by
  decide +kernel
/-- P4 step 17: 0xFF is not a slot index. -/
theorem test_effectActivateSlot_all :
    look (.effectActivateSlot 0xFF true) base (fun t => (t.slot0.active, t.slot1.active, t.rsp0)) =
    some (false, false, 1) := by decide +kernel
/-- R282's example. -/
theorem test_getFilter :
    look .getFilter { base with filter := { base.filter with cutoff := 0x447A0000, q := 0x3F000000, ready := true } }
      (fun t => (t.rsp0, t.rsp1, t.rsp2)) = some (0x100, 0x447A0000, 0x3F000000) := by decide +kernel
/-- P3 step 9. -/
theorem test_getDelay :
    look .getDelay { base with delay := { base.delay with writePos := 0, readPos := 5, feedback := 0x3F000000 } }
      (fun t => (t.rsp0, t.rsp1, t.rsp2)) = some (0, 3, 0x3F000000) := by decide +kernel
/-- R284: INIT while RUNNING restarts everything. -/
theorem test_init :
    lookAnswered .init { sounding with dbuf := [(3, 1)], out := [(2, 7)], pendFull := true, rsp0 := 1 } (fun t => t == base) =
    some true := by decide +kernel
/-- R285: the voices are muted, and the slots and OUT are kept. -/
theorem test_deinit :
    look .deinit { sounding with out := [(2, 7)], slot0 := { effect := .delay, active := true }, pendFull := true }
      (fun t => (t.lc, t.voices.map Voice.active, t.out == [(2, 7)], t.slot0.active && !t.pendFull)) =
    some (.stopped, [false, false], true, true) := by decide +kernel
/-- E1 and E2. -/
theorem test_evHalf : (look .evHalf State.reset (fun t => t == State.reset), look .evHalf base State.pendHalf) =
    (some true, some true) := by decide +kernel
/-- E6. -/
theorem test_evFull :
    (look .evFull { base with lc := .stopped } State.pendFull, look .evFull base State.pendFull) =
    (some false, some true) := by decide +kernel
/-- E5. -/
theorem test_evError : look .evError sounding (fun t => t == sounding) = some true := by decide +kernel

/-! ### Rendering -/

/-- P1, its FULL event: frames 4 to 7, from the state after the HALF event. -/
theorem test_render_full :
    (result (serve .second { base with pendFull := true, voices := [
        { sustained with phase := 0x40800000 }, Voice.atReset Config.reference] })).map (fun t =>
      (t.pendFull, [8, 10, 12, 14].map (fun j => (outRead j t.out).toInt), (t.voices[0]?).map Voice.phase)) =
    some (false, [-15871, -15743, -15615, -15487], some 0x41000000) := by decide +kernel
/-- P2, frame 7: the frame that ends the release is the frame that reclaims the voice. -/
theorem test_render_reclaims :
    let v := { sustained with phase := 0x41A50000, env := { sustained.env with stage := .release, ramp :=
      { sustained.env.ramp with current := 0x3E000000, increment := 0xBE000000, remaining := 1 } } }
    (v.mix (fun _ => 0) Config.reference 0).2 = deactivated v := by decide +kernel
/-- 95_test_vectors.md, section 3.2: entry 255 to entry 0, and the wrap. -/
theorem test_oscillator :
    let v := { sustained with phase := 0x437F8000 }
    ((v.nextSample (fun _ => 0) Config.reference).1, (v.nextSample (fun _ => 0) Config.reference).2.phase) =
      (0xBB800000, 0x3F000000) := by decide +kernel
/-- Section 3.3. -/
theorem test_wrap : ([0x447A1000, 0xB22BCC77, 0xC7800040, 0x80000000, 0x7149F2CA].map F32.wrap) =
    [0x43684000, 0, 0x437F8000, 0, 0] := by decide +kernel
/-- Section 3.9. -/
theorem test_output :
    ([0x3F000000, 0xBF000000, 0x40000000, 0xC0000000, 0x7FC00000, 0x3F7FFFFF].map (fun v =>
      (toS16 (fun _ => 0) 0x46FFFE00 v).toInt)) = [16383, -16383, 32767, -32768, 0, 32766] := by decide +kernel
/-- Section 3.4, P-R2. -/
theorem test_ramp :
    let r := ({ current := 0, increment := 0, remaining := 0, sampleRate := 0x47000000 } : Ramp).rampTo
      (fun _ => 0) 0x3F800000 0x38A00000
    (r.increment, r.remaining, (r.process (fun _ => 0)).current) = (0x3ECCCCCD, 3, 0x3ECCCCCD) := by decide +kernel
/-- Section 3.6, the impulse's first output, with the coefficients of the reference instance. -/
theorem test_filter :
    let f := { base.filter with ready := true, b0 := 0x3DC7F2CD, b1 := 0x3E47F2CD, b2 := 0x3DC7F2CD,
                                a1 := 0xBF715BEF, a2 := 0x3EAAAAAA }
    let r := f.process (fun _ => 0) 0x3F800000
    (r.1, (r.2.process (fun _ => 0) 0).1) = (0x3DC7F2CD, 0x3E931A3F) := by decide +kernel
/-- R244's example. -/
theorem test_delay :
    let d : Delay := { base.delay with writePos := 2, readPos := 0, feedback := 0x3F000000 }
    let r := d.process (fun _ => 0) 4 0x3E800000 (dbufWrite 0 0x3F800000 [])
    (r.1, dbufRead 2 r.2.2, r.2.1.writePos, r.2.1.readPos) = (0x3F800000, 0x3F400000, 3, 1) := by decide +kernel
/-- Section 3.10. -/
theorem test_noteHz : [0, 60, 64, 68, 127].map noteHz =
    [0x4102D013, 0x4382D013, 0x43A4D054, 0x43CFA700, 0x4643FF6A] := by decide +kernel

/-! ### Steps -/

/-- The premise of ResetMeetsInvariant and of ResetValues's last clause, met by TC1. -/
theorem config_legal : failingCheck Config.reference = none := by decide +kernel

/-- The table row of INIT, as the first step after reset: its sub-step, with the response to come (R270). -/
theorem test_step_init :
    (result (step (State.reset.withFetchWord 32 0x00000020))).map (fun t => (t.lc, t.cmdIn, t.inProgress.map Progress.done)) =
    some (.running, [], some 1) := by decide +kernel
/-- R270: the response is a step of its own, after the last sub-step. -/
theorem test_step_response :
    (result (step { base with rsp0 := 1, inProgress := some { instr := .setWaveform 0 3, done := 1 } })).map (fun t =>
      (t.rsp0, t.inProgress, t.voices == base.voices)) = some (0, none, true) := by decide +kernel
/-- R270: a render that is pending then is served before the response is written. -/
theorem test_step_render_before_response :
    let g : Progress := { instr := .setWaveform 0 3, done := 1 }
    (result (step { base with rsp0 := 1, pendHalf := true, inProgress := some g })).map (fun t =>
      (t.rsp0, t.pendHalf, t.inProgress.map Progress.done)) = some (1, false, some 1) := by decide +kernel
/-- E7: with a render pending, the next step is its service, and the packet waits. -/
theorem test_step_priority :
    (result (step { base with pendHalf := true, cmdIn := [⟨0x00000021, 0, 0⟩] })).map (fun t =>
      (t.pendHalf, t.cmdIn, t.lc)) = some (false, [⟨0x00000021, 0, 0⟩], .running) := by decide +kernel
theorem reset_memory_wf : State.reset.dbuf.wf = true ∧ State.reset.out.wf = true := by decide

/-! ### Witnesses: for each statement with hypotheses, values that meet them together -/

/-- TC1 running, with one packet on the command port. -/
def waiting (p : Packet) : State := { base with cmdIn := [p] }

theorem presents (p : Packet) : Presents (waiting p) p [] := ⟨config_legal, rfl, rfl, rfl, rfl⟩

theorem witness_IllegalOpRaisesParamError :
    (∀ n ∈ [0x00, 0x09, 0x0F, 0x12, 0x1F, 0x22, 0xFF], BitVec.ofNat 32 n ∉ opcodeMap.map Row.op) ∧
    decodePacket ⟨0x09, 0, 0⟩ = .error .illegalOp ∧ Presents (waiting ⟨0x09, 0, 0⟩) ⟨0x09, 0, 0⟩ [] :=
  ⟨by decide +kernel, by decide +kernel, presents _⟩

theorem witness_ReservedFieldRaisesParamError :
    ⟨0x01, 0x7FFF0000, 0xFFFFFFFF, 0xFFFFFFFF⟩ ∈ opcodeMap ∧ (0x80010001#32 &&& 0xFF = 0x01) ∧
    (0x80010001#32 &&& 0x7FFF0000 ≠ 0) ∧ decodePacket ⟨0x80010001, 0, 0⟩ = .error .reservedField ∧
    Presents (waiting ⟨0x80010001, 0, 0⟩) ⟨0x80010001, 0, 0⟩ [] :=
  ⟨List.mem_cons_self, by decide +kernel, by decide +kernel, by decide +kernel, presents _⟩

theorem witness_OutOfRangeOperandRaisesParamError :
    (Instr.activateVoice 2 true).wellFormed base.cfg.nv = false ∧
    (Instr.setMidiNote 0 128 0 false).wellFormed base.cfg.nv = false ∧
    (Instr.setWaveform 0xFF 5).wellFormed base.cfg.nv = false ∧
    (Instr.effectSetSlot 2 0).wellFormed base.cfg.nv = false ∧
    (Instr.effectSetSlot 1 3).wellFormed base.cfg.nv = false ∧ base.inProgress = none := by decide +kernel

/-- For the commands: a state before the first sub-step, before the second, and before the response, of a command on one
voice and on two; and operands at the ends of what the checks accept. -/
theorem witness_Runs :
    (base.subStep = 0 ∧ base.inProgress = none ∧
      ({ base with inProgress := some { instr := .deinit, done := 1 } } : State).subStep = 1 ∧
      ({ base with inProgress := some { instr := .setWaveform 0xFF 1, done := 2 } } : State).subStep = 2) ∧
    (onVoices (voicesNamed 1 2) (fun _ v => v)).length = 1 ∧ (onVoices (voicesNamed 0xFF 2) (fun _ v => v)).length = 2 ∧
    ((127#8).toNat ≤ 127 ∧ ¬ (128#8).toNat ≤ 127 ∧ (4#8).toNat ≤ 4 ∧ ¬ (5#8).toNat ≤ 4) ∧
    (F32.ge 0 0 = true ∧ F32.ge 0x80000000 0 = true ∧ F32.ge 0x7FC00000 0 = false ∧ F32.ge 0x80000001 0 = false) ∧
    ((1#8).toNat ≤ 1 ∧ ¬ (2#8).toNat ≤ 1 ∧ (2#8).toNat ≤ 2 ∧ ¬ (3#8).toNat ≤ 2) := by decide

/-- UPDATE_DELAY's operands at the ends of what it accepts: 0 and just below 8 samples, feedback 0 and just below 1. -/
theorem witness_UpdateDelay :
    (∀ n ∈ [0x00000000, 0x397FFFFF], F32.isFinite (F32.mul 0 base.delay.sampleRate (BitVec.ofNat 32 n)) = true ∧
      F32.ge (F32.mul 0 base.delay.sampleRate (BitVec.ofNat 32 n)) (F32.ofInt base.cfg.l) = false) ∧
    F32.ge (F32.mul 0 base.delay.sampleRate 0x39800000) (F32.ofInt base.cfg.l) = true ∧
    (F32.ge 0 0 = true ∧ F32.lt 0 0x3F800000 = true ∧ F32.lt 0x3F7FFFFF 0x3F800000 = true ∧
      F32.lt 0x3F800000 0x3F800000 = false) := by decide +kernel

theorem witness_InitIsResetAndRunning :
    Presents (waiting ⟨0x20, 0, 0⟩) ⟨0x20, 0, 0⟩ [] ∧ decodePacket ⟨0x20, 0, 0⟩ = .ok .init ∧
    (waiting ⟨0x20, 0, 0⟩).evIn = [] := ⟨presents _, by decide, rfl⟩

/-- For the four voice commands: the indices at the ends of a pool of two, and of the largest pool. -/
theorem witness_voices : base.cfg.nv ≤ 255 ∧
    [voicesNamed 0 2, voicesNamed 1 2, voicesNamed 2 2, voicesNamed 0xFF 2, voicesNamed 254 255] =
      [some [0], some [1], none, some [0, 1], some [254]] ∧
    voicesNamed 0xFF 255 = some (List.range 255) := by decide +kernel

theorem witness_ActivateVoice_packet :
    (0x80000101#32).extractLsb' 0 8 = 0x01#8 ∧ Presents (waiting ⟨0x80000101, 0, 0⟩) ⟨0x80000101, 0, 0⟩ [] ∧
    (aField ⟨0x80000101, 0, 0⟩ = 0 ∧ bField ⟨0x80000101, 0, 0⟩ = 0) ∧ aField ⟨0x80010001, 0, 0⟩ ≠ 0 :=
  ⟨by decide +kernel, presents _, by decide +kernel, by decide +kernel⟩

theorem witness_SetFrequency_packet :
    (0x00000102#32).extractLsb' 0 8 = 0x02#8 ∧ Presents (waiting ⟨0x102, 0x43DC0000, 0⟩) ⟨0x102, 0x43DC0000, 0⟩ [] ∧
    (aField ⟨0x102, 0, 0⟩ = 0 ∧ bField ⟨0x102, 0, 0⟩ = 0 ∧ fField ⟨0x102, 0, 0⟩ = false) ∧
    F32.isFinite 0x43DC0000 = true ∧ F32.isFinite 0x7F7FFFFF = true ∧ F32.isFinite 0x7F800000 = false :=
  ⟨by decide +kernel, presents _, by decide +kernel, by decide +kernel, by decide +kernel, by decide +kernel⟩

theorem witness_SetMidiNote_packet :
    (0xF8450103#32).extractLsb' 0 8 = 0x03#8 ∧ Presents (waiting ⟨0xF8450103, 0, 0⟩) ⟨0xF8450103, 0, 0⟩ [] ∧
    ¬ 127 < (127#8).toNat ∧ 127 < (128#8).toNat := ⟨by decide +kernel, presents _, by decide +kernel, by decide +kernel⟩

theorem witness_SetWaveform_packet :
    (0x00040004#32).extractLsb' 0 8 = 0x04#8 ∧ Presents (waiting ⟨0x00040004, 0, 0⟩) ⟨0x00040004, 0, 0⟩ [] ∧
    bField ⟨0x00040004, 0, 0⟩ = 0 ∧ fField ⟨0x00040004, 0, 0⟩ = false :=
  ⟨by decide +kernel, presents _, by decide +kernel, by decide +kernel⟩

theorem witness_UpdateFilter_packet :
    (0x00000005#32).extractLsb' 0 8 = 0x05#8 ∧
    Presents (waiting ⟨5, 0x447A0000, 0x3F000000⟩) ⟨5, 0x447A0000, 0x3F000000⟩ [] ∧
    idxField ⟨5, 0x447A0000, 0x3F000000⟩ = 0 ∧ fField ⟨0x80000005, 0, 0⟩ = true :=
  ⟨by decide +kernel, presents _, by decide +kernel, by decide +kernel⟩

theorem witness_UpdateDelay_packet :
    (0x00000006#32).extractLsb' 0 8 = 0x06#8 ∧
    Presents (waiting ⟨6, 0x38C00000, 0x3F000000⟩) ⟨6, 0x38C00000, 0x3F000000⟩ [] ∧
    idxField ⟨6, 0x38C00000, 0x3F000000⟩ = 0 ∧ idxField ⟨0x106, 0, 0⟩ ≠ 0 :=
  ⟨by decide +kernel, presents _, by decide +kernel, by decide +kernel⟩

theorem witness_EffectSetSlot_packet :
    (0x00020107#32).extractLsb' 0 8 = 0x07#8 ∧ Presents (waiting ⟨0x20107, 0, 0⟩) ⟨0x20107, 0, 0⟩ [] ∧
    bField ⟨0x20107, 0, 0⟩ = 0 ∧ bField ⟨0x01000007, 0, 0⟩ ≠ 0 := ⟨by decide +kernel, presents _, by decide +kernel, by decide +kernel⟩

theorem witness_EffectActivateSlot_packet :
    (0x80000108#32).extractLsb' 0 8 = 0x08#8 ∧ Presents (waiting ⟨0x80000108, 0, 0⟩) ⟨0x80000108, 0, 0⟩ [] ∧
    aField ⟨0x80000108, 0, 0⟩ = 0 ∧ aField ⟨0x00010008, 0, 0⟩ ≠ 0 := ⟨by decide +kernel, presents _, by decide +kernel, by decide +kernel⟩

/-- For the four operations with no operand. -/
theorem witness_allZero :
    (∀ op ∈ [0x10, 0x11, 0x20, 0x21], (BitVec.ofNat 32 op).extractLsb' 0 8 = BitVec.ofNat 8 op ∧
      allZero ⟨BitVec.ofNat 32 op, 0, 0⟩ ∧ ¬ allZero ⟨BitVec.ofNat 32 op, 0, 1⟩) ∧
    ∀ p, Presents (waiting p) p [] := by
  refine ⟨?_, presents⟩
  unfold allZero
  decide +kernel

theorem witness_AllCommandReachesEveryVoice :
    legalOnAll (.setMidiNote 0xFF 127 0 true) = true ∧
    decodePacket ⟨0x807FFF03, 0, 0⟩ = .ok (.setMidiNote 0xFF 127 0 true) ∧
    Presents (waiting ⟨0x807FFF03, 0, 0⟩) ⟨0x807FFF03, 0, 0⟩ [] ∧ (waiting ⟨0x807FFF03, 0, 0⟩).evIn = [] ∧
    (waiting ⟨0x807FFF03, 0, 0⟩).voices.length = (waiting ⟨0x807FFF03, 0, 0⟩).cfg.nv ∧
    legalOnAll (.activateVoice 0xFF false) = true ∧ legalOnAll (.setFrequency 0xFF 0x7F7FFFFF) = true ∧
    legalOnAll (.setWaveform 0xFF 4) = true :=
  ⟨by decide +kernel, by decide +kernel, presents _, rfl, rfl, by decide +kernel, by decide +kernel, by decide +kernel⟩

theorem witness_GetDelayReadsBack : 1 ≤ base.cfg.l ∧ base.cfg.l ≤ 2 ^ 24 := by decide +kernel

/-- A service of each half: the premises of RenderWritesOnlyItsHalf, HalfHoldsItsFrames, BothChannelsCarryOneValue,
RenderFrame and RenderCommutesWithResponse. -/
theorem witness_serve (half : Half) : ∃ t, serve half { sounding with pendHalf := true, pendFull := true } = .next t ∧
    sounding.out.wf = true ∧ sounding.delay.inRange sounding.cfg.l = true :=
  ⟨_, serve_eq half _ rfl, rfl, rfl⟩

theorem witness_ArrivalSetsPendingBit :
    (∃ t, step { base with pendHalf := true } = .next t ∧ t.pendHalf = false) ∧
    (∃ t, step { base with pendFull := true } = .next t ∧ t.pendFull = false) ∧
    (∃ t, step { base with pendHalf := true, pendFull := true, inProgress := none, evIn := [1] } = .next t) ∧
    (base.inProgress = none ∧ ∃ t, exec .init { base with pendHalf := true } = .next t) ∧
    ∃ t, exec .deinit { base with pendFull := true } = .next t := by
  have hs : ∀ (s : State) (half : Half), nextMove s = .serve half s.tick → s.delay.inRange s.cfg.l = true →
      step s = .next (renderFrames s.cfg.h (startFrame half s.cfg) (beginService half s.tick)) :=
    fun s half h hr => (step_serve h).trans (serve_eq half s.tick hr)
  refine ⟨⟨_, hs _ .first (by decide +kernel) rfl, ?_⟩, ⟨_, hs _ .second (by decide +kernel) rfl, ?_⟩,
    ⟨_, step_run (i := .evHalf) (u := ?_) ?_⟩, ⟨rfl, _, rfl⟩, ⟨_, rfl⟩⟩
  · rw [renderFrames_pendHalf]; rfl
  · rw [renderFrames_pendFull]; rfl
  · exact State.tick { base with pendHalf := true, pendFull := true, inProgress := none, evIn := [1] }
  · decide +kernel

theorem witness_TransferErrorChangesNothing :
    failingCheck ({ base with evIn := [3] } : State).cfg = none ∧ ({ base with evIn := [3] } : State).eventCode = 3 :=
  ⟨config_legal, rfl⟩

theorem witness_StepRunsTheDecodedInstruction :
    (failingCheck base.cfg = none ∧ decodeEvent ({ base with evIn := [2] } : State).eventCode = .ok .evFull) ∧
    (Presents (waiting ⟨0x21, 0, 0⟩) ⟨0x21, 0, 0⟩ [] ∧ decodePacket ⟨0x21, 0, 0⟩ = .ok .deinit) ∧
    (base.eventCode = 0 ∧ base.noPending = true ∧
      ({ base with inProgress := some { instr := .setWaveform 0xFF 1, done := 1 } } : State).inProgress =
        some { instr := .setWaveform 0xFF 1, done := 1 }) :=
  ⟨⟨config_legal, rfl⟩, ⟨presents _, by decide⟩, rfl, rfl, rfl⟩

theorem witness_PendingRenderIsServedFirst :
    let s : State := { sounding with pendHalf := true, pendFull := true }
    failingCheck s.cfg = none ∧ s.eventCode = 0 ∧ s.noPending = false ∧ s.rmask = false ∧
    s.delay.inRange s.cfg.l = true := ⟨config_legal, rfl, rfl, rfl, rfl⟩

theorem witness_IdleStepHoldsState :
    failingCheck sounding.cfg = none ∧ sounding.eventCode = 0 ∧ sounding.noPending = true ∧
    sounding.inProgress = none ∧ sounding.cmdIn = [] := ⟨config_legal, rfl, rfl, rfl, rfl⟩

/-- A legal configuration, and one that each check refuses, at the ends of the ranges (R381). -/
theorem witness_IllegalConfigurationHasNoRun :
    let c := Config.reference
    [failingCheck c, failingCheck { c with nv := 256 }, failingCheck { c with sr := 255 },
      failingCheck { c with h := 0 }, failingCheck { c with l := 2 ^ 24 + 1 },
      failingCheck { c with wt := 0x7E800001 :: c.wt.tail },
      failingCheck { c with env := { c.env with decayTime := 0x48000000 } },
      failingCheck { c with env := { c.env with sustainLevel := 0x3F800001 } },
      failingCheck { c with vgain := 0x7F800000 :: c.vgain.tail }, failingCheck { c with oscale := 0 }] =
    [none, some .c1, some .c2, some .c3, some .c4, some .c5, some .c6, some .c7, some .c8, some .c9] := by
  decide +kernel

theorem witness_OperatorsRoundToNearest :
    [0x3F800000, 0x40400000, 0x7F7FFFFF, 0x00000001].map F32.isFinite = List.replicate 4 true ∧
    F32.units 0x40400000 ≠ 0 ∧ F32.isFinite (F32.add 0 0x3F800000 0x40400000) = true ∧
    F32.isFinite (F32.sub 0 0x3F800000 0x40400000) = true ∧
    F32.isFinite (F32.mul 0 0x00000001 0x40400000) = true ∧
    F32.isFinite (F32.div 0 0x3F800000 0x40400000) = true ∧
    (F32.isNaN 0x7FC00000 = true ∧ F32.isNaN 0xFF800000 = false ∧ F32.isInf 0x7F800000 = true ∧
      F32.isInf 0xFF800000 = true ∧ F32.lt 0x7F7FFFFF 0x7F800000 = true) := by decide +kernel

/-- Ties above an even and an odd pattern, above zero and above the largest finite pattern. -/
theorem witness_TiesRoundToEven :
    ∀ b ∈ [0, 1, 0x3F800000, 0x7F7FFFFF], b < F32.infBits ∧
      2 * (F32.magOf b + F32.magOf (b + 1)) = (F32.magOf b + F32.magOf (b + 1)) * 2 ∧
      F32.magOf b * 2 = F32.magOf b * 2 := by decide +kernel

theorem witness_RoundIsHalfAwayFromZero :
    F32.isFinite 0x40200000 = true ∧
    |2 * F32.units 0x40200000 - 2 * F32.round 0x40200000 * 2 ^ 149| = 2 ^ 149 := by decide +kernel

/-- Its clauses at the ends of their ranges; below zero, the midpoint under 256 (−2^-17), the tie under it, and a value
beyond that midpoint. -/
theorem witness_WrapReducesIntoTable :
    ([0xB7000000, 0xB7C00000, 0x80000001].map (fun p => (F32.isFinite p, decide (F32.units p < 0), F32.wrap p)) =
      [(true, true, 0), (true, true, 0x437FFFFE), (true, true, 0)]) ∧
    F32.units 0xB7000000 + 256 * 2 ^ 149 = ((F32.magOf 0x437FFFFF + F32.magOf 0x43800000) / 2 : Nat) ∧
    2 * (F32.units 0xB7C00000 + 256 * 2 ^ 149) = (F32.magOf 0x437FFFFE + F32.magOf 0x437FFFFF : Nat) ∧
    [0x437FFFFF, 0x43800000, 0xBF000000].map F32.isFinite = List.replicate 3 true ∧ phaseLegal 0x437FFFFF = true ∧
    phaseLegal 0 = true ∧ phaseLegal 0x43800000 = false ∧ 0 ≤ F32.units 0x43800000 := by decide +kernel

theorem witness_RampAddsIncrementEachCall :
    let r : Ramp := { current := 0, increment := 0x3F000000, remaining := 2, sampleRate := 0x47000000 }
    2 ≤ r.remaining.toNat ∧ r.remaining.toNat ≤ 3 := by decide

theorem witness_EnvelopeTransitions :
    sustained.env.stage = .sustain ∧ (Env.atReset Config.reference).stage = .off ∧
    (sustained.env.ramp.process (fun _ => 0)).finished = true ∧
    (({ sustained.env.ramp with remaining := 2 } : Ramp).process (fun _ => 0)).finished = false := by decide +kernel

theorem witness_ReleaseEndsAtItsLastSample :
    sustained.env.stage = .sustain ∧ (sustained.env.release (fun _ => 0)).ramp.remaining.toNat = 4 := by decide +kernel

/-- A voice at each end of the table, and an inactive one. -/
theorem witness_OscillatorSamples :
    sustained.active = true ∧ (Voice.atReset Config.reference).active = false ∧
    phaseLegal 0 = true ∧ phaseLegal 0x437FFFFF = true ∧ failingCheck Config.reference = none ∧
    F32.units 0 = ((0 : Nat) : Int) * 2 ^ 149 ∧ F32.units 0x437F0000 = ((255 : Nat) : Int) * 2 ^ 149 ∧
    F32.isZero (wtRead Config.reference (waveformIndex sustained.waveform) 0) = false ∧
    F32.isZero (wtRead Config.reference (waveformIndex sustained.waveform) 255) = false := by decide +kernel

theorem witness_FilterStepsWhenReady :
    base.filter.ready = false ∧ ({ base.filter with ready := true } : Filter).ready = true := ⟨rfl, rfl⟩

/-- The delays at both ends of their range, and an accepted update: the premises of DelayReadsThenWrites,
EffectiveDelayIsKept and WrittenSampleReturnsAfterDelay. -/
theorem witness_delay :
    let d : Delay := { base.delay with writePos := 7, readPos := 0 }
    base.dbuf.wf = true ∧ d.inRange 8 = true ∧ delayLen 8 d = 7 ∧ base.delay.inRange 8 = true ∧
    delayLen 8 base.delay = 8 ∧ ({ base.delay with writePos := 1 } : Delay).inRange 8 = true ∧
    delayLen 8 { base.delay with writePos := 1 } = 1 ∧ (d.updateDelay (fun _ => 0) 8 0x38C00000).isSome = true ∧
    base.delay.inRange 1 = true := by decide +kernel

/-- The premises of UnboundEffectIsFrozen and SlotsFoldInOrder. -/
theorem witness_slots :
    binds { effect := .lowPass, active := true } .lowPass ∧ binds { effect := .delay, active := true } .delay ∧
    ¬ binds base.slot0 .lowPass ∧ ¬ binds base.slot1 .delay ∧ transparent base.slot0 ∧
    transparent { effect := .none, active := true } := by
  unfold binds transparent
  decide

/-- The conversion at the edges of its clauses: NaN, 32767.0, just below it, −32768.0 and just above it. -/
theorem witness_OutputSaturatesAndTruncates :
    F32.isNaN (F32.mul 0 0x7FC00000 0x46FFFE00) = true ∧
    F32.units (F32.mul 0 0x3F800000 0x46FFFE00) = 32767 * 2 ^ 149 ∧
    F32.units (F32.mul 0 0x3F7FFFFF 0x46FFFE00) < 32767 * 2 ^ 149 ∧
    F32.units (F32.mul 0 0xBF800100 0x46FFFE00) = -32768 * 2 ^ 149 ∧
    -32768 * 2 ^ 149 < F32.units (F32.mul 0 0xBF800001 0x46FFFE00) := by decide +kernel

/-- The frames of the second half: its first and its last. -/
theorem witness_frames :
    startFrame .second base.cfg ≤ 4 ∧ 7 < startFrame .second base.cfg + base.cfg.h ∧
    (15 < 4 * startFrame .second base.cfg ∨ 4 * (startFrame .second base.cfg + base.cfg.h) ≤ 32) ∧
    (3 < base.cfg.h) := by decide

theorem witness_SilenceRendersZero :
    base.out.wf = true ∧ F32.isFinite base.cfg.oscale = true ∧ (∀ v ∈ base.voices, v.active = false) ∧
    (transparent base.slot0 ∧ transparent base.slot1) ∧ ∃ t, serve .first base = .next t := by
  refine ⟨rfl, by decide, by decide, ?_, ⟨_, serve_eq .first base rfl⟩⟩
  unfold transparent
  decide

theorem inv_sustained : sustained.Inv Config.reference where
  phase := by decide +kernel
  frequency := by decide
  amplitude := by decide
  active := fun _ => by decide
  inactive := fun h => by cases h
  settled := fun _ => rfl
  times := ⟨rfl, rfl, rfl⟩
  levels := ⟨rfl, rfl⟩
  rate := rfl

/-- A running block with a voice that sounds meets the invariant, the premise of StepKeepsInvariant and EveryRunIsSafe. -/
theorem witness_StepKeepsInvariant : sounding.Inv where
  config := config_legal
  voiceCount := rfl
  voices := by
    intro v hv
    rcases List.mem_pair.mp hv with rfl | rfl
    · exact inv_sustained
    · exact Voice.inv_atReset Config.reference
  filter := Filter.inv_atReset Config.reference
  delay := Delay.inv_atReset config_legal
  dbufForm := rfl
  dbufSpace := rfl
  outForm := rfl
  outSpace := rfl
  mask := rfl
  response := Or.inl rfl
  progress := fun p hp => by cases hp

theorem witness_OnlyInitAndDeinitChangeLifecycle :
    ((result (step { State.reset with cmdIn := [⟨0x20, 0, 0⟩] })).map State.lc = some .running ∧ State.reset.lc = .reset) ∧
    ((result (step (waiting ⟨0x21, 0, 0⟩))).map State.lc = some .stopped ∧ (waiting ⟨0x21, 0, 0⟩).lc = .running) := by
  decide +kernel

/-- Each clause's register changes in some step. -/
theorem witness_ControlFieldsChangeOnlyByTheirCommand :
    (result (step (waiting ⟨5, 0x447A0000, 0x3F000000⟩))).map (fun t => [0, 1, 2].map t.controlRegister) =
      some [some 0x447A0000, some 0x3F000000, some 1] ∧
    (result (step (waiting ⟨6, 0x38C00000, 0x3F000000⟩))).map (fun t => (delayLen 8 t.delay, t.controlRegister 4)) =
      some (3, some 0x3F000000) ∧
    (result (step (waiting ⟨0x20107, 0, 0⟩))).map (fun t => t.controlRegister 7) = some (some 2) ∧
    (result (step (waiting ⟨0x10007, 0, 0⟩))).map (fun t => t.controlRegister 5) = some (some 1) ∧
    (result (step (waiting ⟨0x80000008, 0, 0⟩))).map (fun t => t.controlRegister 6) = some (some 1) ∧
    (result (step (waiting ⟨0x80000108, 0, 0⟩))).map (fun t => t.controlRegister 8) = some (some 1) ∧
    (result (step { waiting ⟨0x20, 0, 0⟩ with filter := { base.filter with sampleRate := 0 } })).map
      (fun t => t.controlRegister 9) = some (some 0x47000000) ∧
    (result (step { waiting ⟨0x20, 0, 0⟩ with voices := [{ sustained with env := { sustained.env with ramp :=
      { sustained.env.ramp with sampleRate := 0 } } }] })).map (fun t => t.voices.map (fun v => v.env.ramp.sampleRate)) =
      some [0x47000000, 0x47000000] := by decide +kernel

/-- A voice at each end of a pool of two. -/
theorem witness_VoicesAreFoldedInOrder :
    sounding.voices[0]? = some sustained ∧ sounding.voices[1]? = some (Voice.atReset Config.reference) := ⟨rfl, rfl⟩

/-- A run from reset that ends: INIT's sub-step, its response, and the rejection of an illegal OP. After its first step
INIT is still in progress, so it has no result there. -/
theorem witness_EveryCommandIsAnsweredOnce :
    let s : State := { State.reset with cmdIn := [⟨0x20, 0, 0⟩, ⟨0x00, 0, 0⟩] }
    (State.runResult 3 s).map RunResult.responses = some [⟨0, 0, 0⟩, ⟨1, 0, 0⟩] ∧ State.runResult 1 s = none := by
  decide +kernel

/-- The events of a run are used up one a step. -/
theorem evIn_after {s : State} : ∀ n t, State.after n s = .next t → t.evIn = s.evIn.drop n := by
  intro n
  induction n with
  | zero =>
    intro t h
    cases h
    rfl
  | succ n ih =>
    intro t h
    obtain ⟨u, hu, hs⟩ := State.after_succ_next n h
    rw [step_evIn hs, ih u hu, List.tail_drop]

/-- A run in which one render event is accepted and served. -/
theorem witness_DeadlineKeepsOneRenderPending :
    let s : State := { base with evIn := [1] }
    ASSUMED_DEADLINE s ∧ (s.pendHalf && s.pendFull) = false ∧ s.acceptsRender = true := by
  intro s
  have key : ∀ n t, State.after n s = .next t → t.acceptsRender = true → n = 0 := by
    intro n t h ha
    by_contra hn
    have he := evIn_after n t h
    rw [show s.evIn.drop n = [] from List.drop_eq_nil_of_le (by simp only [s, List.length_singleton]; omega)] at he
    unfold State.acceptsRender State.eventCode at ha
    rw [he] at ha
    simp at ha
  refine ⟨⟨fun n t h ha => ?_, fun n m t u hnm _ hm _ hb _ => ?_, fun n m t u hnm hn hm ha hb _ _ => ?_⟩, rfl, rfl⟩
  · cases key n t h ha
    cases h
    rfl
  · have h1 := key m u hm hb
    omega
  · have h1 := key m u hm hb
    omega

/-- TC1 after reset, with INIT on the command port and a HALF and a FULL to come, the FULL after INIT's response. -/
def starting : State := { State.reset with evIn := [0, 1, 0, 0, 2], cmdIn := [⟨0x00000020, 0, 0⟩] }

/-- How many sub-steps of INIT are done and whether nothing is pending, `n` steps after `starting`. -/
def lookStarting (n : Nat) : Option (Nat × Bool) :=
  (result (State.after n starting)).map (fun t => (t.subStep, t.noPending))

/-- R284, R270: INIT's sub-step, the HALF, its service, INIT's response: INIT is in progress before steps 1, 2 and 3 and
ended before step 4, and nothing is pending when an event arrives. -/
theorem test_init_run :
    lookStarting 1 = some (1, true) ∧ lookStarting 2 = some (1, false) ∧ lookStarting 3 = some (1, true) ∧
    lookStarting 4 = some (0, true) := by decide +kernel

theorem starting_eventCode {n : Nat} {t : State} (h : State.after n starting = .next t) :
    t.eventCode = ([0, 1, 0, 0, 2].drop n : List (BitVec 2)).headD 0 := by
  rw [State.eventCode, evIn_after n t h, show starting.evIn = [0, 1, 0, 0, 2] from rfl]

theorem starting_accepts {n : Nat} {t : State} (h : State.after n starting = .next t) (ha : t.acceptsRender = true) :
    n = 1 ∨ n = 4 := by
  by_contra hn
  have he : t.eventCode = 0 := by
    rw [starting_eventCode h]
    obtain rfl | rfl | rfl | h5 : n = 0 ∨ n = 2 ∨ n = 3 ∨ 5 ≤ n := by omega
    · rfl
    · rfl
    · rfl
    · rw [List.drop_eq_nil_of_le h5, List.headD_nil]
  simp [State.acceptsRender, he] at ha

/-- R354, R392: the premise admits the run in which FULL is the first event after INIT's response, since HALF came first after
INIT's sub-step; it does not restart the alternation at the response. -/
theorem witness_DeadlineAcrossInitResponse : starting.startsTransfer ∧ ASSUMED_DEADLINE starting := by
  obtain ⟨h1, h2, h3, h4⟩ := test_init_run
  have look {n : Nat} {t : State} {a : Nat × Bool} (h : State.after n starting = .next t) (hl : lookStarting n = some a) :
      (t.subStep, t.noPending) = a := by
    rw [lookStarting, h] at hl
    exact Option.some.inj hl
  have busy {n : Nat} {t : State} (h : State.after n starting = .next t) (hn : n = 1 ∨ n = 2 ∨ n = 3) :
      ¬ t.startsTransfer := by
    rintro ⟨h0, -⟩
    rcases hn with rfl | rfl | rfl
    · exact absurd (h0.symm.trans (congrArg Prod.fst (look h h1))) (by decide)
    · exact absurd (h0.symm.trans (congrArg Prod.fst (look h h2))) (by decide)
    · exact absurd (h0.symm.trans (congrArg Prod.fst (look h h3))) (by decide)
  refine ⟨⟨rfl, { starting.tick with cmdIn := [] }, by decide +kernel⟩, fun n t h ha => ?_,
    fun n m t u hnm hn hm hs ha hb => ?_, fun n m t u hnm hn hm ha hb _ _ => ?_⟩
  · rcases starting_accepts h ha with rfl | rfl
    · exact congrArg Prod.snd (look h h1)
    · exact congrArg Prod.snd (look h h4)
  · rcases starting_accepts hm ha with rfl | rfl
    · exact starting_eventCode hm
    · obtain rfl : n = 0 := by
        by_contra h0
        exact busy hn (by omega) hs
      cases hv : State.after 1 starting with
      | next v => exact absurd ((hb 1 v (by omega) (by omega) hv).1.symm.trans (starting_eventCode hv)) (by decide)
      | fault _ => rw [lookStarting, hv] at h1; cases h1
      | refused _ => rw [lookStarting, hv] at h1; cases h1
  · obtain ⟨rfl, rfl⟩ : n = 1 ∧ m = 4 := by
      have := starting_accepts hn ha
      have := starting_accepts hm hb
      omega
    rw [starting_eventCode hn, starting_eventCode hm]
    decide

end Sys2Proof.Test
end

section
/-! PROOFS. The numeric family of R9 to R11. `roundBits` answers a pattern nearest to the exact fraction, so the four
operations do; a tie goes to the even pattern; `round`, `floor` and `trunc` are the integer conversions of R10 and R11. -/

namespace Sys2Proof.F32

/-! ### Rounding a magnitude -/

/-- A rounding that stays finite answers a pattern at least as near to `n / d` as every other one. -/
theorem roundBits_nearest {n d : Nat} (hd : 0 < d) (hfin : roundBits n d < infBits) (c : Nat) :
    |(magOf (roundBits n d) : Int) * d - n| ≤ |(magOf c : Int) * d - n| := by
  obtain ⟨b, hlo, hhi, hres⟩ := roundBits_spec n d hd
  have hgap : (magOf (b + 1) - magOf b) * d = magOf (b + 1) * d - magOf b * d := Nat.sub_mul ..
  have hside : magOf c * d ≤ magOf b * d ∨ magOf (b + 1) * d ≤ magOf c * d := by
    rcases Nat.lt_or_ge b c with h | h
    · exact .inr (Nat.mul_le_mul_right d (magOf_le_iff.mpr h))
    · exact .inl (Nat.mul_le_mul_right d (magOf_le_iff.mpr h))
  simp only [← Int.natCast_mul]
  rcases hres with ⟨hup, h⟩ | ⟨hdown, h⟩
  · have hr : roundBits n d = b + 1 := by omega
    rw [hr, abs_of_pos (by omega), le_abs]
    unfold roundsUp at hup
    omega
  · have hr : roundBits n d = b := by omega
    rw [hr, abs_of_nonpos (by omega), le_abs]
    unfold roundsUp at hdown
    omega

/-- The midpoint of two neighbouring patterns rounds to the even one. -/
theorem roundBits_midpoint {b n d : Nat} (hd : 0 < d) (hb : b < infBits)
    (h : 2 * n = (magOf b + magOf (b + 1)) * d) : roundBits n d = if b % 2 = 0 then b else b + 1 := by
  obtain ⟨c, hlo, hhi, hres⟩ := roundBits_spec n d hd
  rw [Nat.add_mul] at h
  have hstep : magOf b * d < magOf (b + 1) * d := Nat.mul_lt_mul_of_pos_right (magOf_lt_succ b) hd
  have hcb : c < b + 1 := magOf_lt_iff.mp (Nat.lt_of_mul_lt_mul_right (a := d) (by omega))
  have hbc : b < c + 1 := magOf_lt_iff.mp (Nat.lt_of_mul_lt_mul_right (a := d) (by omega))
  obtain rfl : c = b := by omega
  have hup : roundsUp c n d ↔ c % 2 = 1 := by
    unfold roundsUp
    rw [Nat.sub_mul]
    omega
  rw [hup] at hres
  split <;> omega

/-- Settles O28: the exact case is `roundBits_exact`, the tie `roundBits_midpoint`. -/
theorem tiesRoundToEven : Obligations.TiesRoundToEven := by
  unfold Obligations.TiesRoundToEven
  intro b n d hd hb
  refine ⟨?_, roundBits_midpoint hd hb⟩
  rintro rfl
  rw [roundBits_exact b d hd, Nat.min_eq_left hb.le]

/-! ### The operations -/

theorem units_pack (s : Bool) {b : Nat} (hb : b < 2 ^ 31) :
    units (pack s b) = if s then -(magOf b : Int) else magOf b := by
  rw [units, mag, sign_pack s b hb, magBits_pack s b hb]

/-- A finite rounded result is a value nearest to the exact `± n / d`: a value of the other sign is farther than zero. -/
theorem units_pack_roundBits_nearest {s : Bool} {n d : Nat} {e : Int} (hd : 0 < d)
    (he : e = if s then -(n : Int) else n) (hfin : isFinite (pack s (roundBits n d)) = true) (z : F32) :
    |units (pack s (roundBits n d)) * d - e| ≤ |units z * d - e| := by
  have h31 : roundBits n d < 2 ^ 31 := lt_of_le_of_lt (roundBits_le_inf n d) (by norm_num)
  rw [isFinite_iff, magBits_pack _ _ h31] at hfin
  have hsame : |(magOf (roundBits n d) : Int) * d - n| ≤ |(mag z : Int) * d - n| :=
    roundBits_nearest hd hfin (magBits z)
  have hopp : |(magOf (roundBits n d) : Int) * d - n| ≤ |(mag z : Int) * d + n| := by
    have hzero := roundBits_nearest hd hfin 0
    have hpos : (0 : Int) ≤ mag z * d := by positivity
    rw [magOf_zero, Nat.cast_zero, zero_mul, zero_sub, abs_neg, Nat.abs_cast] at hzero
    exact hzero.trans (le_abs.mpr (.inl (by omega)))
  have hneg (a : Int) : |-a * d - -(n : Int)| = |a * d - n| := by rw [neg_mul, neg_sub_neg, abs_sub_comm]
  have hcross (a : Int) : |-a * d - (n : Int)| = |a * d + n| := by rw [← abs_neg]; ring_nf
  rw [units_pack s h31, he, units]
  cases s <;> cases sign z <;> simp only [Bool.false_eq_true, if_true, if_false]
  case false.false => exact hsame
  case false.true => rwa [hcross]
  case true.false => rwa [hneg, sub_neg_eq_add]
  case true.true => rwa [hneg, hneg]

theorem add_nearest (nan : BitVec 32) {x y : F32} (hx : isFinite x = true) (hy : isFinite y = true) (z : F32)
    (hfin : isFinite (add nan x y) = true) :
    |units (add nan x y) - (units x + units y)| ≤ |units z - (units x + units y)| := by
  rw [add_finite nan hx hy] at hfin ⊢
  by_cases h0 : units x + units y = 0
  · simp [h0, units_pack]
  · rw [if_neg h0] at hfin ⊢
    have hsum : units x + units y = if decide (units x + units y < 0) = true
        then -((units x + units y).natAbs : Int) else (units x + units y).natAbs := by
      simp only [decide_eq_true_eq]
      split <;> omega
    simpa using units_pack_roundBits_nearest Nat.one_pos hsum hfin z

/-- A difference is a sum with the negation, so it is nearest as the sum is. -/
theorem sub_nearest (nan : BitVec 32) {x y : F32} (hx : isFinite x = true) (hy : isFinite y = true) (z : F32)
    (hfin : isFinite (sub nan x y) = true) :
    |units (sub nan x y) - (units x - units y)| ≤ |units z - (units x - units y)| := by
  rw [sub_eq_add_neg (units x), ← units_neg]
  exact add_nearest nan hx ((isFinite_neg y).trans hy) z hfin

theorem mul_nearest (nan : BitVec 32) {x y : F32} (hx : isFinite x = true) (hy : isFinite y = true) (z : F32)
    (hfin : isFinite (mul nan x y) = true) :
    |units (mul nan x y) * 2 ^ 149 - units x * units y| ≤ |units z * 2 ^ 149 - units x * units y| := by
  rw [mul_finite nan hx hy] at hfin ⊢
  have hprod : units x * units y =
      if (sign x != sign y) = true then -((mag x * mag y : Nat) : Int) else (mag x * mag y : Nat) := by
    unfold units
    cases sign x <;> cases sign y <;> simp
  simpa using units_pack_roundBits_nearest one_pos hprod hfin z

/-- The error of a quotient times the divisor is its error times the divisor's magnitude, where `roundBits` measures it. -/
theorem div_nearest (nan : BitVec 32) {x y : F32} (hx : isFinite x = true) (hy : isFinite y = true) (z : F32)
    (h0 : units y ≠ 0) (hfin : isFinite (div nan x y) = true) :
    |units (div nan x y) * units y - units x * 2 ^ 149| ≤ |units z * units y - units x * 2 ^ 149| := by
  have hmag : 0 < mag y := by rw [← natAbs_units]; omega
  have hnz : isZero y = false := by
    refine decide_eq_false fun h => ?_
    rw [mag, h, magOf_zero] at hmag
    exact hmag.false
  rw [div_finite nan hx hy hnz] at hfin ⊢
  have hquot : (if sign y then -(units x * 2 ^ 149) else units x * 2 ^ 149) =
      if (sign x != sign y) = true then -((mag x * one : Nat) : Int) else (mag x * one : Nat) := by
    unfold units
    cases sign x <;> cases sign y <;> simp
  have herr (a : Int) : |a * units y - units x * 2 ^ 149| =
      |a * mag y - if sign y then -(units x * 2 ^ 149) else units x * 2 ^ 149| := by
    rw [units.eq_def y]
    cases sign y
    · rfl
    · rw [if_pos rfl, if_pos rfl, ← abs_neg]
      ring_nf
  rw [herr, herr]
  exact units_pack_roundBits_nearest hmag hquot hfin z

/-! ### The order of the values -/

theorem le_of_not_isNaN {x y : F32} (hx : isNaN x = false) (hy : isNaN y = false) :
    le x y = decide (units x ≤ units y) := by
  rw [Bool.eq_iff_iff, le_iff, decide_eq_true_iff]
  simp [hx, hy]

theorem lt_of_not_isNaN {x y : F32} (hx : isNaN x = false) (hy : isNaN y = false) :
    lt x y = decide (units x < units y) := by
  rw [Bool.eq_iff_iff, lt_iff, decide_eq_true_iff]
  simp [hx, hy]

theorem le_of_isNaN {x y : F32} (h : isNaN x = true ∨ isNaN y = true) : le x y = false := by
  rw [Bool.eq_false_iff, ne_eq, le_iff]
  rintro ⟨hx, hy, -⟩
  simp [hx, hy] at h

theorem lt_of_isNaN {x y : F32} (h : isNaN x = true ∨ isNaN y = true) : lt x y = false := by
  rw [Bool.eq_false_iff, ne_eq, lt_iff]
  rintro ⟨hx, hy, -⟩
  simp [hx, hy] at h

theorem abs_units (x : F32) : |units x| = mag x := by
  rw [Int.abs_eq_natAbs, natAbs_units]

theorem abs_units_lt_of_isFinite {x : F32} (h : isFinite x = true) : |units x| < 2 ^ 128 * 2 ^ 149 := by
  rw [abs_units]
  have := mag_le_of_finite h
  omega

/-- The formula of `magOf`, read at an infinity's pattern, gives 2^128. -/
theorem units_of_isInf {x : F32} (h : isInf x = true) :
    units x = if sign x then -(2 ^ 128 * 2 ^ 149) else 2 ^ 128 * 2 ^ 149 := by
  have hm : magBits x = infBits := of_decide_eq_true h
  rw [units, mag, hm, magOf_infBits]
  norm_num

/-- Settles O27: each operation rounds its exact result once, and a comparison reads the values' order. -/
theorem operatorsRoundToNearest : Obligations.OperatorsRoundToNearest := by
  unfold Obligations.OperatorsRoundToNearest
  refine ⟨fun nan x y z hx hy _ => ?_, fun x y => ⟨fun h => ?_, fun hx hy => ?_⟩, fun x => ?_⟩
  · exact ⟨add_nearest nan hx hy z, sub_nearest nan hx hy z, mul_nearest nan hx hy z, div_nearest nan hx hy z⟩
  · exact ⟨lt_of_isNaN h, le_of_isNaN h, lt_of_isNaN h.symm, le_of_isNaN h.symm⟩
  · exact ⟨lt_of_not_isNaN hx hy, le_of_not_isNaN hx hy, lt_of_not_isNaN hy hx, le_of_not_isNaN hy hx⟩
  · exact ⟨abs_units_lt_of_isFinite, units_of_isInf⟩

/-! ### The integer conversions -/

/-- The magnitude of `round`: the whole number nearest to `m` units, the upper one on a tie (R11). -/
def roundMag (m : Nat) : Nat := (2 * m + one) / (2 * one)

theorem roundMag_near (m : Nat) : |2 * (m : Int) - 2 * roundMag m * 2 ^ 149| ≤ 2 ^ 149 := by
  unfold roundMag one
  rw [abs_le]
  omega

/-- On a tie `roundMag` lies above the value. -/
theorem lt_roundMag_of_tie {m : Nat} (h : |2 * (m : Int) - 2 * roundMag m * 2 ^ 149| = 2 ^ 149) :
    (m : Int) < roundMag m * 2 ^ 149 := by
  unfold roundMag one at h ⊢
  rcases abs_eq (by positivity) |>.mp h with h | h <;> omega

/-- `round` rounds the magnitude and keeps the sign. -/
theorem round_finite {x : F32} (h : isFinite x = true) :
    round x = if sign x then -(roundMag (mag x) : Int) else roundMag (mag x) := by
  rw [round, if_pos h]
  rfl

theorem floor_finite {x : F32} (h : isFinite x = true) : floor x = units x / 2 ^ 149 := by
  rw [floor, if_pos h]
  norm_num

theorem abs_units_sub_round {x : F32} (h : isFinite x = true) :
    |2 * units x - 2 * round x * 2 ^ 149| = |2 * (mag x : Int) - 2 * roundMag (mag x) * 2 ^ 149| := by
  rw [round_finite h, units]
  cases sign x
  · rfl
  · rw [if_pos rfl, if_pos rfl, ← abs_neg]
    ring_nf

theorem abs_round {x : F32} (h : isFinite x = true) : |round x| = roundMag (mag x) := by
  rw [round_finite h]
  split <;> simp

theorem round_near {x : F32} (h : isFinite x = true) : |2 * units x - 2 * round x * 2 ^ 149| ≤ 2 ^ 149 := by
  rw [abs_units_sub_round h]
  exact roundMag_near (mag x)

theorem abs_units_lt_round_of_tie {x : F32} (h : isFinite x = true)
    (htie : |2 * units x - 2 * round x * 2 ^ 149| = 2 ^ 149) : |units x| < |round x * 2 ^ 149| := by
  rw [abs_units_sub_round h] at htie
  rw [abs_mul, abs_round h, abs_units]
  exact lt_roundMag_of_tie htie

theorem floor_mul_le {x : F32} (h : isFinite x = true) : floor x * 2 ^ 149 ≤ units x := by
  rw [floor_finite h]
  exact Int.ediv_mul_le _ (by positivity)

theorem lt_floor_add_one_mul {x : F32} (h : isFinite x = true) : units x < (floor x + 1) * 2 ^ 149 := by
  rw [floor_finite h]
  exact Int.lt_ediv_add_one_mul_self _ (by positivity)

theorem trunc_finite {x : F32} (h : isFinite x = true) :
    trunc x = if 0 ≤ units x then floor x else -floor (neg x) := by
  have hge : ge x 0 = decide (0 ≤ units x) := by rw [ge, le_finite (by decide) h, units_zero]
  rw [trunc, hge]
  simp

/-- Settles O29: `round` by its magnitude, `floor` and `trunc` by division, the examples by evaluation. -/
theorem roundIsHalfAwayFromZero : Obligations.RoundIsHalfAwayFromZero := by
  unfold Obligations.RoundIsHalfAwayFromZero
  refine ⟨fun x h => ⟨⟨round_near h, abs_units_lt_round_of_tie h⟩, ⟨floor_mul_le h, lt_floor_add_one_mul h⟩,
    trunc_finite h⟩, ?_⟩
  decide

end Sys2Proof.F32
end

section
/-! PROOFS. The invariant of 10_state.md. Which sub-steps a command runs is said once (`SubStepOf`, `exec_kinds`); that
each keeps the invariant is one case a sub-step, and a render keeps it frame by frame. -/

namespace Sys2Proof.Machine

/-! ### The sub-steps of a command -/

/-- The sub-steps each command is made of (R272 to R281, R284, R285), whatever their targets are. -/
inductive SubStepOf : Instr → (State → State) → Prop
  | activateVoice (idx : BitVec 8) (on : Bool) (n : Nat) : SubStepOf (.activateVoice idx on)
      (fun s => s.modifyVoice n (fun v => if on then v.activate (s.nans 0 (unitVoice n)) else v.deactivate))
  | setFrequency (idx : BitVec 8) (freq : F32) (n : Nat) : SubStepOf (.setFrequency idx freq)
      (fun s => s.modifyVoice n (fun v => { v with frequency := freq }))
  | setMidiNote (idx note : BitVec 8) (velocity : BitVec 7) (on : Bool) (n : Nat) :
      SubStepOf (.setMidiNote idx note velocity on)
      (fun s => s.modifyVoice n (fun v =>
        if on then
          { v with frequency := noteHz note.toNat, amplitude := vgainOf s.cfg velocity }.activate
            (s.nans 0 (unitVoice n))
        else { v with env := v.env.release (s.nans 0 (unitVoice n)) }))
  | setWaveform (idx wf : BitVec 8) (n : Nat) : SubStepOf (.setWaveform idx wf)
      (fun s => s.modifyVoice n (fun v => { v with waveform := (waveformOfId wf).getD v.waveform }))
  | updateFilter (cutoff q : F32) : SubStepOf (.updateFilter cutoff q)
      (fun s => { s with filter := (s.filter.update cutoff q).getD s.filter })
  | updateDelay (time feedback : F32) : SubStepOf (.updateDelay time feedback)
      (fun s => { s with delay := (s.delay.update (s.nans 0 unitSlot0) s.cfg.l time feedback).getD s.delay })
  | effectSetSlot (slot effect : BitVec 8) (n : SlotName) : SubStepOf (.effectSetSlot slot effect)
      (State.modifySlot n (fun r => { r with effect := (effectOfId effect).getD r.effect }))
  | effectActivateSlot (slot : BitVec 8) (on : Bool) (n : SlotName) : SubStepOf (.effectActivateSlot slot on)
      (State.modifySlot n (fun r => { r with active := on }))
  | init : SubStepOf .init initStep
  | deinit : SubStepOf .deinit deinitStep

/-- A sub-step writes no configuration (R30). -/
theorem SubStepOf.cfg {i : Instr} {u : State → State} (hu : SubStepOf i u) (r : State) : (u r).cfg = r.cfg := by
  cases hu with
  | effectSetSlot _ _ n => cases n <;> rfl
  | effectActivateSlot _ _ n => cases n <;> rfl
  | _ => rfl

/-- What `Progress.Inv` asks of a command's operands: their ranges (R102), and a finite frequency (R273). -/
structure OperandsLegal (c : Config) (i : Instr) : Prop where
  ranges    : i.wellFormed c.nv = true
  frequency : ∀ idx freq, i = .setFrequency idx freq → F32.isFinite freq = true

/-- In `s` the meaning of `i` is a command's (R270): `legal` is the outcome of its checks and `us` are its sub-steps. -/
structure RunsAs (i : Instr) (s : State) (legal : Bool) (us : List (State → State)) : Prop where
  exec_eq  : exec i s = execute i legal us s
  subSteps : ∀ u ∈ us, SubStepOf i u
  operands : legal = true → OperandsLegal s.cfg i
  count    : us.length ≤ subStepCount s.cfg.nv i

theorem isSome_targets (idx : BitVec 8) (nv : Nat) : (targets idx nv).isSome = voiceIndexLegal nv idx := by
  unfold targets voiceIndexLegal
  split_ifs <;> simp_all

theorem length_targets_le (idx : BitVec 8) (nv : Nat) :
    ((targets idx nv).getD []).length ≤ if idx = 0xFF then nv else 1 := by
  cases h : targets idx nv with
  | none => exact Nat.zero_le _
  | some vs =>
    rcases targets_cases h with ⟨hlt, rfl⟩ | ⟨rfl, rfl⟩
    · change 1 ≤ _
      split
      · omega
      · omega
    · simp

theorem isSome_waveformOfId (wf : BitVec 8) : (waveformOfId wf).isSome = waveformLegal wf := by
  have all : ∀ k : Fin 256, (waveformOfId (BitVec.ofFin k)).isSome = waveformLegal (BitVec.ofFin k) := by decide +kernel
  exact all wf.toFin

theorem isSome_effectOfId (effect : BitVec 8) : (effectOfId effect).isSome = effectLegal effect := by
  have all : ∀ k : Fin 256, (effectOfId (BitVec.ofFin k)).isSome = effectLegal (BitVec.ofFin k) := by decide +kernel
  exact all effect.toFin

theorem isSome_slotOfIndex (slot : BitVec 8) : (slotOfIndex slot).isSome = slotIndexLegal slot := by
  have all : ∀ k : Fin 256, (slotOfIndex (BitVec.ofFin k)).isSome = slotIndexLegal (BitVec.ofFin k) := by decide +kernel
  exact all slot.toFin

/-- A voice command runs one sub-step a target (R271). -/
theorem runsAs_voiceCommand {i : Instr} {s : State} {idx : BitVec 8} {legal : Bool} {f : Nat → State → Voice → Voice}
    (hx : exec i s = voiceCommand i idx legal f s) (hf : ∀ n, SubStepOf i (fun s => s.modifyVoice n (f n s)))
    (hl : voiceIndexLegal s.cfg.nv idx = true → legal = true → OperandsLegal s.cfg i)
    (hn : subStepCount s.cfg.nv i = if idx = 0xFF then s.cfg.nv else 1) : ∃ legal us, RunsAs i s legal us := by
  refine ⟨_, _, hx, fun u hu => ?_, fun h => ?_, ?_⟩
  · obtain ⟨n, -, rfl⟩ := List.mem_map.mp hu
    exact hf n
  · rw [isSome_targets, Bool.and_eq_true] at h
    exact hl h.1 h.2
  · rw [List.length_map, hn]
    exact length_targets_le idx s.cfg.nv

/-- A slot command runs one sub-step (R280, R281). -/
theorem runsAs_slotCommand {i : Instr} {s : State} {slot : BitVec 8} {legal : Bool} {f : Slot → Slot}
    (hx : exec i s = slotCommand i slot legal f s) (hf : ∀ n, SubStepOf i (State.modifySlot n f))
    (hl : slotIndexLegal slot = true → legal = true → OperandsLegal s.cfg i)
    (hn : subStepCount s.cfg.nv i = 1) : ∃ legal us, RunsAs i s legal us := by
  refine ⟨_, _, hx, fun u hu => ?_, fun h => ?_, ?_⟩
  · obtain ⟨n, -, rfl⟩ := List.mem_map.mp hu
    exact hf n
  · rw [isSome_slotOfIndex, Bool.and_eq_true] at h
    exact hl h.1 h.2
  · rw [List.length_map, hn]
    cases slotOfIndex slot with
    | none => exact Nat.zero_le 1
    | some n => exact Nat.le_refl 1

/-- A command whose fields R102 gives no range has one sub-step. -/
theorem runsAs_single {i : Instr} {s : State} {legal : Bool} {u : State → State} (hx : exec i s = execute i legal [u] s)
    (hu : SubStepOf i u) (hl : OperandsLegal s.cfg i) (hn : subStepCount s.cfg.nv i = 1) :
    ∃ legal us, RunsAs i s legal us :=
  ⟨_, _, hx, fun _ hv => List.mem_singleton.mp hv ▸ hu, fun _ => hl, hn.ge⟩

/-- `exec_cases` with the instruction kept in view: an event arrives; a getter answers; any other command runs the
sub-steps of its own that `SubStepOf` lists. -/
theorem exec_kinds (i : Instr) (s : State) :
    (i.isEvent = true ∧ (exec i s = .next s ∨ ∃ half, exec i s = .next (arrive half s))) ∨
    (i.isEvent = false ∧
      ((∃ r0 r1 r2, (r0 = 0x000 ∨ r0 = 0x100) ∧ exec i s = .next { respond r0 r1 r2 s with inProgress := none }) ∨
        ∃ legal us, RunsAs i s legal us)) := by
  have ranges {i : Instr} (h : i.wellFormed s.cfg.nv = true) (hi : ∀ idx freq, i ≠ .setFrequency idx freq) :
      OperandsLegal s.cfg i := ⟨h, fun idx freq e => absurd e (hi idx freq)⟩
  cases i with
  | activateVoice idx on =>
    exact .inr ⟨rfl, .inr (runsAs_voiceCommand rfl (.activateVoice idx on) (fun h _ => ranges h nofun) rfl)⟩
  | setFrequency idx freq =>
    refine .inr ⟨rfl, .inr (runsAs_voiceCommand rfl (.setFrequency idx freq) (fun h hfin => ⟨h, ?_⟩) rfl)⟩
    rintro _ _ ⟨⟩
    exact hfin
  | setMidiNote idx note velocity on =>
    exact .inr ⟨rfl, .inr (runsAs_voiceCommand rfl (.setMidiNote idx note velocity on)
      (fun h hnote => ranges (Bool.and_eq_true_iff.mpr ⟨h, hnote⟩) nofun) rfl)⟩
  | setWaveform idx wf =>
    exact .inr ⟨rfl, .inr (runsAs_voiceCommand rfl (.setWaveform idx wf)
      (fun h hwf => ranges (Bool.and_eq_true_iff.mpr ⟨h, isSome_waveformOfId wf ▸ hwf⟩) nofun) rfl)⟩
  | updateFilter cutoff q => exact .inr ⟨rfl, .inr (runsAs_single rfl (.updateFilter cutoff q) (ranges rfl nofun) rfl)⟩
  | updateDelay time feedback =>
    exact .inr ⟨rfl, .inr (runsAs_single rfl (.updateDelay time feedback) (ranges rfl nofun) rfl)⟩
  | effectSetSlot slot effect =>
    exact .inr ⟨rfl, .inr (runsAs_slotCommand rfl (.effectSetSlot slot effect)
      (fun h he => ranges (Bool.and_eq_true_iff.mpr ⟨h, isSome_effectOfId effect ▸ he⟩) nofun) rfl)⟩
  | effectActivateSlot slot on =>
    exact .inr ⟨rfl, .inr (runsAs_slotCommand rfl (.effectActivateSlot slot on) (fun h _ => ranges h nofun) rfl)⟩
  | getFilter =>
    refine .inr ⟨rfl, .inl ⟨_, _, _, ?_, rfl⟩⟩
    unfold filterStatus
    split
    · exact .inr rfl
    · exact .inl rfl
  | getDelay => exact .inr ⟨rfl, .inl ⟨_, _, _, .inl rfl, rfl⟩⟩
  | init => exact .inr ⟨rfl, .inr (runsAs_single rfl .init (ranges rfl nofun) rfl)⟩
  | deinit => exact .inr ⟨rfl, .inr (runsAs_single rfl .deinit (ranges rfl nofun) rfl)⟩
  | evHalf => exact .inl ⟨rfl, .inr ⟨.first, rfl⟩⟩
  | evFull => exact .inl ⟨rfl, .inr ⟨.second, rfl⟩⟩
  | evError => exact .inl ⟨rfl, .inl rfl⟩

/-! ### The invariant -/

theorem note_lt_of_operandsLegal {c : Config} {idx note : BitVec 8} {velocity : BitVec 7} {on : Bool}
    (h : OperandsLegal c (.setMidiNote idx note velocity on)) : note.toNat < 128 := by
  have hn := (Bool.and_eq_true_iff.mp h.ranges).2
  rw [noteLegal, decide_eq_true_eq] at hn
  omega

theorem State.Inv.initStep {s : State} (h : s.Inv) : (guarded initStep s).Inv :=
  { h with
    voiceCount := List.length_replicate
    voices := fun v hv => by
      rw [List.eq_of_mem_replicate hv]
      exact Voice.inv_atReset s.cfg
    filter := Filter.inv_atReset s.cfg
    delay := Delay.inv_atReset h.config
    dbufForm := rfl
    dbufSpace := rfl
    outForm := rfl
    outSpace := rfl
    mask := rfl }

theorem State.Inv.deinitStep {s : State} (h : s.Inv) : (guarded deinitStep s).Inv :=
  { h with
    voiceCount := (List.length_map _).trans h.voiceCount
    voices := fun v hv => by
      obtain ⟨w, hw, rfl⟩ := List.mem_map.mp hv
      exact (h.voices w hw).deactivate
    mask := rfl }

theorem State.Inv.modifySlot {s : State} (h : s.Inv) (n : SlotName) (f : Slot → Slot) :
    (guarded (State.modifySlot n f) s).Inv := by
  cases n
  · exact { h with mask := rfl }
  · exact { h with mask := rfl }

/-- A sub-step of a command with legal operands keeps the invariant: of the registers it writes, each keeps its own. -/
theorem SubStepOf.inv {i : Instr} {u : State → State} {s : State} (hu : SubStepOf i u) (ho : OperandsLegal s.cfg i)
    (h : s.Inv) : (guarded u s).Inv := by
  cases hu with
  | activateVoice idx on n =>
    refine { h.modifyVoice (fun v hv => ?_) n with mask := rfl }
    split
    · exact hv.activate _
    · exact hv.deactivate
  | setFrequency idx freq n =>
    exact { h.modifyVoice (fun v hv => hv.setFrequency (ho.frequency idx freq rfl)) n with mask := rfl }
  | setMidiNote idx note velocity on n =>
    refine { h.modifyVoice (fun v hv => ?_) n with mask := rfl }
    split
    · exact ((hv.setFrequency (isFinite_noteHz (note_lt_of_operandsLegal ho))).setAmplitude
        (isFinite_vgain h.config velocity)).activate _
    · exact hv.release _
  | setWaveform idx wf n => exact { h.modifyVoice (fun v hv => hv.setWaveform _) n with mask := rfl }
  | updateFilter cutoff q =>
    refine { h with mask := rfl, filter := ?_ }
    change ((s.filter.update cutoff q).getD s.filter).Inv s.cfg
    cases hf : s.filter.update cutoff q with
    | none => exact h.filter
    | some g => exact h.filter.update hf
  | updateDelay time feedback =>
    refine { h with mask := rfl, delay := ?_ }
    change ((s.delay.update (s.nans 0 unitSlot0) s.cfg.l time feedback).getD s.delay).Inv s.cfg
    cases hd : s.delay.update (s.nans 0 unitSlot0) s.cfg.l time feedback with
    | none => exact h.delay
    | some d => exact h.delay.update h.config hd
  | effectSetSlot slot effect n => exact h.modifySlot n _
  | effectActivateSlot slot on n => exact h.modifySlot n _
  | init => exact h.initStep
  | deinit => exact h.deinitStep

/-- The operands of the command a transition runs are legal: its checks passed in this step, or they passed when it
began. -/
theorem RunsAs.operandsLegal {i : Instr} {s : State} {legal : Bool} {us : List (State → State)}
    (hr : RunsAs i s legal us) (h : s.Inv) (hi : ∀ p, s.inProgress = some p → p.instr = i) (hl : s.inProgress = none → legal = true) :
    OperandsLegal s.cfg i := by
  cases hp : s.inProgress with
  | none => exact hr.operands (hl hp)
  | some p =>
    obtain rfl := hi p hp
    exact ⟨(h.progress p hp).operands, (h.progress p hp).frequency⟩

/-- A transition of a command keeps the invariant. -/
theorem RunsAs.exec_inv {i : Instr} {s : State} {legal : Bool} {us : List (State → State)} (hr : RunsAs i s legal us)
    (h : s.Inv) (hi : ∀ p, s.inProgress = some p → p.instr = i) : ∃ t, exec i s = .next t ∧ t.Inv := by
  rw [hr.exec_eq]
  rcases execute_cases i legal us s with ⟨-, -, e⟩ | ⟨hl, ⟨u, hu, e⟩ | ⟨-, e⟩⟩
  · exact ⟨_, e, h.paramError⟩
  · have ho := hr.operandsLegal h hi hl
    have hsub := hr.subSteps u (List.mem_of_getElem? hu)
    have hcfg : (guarded u s).cfg = s.cfg := hsub.cfg _
    obtain ⟨hlt, -⟩ := List.getElem?_eq_some_iff.mp hu
    refine ⟨_, e, { hsub.inv ho h with progress := ?_ }⟩
    rintro _ ⟨⟩
    rw [← hcfg] at ho
    exact ⟨ho.ranges, ho.frequency, Nat.succ_pos _, hcfg ▸ hlt.trans_le hr.count⟩
  · exact ⟨_, e, h.complete⟩

/-- Every instruction that can be next keeps the invariant: an event, or the command in progress, or a new one. -/
theorem State.Inv.exec {i : Instr} {s : State} (h : s.Inv)
    (hi : i.isEvent = false → ∀ p, s.inProgress = some p → p.instr = i) : ∃ t, exec i s = .next t ∧ t.Inv := by
  rcases exec_kinds i s with ⟨-, e | ⟨half, e⟩⟩ | ⟨hev, ⟨r0, r1, r2, h0, e⟩ | ⟨legal, us, hr⟩⟩
  · exact ⟨_, e, h⟩
  · exact ⟨_, e, h.arrive half⟩
  · exact ⟨_, e, h.respond r1 r2 (h0.imp_right .inr)⟩
  · exact hr.exec_inv h (hi hev)

/-- A frame of either half keeps the invariant (R310, R311). -/
theorem State.Inv.renderFrame {s : State} {k : Nat} (hk : k < 2 * s.cfg.h) (h : s.Inv) : (renderFrame k s).Inv := by
  have delay : ((Machine.renderFrame k s).delay).Inv s.cfg ∧ (Machine.renderFrame k s).dbuf.wf = true ∧
      (Machine.renderFrame k s).dbuf.within (4 * s.cfg.l) = true :=
    fxRender_delay_induct (P := fun d m => d.Inv s.cfg ∧ m.wf = true ∧ m.within (4 * s.cfg.l) = true)
      (fun ν x d m ⟨hd, hf, hs⟩ =>
        ⟨hd.process ν x m h.config, Delay.wf_process ν _ x d hf, Delay.within_process ν x hd.positions hs⟩)
      k (mixed k s).1 { s with voices := (mixed k s).2 } rfl ⟨h.delay, h.dbufForm, h.dbufSpace⟩
  obtain ⟨hdelay, hform, hspace⟩ := delay
  rw [renderFrame_eq]
  exact
    { h with
      voiceCount := (length_mixVoices _ _ _ _ _).trans h.voiceCount
      voices := inv_mixVoices h.config _ _ _ _ h.voices
      filter := fxRender_filter_induct (P := fun f => f.Inv s.cfg) (fun ν x _ hf => hf.process ν x)
        k (mixed k s).1 { s with voices := (mixed k s).2 } h.filter
      delay := hdelay
      dbufForm := hform
      dbufSpace := hspace
      outForm := renderFrames_wf_out 1 k s h.outForm
      outSpace := renderFrames_within_out (size := 8 * s.cfg.h) 1 k s (by omega) h.outSpace }

theorem State.Inv.renderFrames (n k : Nat) {s : State} (hk : k + n ≤ 2 * s.cfg.h) (h : s.Inv) :
    (renderFrames n k s).Inv := by
  induction n generalizing k s with
  | zero => exact h
  | succ n ih => exact ih (k + 1) (by rw [renderFrame_cfg]; omega) (h.renderFrame (by omega))

theorem State.Inv.beginService (half : Half) {s : State} (h : s.Inv) : (beginService half s).Inv := by
  cases half
  · exact { h with }
  · exact { h with }

/-- The service of a render does not fault, and keeps the invariant (R346, R66). -/
theorem State.Inv.serve (half : Half) {s : State} (h : s.Inv) : ∃ t, serve half s = .next t ∧ t.Inv := by
  refine ⟨_, serve_eq half s h.delay.positions, (h.beginService half).renderFrames _ _ ?_⟩
  cases half
  · change 0 + s.cfg.h ≤ 2 * s.cfg.h
    omega
  · change s.cfg.h + s.cfg.h ≤ 2 * s.cfg.h
    omega

/-- Settles O53, one case a move. -/
theorem stepKeepsInvariant : Obligations.StepKeepsInvariant := by
  unfold Obligations.StepKeepsInvariant
  intro s h
  rcases nextMove_cases s with ⟨c, hc, -⟩ | ⟨-, ⟨i, hd, e⟩ | ⟨-, -, -, e⟩ | ⟨-, -, -, e⟩ | ⟨-, -, ⟨p, hp, e⟩ |
    ⟨-, -, e⟩ | ⟨p, rest, hp, -, ⟨i, -, e⟩ | ⟨er, -, e⟩⟩⟩⟩
  · rw [h.config] at hc
    cases hc
  · rw [step_run e]
    refine h.tick.exec fun hev => ?_
    rw [isEvent_of_decodeEvent hd] at hev
    cases hev
  · exact ⟨_, step_wait e, h.tick⟩
  · rw [step_serve e]
    exact h.tick.serve _
  · rw [step_run e]
    refine h.tick.exec fun _ q hq => ?_
    cases hp.symm.trans hq
    rfl
  · exact ⟨_, step_wait e, h.tick⟩
  · rw [step_run e]
    refine State.Inv.exec (h.tick.dropPacket rest) fun _ q hq => ?_
    cases hp.symm.trans hq
  · exact ⟨_, step_reject e, (h.tick.dropPacket rest).paramError⟩

end Sys2Proof.Machine
end

section
/-! PROOFS. Who writes LC and the control registers (R40, R44): in a step that changes one of them the next move is a
command with a sub-step that changes it (`step_changes`). -/

namespace Sys2Proof.Machine

/-! ### What a step that changes a register runs -/

/-- The registers that only a render or a command's sub-step writes are the same: the states differ in the guard, the
pending bits, the response, the command in progress, the inputs and the counter alone. -/
structure SameRegisters (s t : State) : Prop where
  cfg    : t.cfg = s.cfg
  voices : t.voices = s.voices
  filter : t.filter = s.filter
  delay  : t.delay = s.delay
  slot0  : t.slot0 = s.slot0
  slot1  : t.slot1 = s.slot1
  lc     : t.lc = s.lc

theorem SameRegisters.refl (s : State) : SameRegisters s s := ⟨rfl, rfl, rfl, rfl, rfl, rfl, rfl⟩

theorem SameRegisters.trans {a b c : State} (h : SameRegisters a b) (g : SameRegisters b c) : SameRegisters a c :=
  ⟨g.1.trans h.1, g.2.trans h.2, g.3.trans h.3, g.4.trans h.4, g.5.trans h.5, g.6.trans h.6, g.7.trans h.7⟩

theorem sameRegisters_arrive (half : Half) (s : State) : SameRegisters s (arrive half s) :=
  ⟨by simp, by simp, by simp, by simp, by simp, by simp, by simp⟩

theorem sameRegisters_beginService (half : Half) (s : State) : SameRegisters s (beginService half s) := by
  cases half <;> exact ⟨rfl, rfl, rfl, rfl, rfl, rfl, rfl⟩

/-- An instruction leaves the registers as they are, or one sub-step of its own writes them. -/
theorem exec_writes {i : Instr} {s t : State} (h : exec i s = .next t) :
    SameRegisters s t ∨ ∃ u r, SubStepOf i u ∧ SameRegisters s r ∧ SameRegisters (u r) t := by
  rcases exec_kinds i s with ⟨-, e | ⟨half, e⟩⟩ | ⟨-, ⟨r0, r1, r2, -, e⟩ | ⟨legal, us, hr⟩⟩
  · cases e.symm.trans h
    exact .inl (SameRegisters.refl s)
  · cases e.symm.trans h
    exact .inl (sameRegisters_arrive half s)
  · cases e.symm.trans h
    exact .inl ⟨rfl, rfl, rfl, rfl, rfl, rfl, rfl⟩
  · rw [hr.exec_eq] at h
    rcases execute_cases i legal us s with ⟨-, -, e⟩ | ⟨-, ⟨u, hu, e⟩ | ⟨-, e⟩⟩
    · cases e.symm.trans h
      exact .inl ⟨rfl, rfl, rfl, rfl, rfl, rfl, rfl⟩
    · cases e.symm.trans h
      exact .inr ⟨u, { s with rmask := true }, hr.subSteps u (List.mem_of_getElem? hu),
        ⟨rfl, rfl, rfl, rfl, rfl, rfl, rfl⟩, ⟨rfl, rfl, rfl, rfl, rfl, rfl, rfl⟩⟩
    · cases e.symm.trans h
      exact .inl ⟨rfl, rfl, rfl, rfl, rfl, rfl, rfl⟩

/-- A step leaves the registers as they are, or it renders, or it runs a command one of whose sub-steps writes them. -/
theorem step_writes {s t : State} (h : step s = .next t) :
    SameRegisters s t ∨ (∃ n k r, SameRegisters s r ∧ t = renderFrames n k r) ∨
    ∃ i v u r, nextMove s = .run i v ∧ SubStepOf i u ∧ SameRegisters s r ∧ SameRegisters (u r) t := by
  have run {i : Instr} {v : State} (e : nextMove s = .run i v) (hv : SameRegisters s v) :
      SameRegisters s t ∨ (∃ n k r, SameRegisters s r ∧ t = renderFrames n k r) ∨
      ∃ i v u r, nextMove s = .run i v ∧ SubStepOf i u ∧ SameRegisters s r ∧ SameRegisters (u r) t := by
    rw [step_run e] at h
    rcases exec_writes h with same | ⟨u, r, hu, hr, ht⟩
    · exact .inl (hv.trans same)
    · exact .inr (.inr ⟨i, v, u, r, e, hu, hv.trans hr, ht⟩)
  have tick : SameRegisters s s.tick := ⟨rfl, rfl, rfl, rfl, rfl, rfl, rfl⟩
  rcases nextMove_cases s with ⟨c, -, e⟩ | ⟨-, ⟨i, -, e⟩ | ⟨-, -, -, e⟩ | ⟨-, -, -, e⟩ | ⟨-, -, ⟨p, -, e⟩ | ⟨-, -, e⟩ |
    ⟨p, rest, -, -, ⟨i, -, e⟩ | ⟨er, -, e⟩⟩⟩⟩
  · unfold step at h
    rw [e] at h
    cases h
  · exact run e tick
  · cases (step_wait e).symm.trans h
    exact .inl tick
  · rw [step_serve e] at h
    exact .inr (.inl ⟨_, _, _, tick.trans (sameRegisters_beginService _ _), (serve_next h).2⟩)
  · exact run e tick
  · cases (step_wait e).symm.trans h
    exact .inl tick
  · exact run e ⟨rfl, rfl, rfl, rfl, rfl, rfl, rfl⟩
  · cases (step_reject e).symm.trans h
    exact .inl ⟨rfl, rfl, rfl, rfl, rfl, rfl, rfl⟩

/-- A step that changes `π`, a view of the registers that no render changes, runs a command with a sub-step that
changes it. -/
theorem step_changes {α : Type} {π : State → α} {s t : State} (h : step s = .next t)
    (hreads : ∀ a b, SameRegisters a b → π b = π a)
    (hrender : ∀ n k r, SameRegisters s r → π (renderFrames n k r) = π r) (hne : π t ≠ π s) :
    ∃ i v u r, nextMove s = .run i v ∧ SubStepOf i u ∧ SameRegisters (u r) t ∧ SameRegisters s r ∧ π (u r) ≠ π r := by
  rcases step_writes h with same | ⟨n, k, r, hr, rfl⟩ | ⟨i, v, u, r, hm, hu, hr, ht⟩
  · exact absurd (hreads _ _ same) hne
  · exact absurd ((hrender n k r hr).trans (hreads _ _ hr)) hne
  · refine ⟨i, v, u, r, hm, hu, ht, hr, fun heq => hne ?_⟩
    rw [hreads _ _ ht, heq, hreads _ _ hr]

/-! ### What each sub-step leaves as it is -/

/-- INIT sets LC to RUNNING and DEINIT to STOPPED (R40). -/
theorem SubStepOf.lc {i : Instr} {u : State → State} (hu : SubStepOf i u) (r : State) :
    (u r).lc = r.lc ∨ (i = .init ∧ (u r).lc = .running) ∨ (i = .deinit ∧ (u r).lc = .stopped) := by
  cases hu with
  | effectSetSlot _ _ n => cases n <;> exact .inl rfl
  | effectActivateSlot _ _ n => cases n <;> exact .inl rfl
  | init => exact .inr (.inl ⟨rfl, rfl⟩)
  | deinit => exact .inr (.inr ⟨rfl, rfl⟩)
  | _ => exact .inl rfl

theorem SubStepOf.filter {i : Instr} {u : State → State} (hu : SubStepOf i u) (r : State) :
    (u r).filter = r.filter ∨ i = .init ∨
      ∃ cutoff q, i = .updateFilter cutoff q ∧ (u r).filter.sampleRate = r.filter.sampleRate := by
  cases hu with
  | updateFilter cutoff q =>
    refine .inr (.inr ⟨cutoff, q, rfl, ?_⟩)
    change ((r.filter.update cutoff q).getD r.filter).sampleRate = _
    rw [Filter.update_eq]
    split <;> rfl
  | effectSetSlot _ _ n => cases n <;> exact .inl rfl
  | effectActivateSlot _ _ n => cases n <;> exact .inl rfl
  | init => exact .inr (.inl rfl)
  | _ => exact .inl rfl

theorem SubStepOf.delay {i : Instr} {u : State → State} (hu : SubStepOf i u) (r : State) :
    (u r).delay = r.delay ∨ i = .init ∨
      ∃ time feedback, i = .updateDelay time feedback ∧ (u r).delay.sampleRate = r.delay.sampleRate := by
  cases hu with
  | updateDelay time feedback =>
    refine .inr (.inr ⟨time, feedback, rfl, ?_⟩)
    change ((r.delay.update (r.nans 0 unitSlot0) r.cfg.l time feedback).getD r.delay).sampleRate = _
    rw [Delay.update_eq]
    split <;> rfl
  | effectSetSlot _ _ n => cases n <;> exact .inl rfl
  | effectActivateSlot _ _ n => cases n <;> exact .inl rfl
  | init => exact .inr (.inl rfl)
  | _ => exact .inl rfl

theorem SubStepOf.effects {i : Instr} {u : State → State} (hu : SubStepOf i u) (r : State) :
    ((u r).slot0.effect = r.slot0.effect ∧ (u r).slot1.effect = r.slot1.effect) ∨ i = .init ∨
      ∃ slot effect, i = .effectSetSlot slot effect := by
  cases hu with
  | effectSetSlot slot effect n => exact .inr (.inr ⟨slot, effect, rfl⟩)
  | effectActivateSlot _ _ n => cases n <;> exact .inl ⟨rfl, rfl⟩
  | init => exact .inr (.inl rfl)
  | _ => exact .inl ⟨rfl, rfl⟩

theorem SubStepOf.actives {i : Instr} {u : State → State} (hu : SubStepOf i u) (r : State) :
    ((u r).slot0.active = r.slot0.active ∧ (u r).slot1.active = r.slot1.active) ∨ i = .init ∨
      ∃ slot on, i = .effectActivateSlot slot on := by
  cases hu with
  | effectSetSlot _ _ n => cases n <;> exact .inl ⟨rfl, rfl⟩
  | effectActivateSlot slot on n => exact .inr (.inr ⟨slot, on, rfl⟩)
  | init => exact .inr (.inl rfl)
  | _ => exact .inl ⟨rfl, rfl⟩

/-- The sample rates of the voices' ramps (R36). -/
def State.rampRates (s : State) : List F32 := s.voices.map (fun v => v.env.ramp.sampleRate)

theorem rampRates_modifyVoice {g : Voice → Voice} (hg : ∀ v, (g v).env.ramp.sampleRate = v.env.ramp.sampleRate)
    (n : Nat) (s : State) : (s.modifyVoice n g).rampRates = s.rampRates := by
  unfold State.rampRates State.modifyVoice
  refine List.ext_getElem? fun j => ?_
  rw [List.getElem?_map, List.getElem?_map, List.getElem?_modify]
  cases s.voices[j]? with
  | none => rfl
  | some v =>
    refine congrArg some ?_
    change (if n = j then g v else v).env.ramp.sampleRate = _
    split
    · exact hg v
    · rfl

theorem SubStepOf.rampRates {i : Instr} {u : State → State} (hu : SubStepOf i u) (r : State) :
    (u r).rampRates = r.rampRates ∨ i = .init := by
  cases hu with
  | activateVoice idx on n =>
    refine .inl (rampRates_modifyVoice (fun v => ?_) n r)
    split
    · exact (Env.same_trigger _ v.env).rate
    · rfl
  | setFrequency idx freq n =>
    exact .inl (rampRates_modifyVoice (g := fun v => { v with frequency := freq }) (fun _ => rfl) n r)
  | setMidiNote idx note velocity on n =>
    refine .inl (rampRates_modifyVoice (fun v => ?_) n r)
    split
    · exact (Env.same_trigger _ v.env).rate
    · exact (Env.same_release _ v.env).rate
  | setWaveform idx wf n =>
    exact .inl (rampRates_modifyVoice (g := fun v => { v with waveform := (waveformOfId wf).getD v.waveform })
      (fun _ => rfl) n r)
  | effectSetSlot _ _ n => cases n <;> exact .inl rfl
  | effectActivateSlot _ _ n => cases n <;> exact .inl rfl
  | init => exact .inr rfl
  | deinit => exact .inl (List.map_map ..)
  | _ => exact .inl rfl

/-! ### What a render leaves as it is -/

theorem renderFrames_filter_same (n k : Nat) (s : State) : s.filter.Same (renderFrames n k s).filter :=
  renderFrames_induct (P := fun r => s.filter.Same r.filter)
    (fun k r h => fxRender_filter_induct (P := s.filter.Same) (fun ν x f hf => hf.trans (Filter.same_process ν x f))
      k (mixed k r).1 { r with voices := (mixed k r).2 } h) n k s (Filter.Same.refl _)

/-- A property of the delay that every call of it keeps is kept by the frames of a half. -/
theorem renderFrames_delay_induct {P : Delay → Prop} {s : State}
    (hP : ∀ ν x d m, P d → P (d.process ν s.cfg.l x m).2.1) (n k : Nat) (h : P s.delay) :
    P (renderFrames n k s).delay :=
  (renderFrames_induct (P := fun r => r.cfg = s.cfg ∧ P r.delay)
    (fun k r ⟨hc, hr⟩ => ⟨(renderFrame_cfg k r).trans hc, fxRender_delay_induct (P := fun d _ => P d) hP
      k (mixed k r).1 { r with voices := (mixed k r).2 } (congrArg Config.l hc) hr⟩) n k s ⟨rfl, h⟩).2

/-- The delay length is kept by a call, which moves both positions by one (R243, R244). -/
theorem delayLen_process (ν : Nat → BitVec 32) {l : Nat} (h1 : 1 ≤ l) (h2 : l ≤ 2 ^ 24) (x : F32) (d : Delay)
    (m : Memory) : delayLen l (d.process ν l x m).2.1 = delayLen l d := by
  have hmod : ((d.writePos.toNat + 1) % l - (d.readPos.toNat + 1) % l - 1 : Int) ≡
      (d.writePos.toNat + 1) - (d.readPos.toNat + 1) - 1 [ZMOD l] :=
    ((Int.mod_modEq _ _).sub (Int.mod_modEq _ _)).sub_right 1
  unfold delayLen
  simp only [Delay.process, toNat_advancePos h1 h2]
  push_cast
  rw [hmod, add_sub_add_right_eq_sub]

theorem renderFrames_rampRates (n k : Nat) (s : State) : (renderFrames n k s).rampRates = s.rampRates := by
  have h : List.Forall₂ Voice.Same s.voices (renderFrames n k s).voices :=
    forall₂_renderFrames Voice.Same.refl (fun _ _ _ => Voice.Same.trans) n k s
      (fun ν sum v => Voice.same_mix ν s.cfg sum v)
  have heq : List.Forall₂ Eq s.rampRates (renderFrames n k s).rampRates :=
    List.forall₂_map_left_iff.mpr (List.forall₂_map_right_iff.mpr (h.imp fun _ _ hv => hv.env.rate.symm))
  rw [List.forall₂_eq_eq_eq] at heq
  exact heq.symm

/-! ### LC and the control registers -/

/-- Settles O55: of the sub-steps, INIT's and DEINIT's alone write LC. -/
theorem onlyInitAndDeinitChangeLifecycle : Obligations.OnlyInitAndDeinitChangeLifecycle := by
  unfold Obligations.OnlyInitAndDeinitChangeLifecycle
  refine ⟨fun _ => rfl, fun s t h hne => ?_⟩
  obtain ⟨i, v, u, r, hm, hu, ht, -, hch⟩ :=
    step_changes (π := State.lc) h (fun _ _ hs => hs.lc) (fun n k r _ => renderFrames_lc n k r) hne
  rcases hu.lc r with hl | ⟨rfl, hl⟩ | ⟨rfl, hl⟩
  · exact absurd hl hch
  · exact ⟨v, .inl ⟨hm, ht.lc.trans hl⟩⟩
  · exact ⟨v, .inr ⟨hm, ht.lc.trans hl⟩⟩

/-- No step writes the configuration (R30). -/
theorem step_cfg {s t : State} (h : step s = .next t) : t.cfg = s.cfg := by
  by_contra hne
  obtain ⟨i, v, u, r, -, hu, -, -, hch⟩ :=
    step_changes (π := State.cfg) h (fun _ _ hs => hs.cfg) (fun n k r _ => renderFrames_cfg n k r) hne
  exact hch (hu.cfg r)

theorem SameRegisters.controlRegister {s t : State} (h : SameRegisters s t) (n : Nat) :
    t.controlRegister n = s.controlRegister n := by
  unfold State.controlRegister
  rw [h.filter, h.delay, h.slot0, h.slot1]

/-- CR0 to CR2 and CR9 are read from what `lpf_process` never writes. -/
theorem controlRegister_filter {s t : State} {n : Nat} (hn : n ∈ [0, 1, 2, 9]) (h : s.filter.Same t.filter) :
    t.controlRegister n = s.controlRegister n := by
  simp only [List.mem_cons, List.not_mem_nil, or_false] at hn
  rcases hn with rfl | rfl | rfl | rfl <;>
    simp only [State.controlRegister, h.cutoff, h.q, h.ready, h.sampleRate]

theorem controlRegister_effect {s t : State} {n : Nat} (hn : n ∈ [5, 7]) (h0 : t.slot0.effect = s.slot0.effect)
    (h1 : t.slot1.effect = s.slot1.effect) : t.controlRegister n = s.controlRegister n := by
  simp only [List.mem_cons, List.not_mem_nil, or_false] at hn
  rcases hn with rfl | rfl <;> simp only [State.controlRegister, h0, h1]

theorem controlRegister_active {s t : State} {n : Nat} (hn : n ∈ [6, 8]) (h0 : t.slot0.active = s.slot0.active)
    (h1 : t.slot1.active = s.slot1.active) : t.controlRegister n = s.controlRegister n := by
  simp only [List.mem_cons, List.not_mem_nil, or_false] at hn
  rcases hn with rfl | rfl <;> simp only [State.controlRegister, h0, h1]

/-- CR0 to CR2: the cutoff, q and ready. -/
theorem runs_of_filter_changed {s t : State} (h : step s = .next t) {n : Nat} (hn : n ∈ [0, 1, 2])
    (hne : t.controlRegister n ≠ s.controlRegister n) :
    ∃ v, nextMove s = .run .init v ∨ ∃ cutoff q, nextMove s = .run (.updateFilter cutoff q) v := by
  have hn' : n ∈ [0, 1, 2, 9] := List.mem_append_left [9] hn
  obtain ⟨i, v, u, r, hm, hu, -, -, hch⟩ := step_changes (π := fun s => s.controlRegister n) h
    (fun _ _ hs => hs.controlRegister n)
    (fun m k r _ => controlRegister_filter hn' (renderFrames_filter_same m k r)) hne
  rcases hu.filter r with hf | rfl | ⟨cutoff, q, rfl, -⟩
  · exact absurd (controlRegister_filter hn' (hf ▸ Filter.Same.refl _)) hch
  · exact ⟨v, .inl hm⟩
  · exact ⟨v, .inr ⟨cutoff, q, hm⟩⟩

/-- What CR3 is read back as: no call of the delay changes it, though each moves the read position. -/
theorem runs_of_delayLen_changed {s t : State} (h : step s = .next t) (h1 : 1 ≤ s.cfg.l) (h2 : s.cfg.l ≤ 2 ^ 24)
    (hne : delayLen t.cfg.l t.delay ≠ delayLen s.cfg.l s.delay) :
    ∃ v, nextMove s = .run .init v ∨ ∃ time feedback, nextMove s = .run (.updateDelay time feedback) v := by
  have render (n k : Nat) (r : State) (hr : SameRegisters s r) :
      delayLen (renderFrames n k r).cfg.l (renderFrames n k r).delay = delayLen r.cfg.l r.delay := by
    rw [← hr.cfg] at h1 h2
    rw [renderFrames_cfg]
    exact renderFrames_delay_induct (P := fun d => delayLen r.cfg.l d = delayLen r.cfg.l r.delay)
      (fun ν x d m hd => (delayLen_process ν h1 h2 x d m).trans hd) n k rfl
  obtain ⟨i, v, u, r, hm, hu, -, -, hch⟩ := step_changes (π := fun s => delayLen s.cfg.l s.delay) h
    (fun _ _ hs => by rw [hs.cfg, hs.delay]) render hne
  rcases hu.delay r with hd | rfl | ⟨time, feedback, rfl, -⟩
  · exact absurd (by rw [hu.cfg r, hd]) hch
  · exact ⟨v, .inl hm⟩
  · exact ⟨v, .inr ⟨time, feedback, hm⟩⟩

/-- CR4: the feedback. -/
theorem runs_of_feedback_changed {s t : State} (h : step s = .next t)
    (hne : t.controlRegister 4 ≠ s.controlRegister 4) :
    ∃ v, nextMove s = .run .init v ∨ ∃ time feedback, nextMove s = .run (.updateDelay time feedback) v := by
  obtain ⟨i, v, u, r, hm, hu, -, -, hch⟩ := step_changes (π := fun s => s.controlRegister 4) h
    (fun _ _ hs => hs.controlRegister 4)
    (fun n k r _ => renderFrames_delay_induct (P := fun d => some d.feedback = some r.delay.feedback)
      (fun _ _ _ _ hd => hd) n k rfl) hne
  rcases hu.delay r with hd | rfl | ⟨time, feedback, rfl, -⟩
  · exact absurd (congrArg (fun d : Delay => some d.feedback) hd) hch
  · exact ⟨v, .inl hm⟩
  · exact ⟨v, .inr ⟨time, feedback, hm⟩⟩

/-- CR5 and CR7: the effects of the slots. -/
theorem runs_of_effect_changed {s t : State} (h : step s = .next t) {n : Nat} (hn : n ∈ [5, 7])
    (hne : t.controlRegister n ≠ s.controlRegister n) :
    ∃ v, nextMove s = .run .init v ∨ ∃ slot effect, nextMove s = .run (.effectSetSlot slot effect) v := by
  obtain ⟨i, v, u, r, hm, hu, -, -, hch⟩ := step_changes (π := fun s => s.controlRegister n) h
    (fun _ _ hs => hs.controlRegister n) (fun m k r _ => controlRegister_effect hn (by simp) (by simp)) hne
  rcases hu.effects r with ⟨h0, h1⟩ | rfl | ⟨slot, effect, rfl⟩
  · exact absurd (controlRegister_effect hn h0 h1) hch
  · exact ⟨v, .inl hm⟩
  · exact ⟨v, .inr ⟨slot, effect, hm⟩⟩

/-- CR6 and CR8: whether each slot is active. -/
theorem runs_of_active_changed {s t : State} (h : step s = .next t) {n : Nat} (hn : n ∈ [6, 8])
    (hne : t.controlRegister n ≠ s.controlRegister n) :
    ∃ v, nextMove s = .run .init v ∨ ∃ slot on, nextMove s = .run (.effectActivateSlot slot on) v := by
  obtain ⟨i, v, u, r, hm, hu, -, -, hch⟩ := step_changes (π := fun s => s.controlRegister n) h
    (fun _ _ hs => hs.controlRegister n) (fun m k r _ => controlRegister_active hn (by simp) (by simp)) hne
  rcases hu.actives r with ⟨h0, h1⟩ | rfl | ⟨slot, on, rfl⟩
  · exact absurd (controlRegister_active hn h0 h1) hch
  · exact ⟨v, .inl hm⟩
  · exact ⟨v, .inr ⟨slot, on, hm⟩⟩

/-- CR9 in each of its three registers: the sample rates. -/
theorem runs_init_of_rate_changed {s t : State} (h : step s = .next t)
    (hne : t.controlRegister 9 ≠ s.controlRegister 9 ∨ t.delay.sampleRate ≠ s.delay.sampleRate ∨
      t.rampRates ≠ s.rampRates) : ∃ v, nextMove s = .run .init v := by
  rcases hne with hne | hne | hne
  · obtain ⟨i, v, u, r, hm, hu, -, -, hch⟩ := step_changes (π := fun s => s.controlRegister 9) h
      (fun _ _ hs => hs.controlRegister 9)
      (fun n k r _ => controlRegister_filter (by decide) (renderFrames_filter_same n k r)) hne
    rcases hu.filter r with hf | rfl | ⟨cutoff, q, rfl, hf⟩
    · exact absurd (congrArg (fun f : Filter => some f.sampleRate) hf) hch
    · exact ⟨v, hm⟩
    · exact absurd (congrArg some hf) hch
  · obtain ⟨i, v, u, r, hm, hu, -, -, hch⟩ := step_changes (π := fun s => s.delay.sampleRate) h
      (fun _ _ hs => congrArg Delay.sampleRate hs.delay)
      (fun n k r _ => renderFrames_delay_induct (P := fun d => d.sampleRate = r.delay.sampleRate)
        (fun _ _ _ _ hd => hd) n k rfl) hne
    rcases hu.delay r with hd | rfl | ⟨time, feedback, rfl, hd⟩
    · exact absurd (congrArg Delay.sampleRate hd) hch
    · exact ⟨v, hm⟩
    · exact absurd hd hch
  · obtain ⟨i, v, u, r, hm, hu, -, -, hch⟩ := step_changes (π := State.rampRates) h
      (fun _ _ hs => by unfold State.rampRates; rw [hs.voices])
      (fun n k r _ => renderFrames_rampRates n k r) hne
    rcases hu.rampRates r with hv | rfl
    · exact absurd hv hch
    · exact ⟨v, hm⟩

/-- Settles O56, one lemma a group of registers. That both delay positions lie in DBUF is not needed: a call of the
delay reduces any position. -/
theorem controlFieldsChangeOnlyByTheirCommand : Obligations.ControlFieldsChangeOnlyByTheirCommand := by
  unfold Obligations.ControlFieldsChangeOnlyByTheirCommand
  intro s t h
  exact ⟨step_cfg h, fun _ hn => runs_of_filter_changed h hn, fun h1 h2 _ => runs_of_delayLen_changed h h1 h2,
    runs_of_feedback_changed h, fun _ hn => runs_of_effect_changed h hn, fun _ hn => runs_of_active_changed h hn,
    runs_init_of_rate_changed h⟩

end Sys2Proof.Machine
end

section
/-! PROOFS. A whole voice command on ALL voices (R71, R270, R271). Between two of its steps the block is `allVoicesAt`: the
first voices are changed, the others as they were. One lemma a kind of step says how the step moves it on, and the run is
an induction on its steps. -/

open Sys2Proof.Claim

namespace Sys2Proof.Machine

/-! ### The move of a block with no event and no pending render -/

/-- With no event presented and no render pending, the command context moves (R346). -/
theorem nextMove_command {s : State} (hc : failingCheck s.cfg = none) (he : s.eventCode = 0)
    (hn : s.noPending = true) : nextMove s = commandMove s s.tick := by
  have hev : decodeEvent s.eventCode = .error .noEvent := by
    rw [he]
    rfl
  simp only [nextMove, hc, hev, hn, if_true]

theorem nextMove_presents {s : State} {p : Packet} {rest : List Packet} {i : Instr} (h : Presents s p rest)
    (hd : decodePacket p = .ok i) : nextMove s = .run i { s.tick with cmdIn := rest } := by
  rw [nextMove_command h.config h.noEvent h.noPending]
  simp only [commandMove, h.noCommand, h.packet, hd]

theorem nextMove_inProgress {s : State} {p : Progress} (hc : failingCheck s.cfg = none) (he : s.eventCode = 0)
    (hn : s.noPending = true) (hp : s.inProgress = some p) : nextMove s = .run p.instr s.tick := by
  rw [nextMove_command hc he hn]
  simp only [commandMove, hp]

/-- With no event to come, a step that begins changes the counter alone. -/
theorem tick_of_noEvents {s : State} (h : s.evIn = []) : s.tick = { s with fresh := s.fresh + 1 } := by
  rw [State.tick, h]
  rfl

/-- A legal pool has a voice and at most 255 of them (c1 of R381). -/
theorem nv_of_legal {c : Config} (h : failingCheck c = none) : 1 ≤ c.nv ∧ c.nv ≤ 255 :=
  of_decide_eq_true (checkPasses_of_legal h .c1)

/-- A run that answers, and then one step more. -/
theorem State.after_snoc {s t : State} {n : Nat} (h : State.after n s = .next t) : State.after (n + 1) s = step t := by
  induction n generalizing s with
  | zero =>
    cases h
    rw [State.after]
    cases step t <;> rfl
  | succ n ih =>
    cases hs : step s with
    | next v =>
      rw [State.after_succ n hs] at h
      rw [State.after_succ (n + 1) hs, ih h]
    | fault r => exact absurd h (State.after_succ_of_stop n (by simp [hs]) t)
    | refused r => exact absurd h (State.after_succ_of_stop n (by simp [hs]) t)

/-! ### The transitions of a command whose operands are legal -/

theorem execute_subStep {i : Instr} {us : List (State → State)} {s : State} {u : State → State}
    (hu : us[s.subStep]? = some u) : execute i true us s =
      .next { guarded u s with inProgress := some { instr := i, done := s.subStep + 1 } } := by
  simp [execute, hu]

theorem execute_response {i : Instr} {us : List (State → State)} {s : State} (h : us.length ≤ s.subStep) :
    execute i true us s = .next (complete s) := by
  simp [execute, List.getElem?_eq_none h]

/-! ### A voice command on ALL voices -/

/-- 0xFF names every voice, and no voice by its own number, in a pool of at most 255 (R102). -/
theorem targets_all {nv : Nat} (h : nv ≤ 255) : targets 0xFF nv = some (List.range nv) := by
  have hlt : ¬ (0xFF : BitVec 8).toNat < nv := Nat.not_lt.mpr h
  rw [targets, if_neg hlt, if_pos rfl]

/-- The model's release is the one R205 lists stage by stage. -/
theorem Env.release_eq_released (ν : Nat → BitVec 32) (e : Env) : e.release ν = released ν e := by
  unfold Env.release released
  cases e.stage <;> rfl

/-- The ids of R151, in order. -/
theorem waveformOfId_eq (wf : BitVec 8) :
    waveformOfId wf = [Waveform.saw, .reverseSaw, .square, .sine, .triangle][wf.toNat]? := by
  have all : ∀ k : Fin 256, waveformOfId (BitVec.ofFin k) =
      [Waveform.saw, .reverseSaw, .square, .sine, .triangle][(BitVec.ofFin k : BitVec 8).toNat]? := by decide +kernel
  exact all wf.toFin

/-- The sub-step of a voice command on voice `n`: that voice is changed as the command's rule says. -/
def voiceSubStep (i : Instr) (n : Nat) (s : State) : State :=
  s.modifyVoice n (voiceEffect (voiceNaNs s n) s.cfg i)

/-- A legal ALL command passes its checks and has one sub-step a voice, in index order (R271). -/
theorem exec_legalOnAll {i : Instr} (h : legalOnAll i = true) {s : State} (hnv : s.cfg.nv ≤ 255) :
    exec i s = execute i true ((List.range s.cfg.nv).map (voiceSubStep i)) s := by
  have run {idx : BitVec 8} {legal : Bool} {f : Nat → State → Voice → Voice} (hi : idx = 0xFF) (hl : legal = true)
      (hf : ∀ n u v, f n u v = voiceEffect (voiceNaNs u n) u.cfg i v) :
      voiceCommand i idx legal f s = execute i true ((List.range s.cfg.nv).map (voiceSubStep i)) s := by
    have hsub : (fun n u => u.modifyVoice n (f n u)) = voiceSubStep i :=
      funext fun n => funext fun u => congrArg (u.modifyVoice n) (funext (hf n u))
    rw [voiceCommand, hi, targets_all hnv, hl, hsub]
    rfl
  cases i with
  | activateVoice idx on =>
    exact run (of_decide_eq_true h) rfl fun n u v => rfl
  | setFrequency idx freq =>
    obtain ⟨hi, hfin⟩ := Bool.and_eq_true_iff.mp h
    exact run (of_decide_eq_true hi) hfin fun n u v => rfl
  | setMidiNote idx note velocity on =>
    obtain ⟨hi, hnote⟩ := Bool.and_eq_true_iff.mp h
    refine run (of_decide_eq_true hi) hnote fun n u v => ?_
    cases on with
    | true => rfl
    | false =>
      rw [Env.release_eq_released]
      rfl
  | setWaveform idx wf =>
    obtain ⟨hi, hwf⟩ := Bool.and_eq_true_iff.mp h
    refine run (of_decide_eq_true hi) hwf fun n u v => ?_
    rw [waveformOfId_eq]
    rfl
  | _ => cases h

/-- A sub-step of a legal ALL command changes the next voice and leaves the rest of the command in progress. -/
theorem exec_legalOnAll_subStep {i : Instr} (s : State) (h : legalOnAll i = true) (hnv : s.cfg.nv ≤ 255) {n : Nat}
    (hs : s.subStep = n) (hn : n < s.cfg.nv) : exec i s = .next { voiceSubStep i n s with
      rmask := false, inProgress := some { instr := i, done := n + 1 } } := by
  subst hs
  have hu : ((List.range s.cfg.nv).map (voiceSubStep i))[s.subStep]? = some (voiceSubStep i s.subStep) := by
    rw [List.getElem?_map, List.getElem?_range hn, Option.map_some]
  rw [exec_legalOnAll h hnv, execute_subStep hu]
  rfl

/-- When every voice is changed, a legal ALL command writes the response OK. -/
theorem exec_legalOnAll_response {i : Instr} (s : State) (h : legalOnAll i = true) (hnv : s.cfg.nv ≤ 255)
    (hs : s.subStep = s.cfg.nv) : exec i s = .next (answered 0 0 0 s) := by
  have hlen : ((List.range s.cfg.nv).map (voiceSubStep i)).length ≤ s.subStep := by
    rw [List.length_map, List.length_range, hs]
  rw [exec_legalOnAll h hnv, execute_response hlen]
  rfl

/-! ### The run -/

/-- What an ALL command that began in `s` does to voice `j`, in its step `j + 1`. -/
def effectOn (i : Instr) (s : State) (j : Nat) : Voice → Voice :=
  voiceEffect (Config.freeNaN (s.fresh + j + 1) 0 (3 + j)) s.cfg i

/-- The voices when an ALL command that began in `s` has changed the first `n` of them. -/
def voicesAt (i : Instr) (s : State) (n : Nat) : List Voice :=
  s.voices.mapIdx fun j v => if j < n then effectOn i s j v else v

theorem length_voicesAt (i : Instr) (s : State) (n : Nat) : (voicesAt i s n).length = s.voices.length :=
  List.length_mapIdx

theorem getElem?_voicesAt (i : Instr) (s : State) (n j : Nat) :
    (voicesAt i s n)[j]? = s.voices[j]?.map fun v => if j < n then effectOn i s j v else v :=
  List.getElem?_mapIdx

theorem voicesAt_zero (i : Instr) (s : State) : voicesAt i s 0 = s.voices := by
  refine List.ext_getElem? fun j => ?_
  simp [getElem?_voicesAt]

theorem voicesAt_succ (i : Instr) (s : State) (n : Nat) :
    voicesAt i s (n + 1) = (voicesAt i s n).modify n (effectOn i s n) := by
  refine List.ext_getElem? fun j => ?_
  rw [List.getElem?_modify, getElem?_voicesAt, getElem?_voicesAt]
  cases s.voices[j]? with
  | none => simp
  | some v =>
    rcases Nat.lt_trichotomy j n with h | rfl | h
    · simp [h, h.ne', Nat.lt_succ_of_lt h]
    · simp
    · simp [h.ne, Nat.not_lt_of_lt h, show ¬ j < n + 1 by omega]

/-- The block `n` steps from the state `s` that presents an ALL command: the first `n` voices are changed, and the rest of
the command is to come. -/
def allVoicesAt (i : Instr) (rest : List Packet) (s : State) (n : Nat) : State :=
  { s with voices := voicesAt i s n, cmdIn := rest, fresh := s.fresh + n, rmask := false,
           inProgress := some { instr := i, done := n } }

section AllCommand

variable {i : Instr} {p : Packet} {rest : List Packet} {s : State} {n : Nat}

theorem tick_allVoicesAt (hev : s.evIn = []) :
    (allVoicesAt i rest s n).tick = { allVoicesAt i rest s n with fresh := s.fresh + (n + 1) } :=
  tick_of_noEvents (s := allVoicesAt i rest s n) hev

/-- Until its response is written the command is what moves next. -/
theorem nextMove_allVoicesAt (hp : Presents s p rest) :
    nextMove (allVoicesAt i rest s n) = .run i (allVoicesAt i rest s n).tick :=
  nextMove_inProgress (s := allVoicesAt i rest s n) hp.config hp.noEvent hp.noPending rfl

/-- The step that reads the packet changes voice 0. -/
theorem step_presents_legalOnAll (h : legalOnAll i = true) (hd : decodePacket p = .ok i) (hp : Presents s p rest)
    (hev : s.evIn = []) : step s = .next (allVoicesAt i rest s 1) := by
  obtain ⟨hpos, hle⟩ := nv_of_legal hp.config
  rw [step_run (nextMove_presents hp hd),
    exec_legalOnAll_subStep { s.tick with cmdIn := rest } h hle (subStep_of_none hp.noCommand) hpos,
    tick_of_noEvents hev, allVoicesAt, voicesAt_succ, voicesAt_zero]
  rfl

/-- Each later step changes the next voice. -/
theorem step_allVoicesAt (h : legalOnAll i = true) (hp : Presents s p rest) (hev : s.evIn = []) (hn : n < s.cfg.nv) :
    step (allVoicesAt i rest s n) = .next (allVoicesAt i rest s (n + 1)) := by
  obtain ⟨-, hle⟩ := nv_of_legal hp.config
  rw [step_run (nextMove_allVoicesAt hp), exec_legalOnAll_subStep (allVoicesAt i rest s n).tick h hle rfl hn,
    tick_allVoicesAt hev, allVoicesAt, allVoicesAt, voicesAt_succ]
  rfl

/-- With every voice changed, the last step writes the response. -/
theorem step_allVoicesAt_nv (h : legalOnAll i = true) (hp : Presents s p rest) (hev : s.evIn = []) :
    step (allVoicesAt i rest s s.cfg.nv) = .next (answered 0 0 0
      { s with voices := voicesAt i s s.cfg.nv, cmdIn := rest, fresh := s.fresh + (s.cfg.nv + 1) }) := by
  obtain ⟨-, hle⟩ := nv_of_legal hp.config
  rw [step_run (nextMove_allVoicesAt hp), exec_legalOnAll_response (allVoicesAt i rest s s.cfg.nv).tick h hle rfl,
    tick_allVoicesAt hev]
  rfl

/-- The run up to the response, by induction on its steps. -/
theorem after_legalOnAll (h : legalOnAll i = true) (hd : decodePacket p = .ok i) (hp : Presents s p rest)
    (hev : s.evIn = []) (hn : n < s.cfg.nv) : State.after (n + 1) s = .next (allVoicesAt i rest s (n + 1)) := by
  induction n with
  | zero => exact State.after_succ 0 (step_presents_legalOnAll h hd hp hev)
  | succ n ih => rw [State.after_snoc (ih (Nat.lt_of_succ_lt hn)), step_allVoicesAt h hp hev hn]

end AllCommand

/-- Settles O12: NV steps change the NV voices (`after_legalOnAll`), and the step after them answers. -/
theorem allCommandReachesEveryVoice : Obligations.AllCommandReachesEveryVoice := by
  unfold Obligations.AllCommandReachesEveryVoice
  intro i p rest s h hd hp hev hlen
  have hrun : State.after s.cfg.nv s = .next (allVoicesAt i rest s s.cfg.nv) := by
    have hpred : s.cfg.nv - 1 + 1 = s.cfg.nv := Nat.sub_add_cancel (nv_of_legal hp.config).1
    rw [← hpred]
    exact after_legalOnAll h hd hp hev (Nat.lt_of_succ_le hpred.le)
  refine ⟨voicesAt i s s.cfg.nv, hrun, ?_, ?_, fun n v hv => ?_⟩
  · rw [State.after_snoc hrun, step_allVoicesAt_nv h hp hev]
  · rw [length_voicesAt, hlen]
  · have hn : n < s.cfg.nv := hlen ▸ (List.getElem?_eq_some_iff.mp hv).1
    rw [getElem?_voicesAt, hv, Option.map_some, if_pos hn, effectOn]

end Sys2Proof.Machine
end

section
/-! PROOFS. The encoding (30_encoding.md). A packet with an operation's OP decodes to that operation's instruction or is
malformed (`decodePacket_of_op`). The rows of R103's table are the operations' (`opcodeMap_eq`), and their masks are the
bits of the fields that `reservedClear` reads. A step that reads a rejected packet raises ParamError
(`step_presents_rejected`), and so does a command whose operand is out of range. -/

open Sys2Proof.Claim

namespace Sys2Proof

/-! ### Decoding and encoding -/

/-- A packet with the OP of `op` is that operation's instruction, or malformed (R103, R104). -/
theorem decodePacket_of_op {p : Packet} {op : Op} (h : opCode op = p.op) : decodePacket p =
    if reservedClear op p.fields then .ok (instrOf op p.fields) else .error .reservedField := by
  rw [decodePacket, ← h, opOfCode_opCode]

/-- Fields packed with an OP, the reserved ones zero, decode to the instruction of these fields. -/
theorem decodePacket_packFields (op : Op) (fs : Fields) (h : reservedClear op fs = true) :
    decodePacket (packFields op fs) = .ok (instrOf op fs) := by
  rw [decodePacket_of_op (op_packFields op fs).symm, fields_packFields, if_pos h]

theorem decode_encode (i : Instr) : decode (encode i) = .ok i := by
  cases i with
  | activateVoice idx on => exact decodePacket_packFields .activateVoice _ rfl
  | setFrequency idx freq => exact decodePacket_packFields .setFrequency _ rfl
  | setMidiNote idx note velocity on => exact decodePacket_packFields .setMidiNote _ rfl
  | setWaveform idx wf => exact decodePacket_packFields .setWaveform _ rfl
  | updateFilter cutoff q => exact decodePacket_packFields .updateFilter _ rfl
  | updateDelay time feedback => exact decodePacket_packFields .updateDelay _ rfl
  | effectSetSlot slot effect => exact decodePacket_packFields .effectSetSlot _ rfl
  | effectActivateSlot slot on => exact decodePacket_packFields .effectActivateSlot _ rfl
  | getFilter => exact decodePacket_packFields .getFilter Fields.zero rfl
  | getDelay => exact decodePacket_packFields .getDelay Fields.zero rfl
  | init => exact decodePacket_packFields .init Fields.zero rfl
  | deinit => exact decodePacket_packFields .deinit Fields.zero rfl
  | evHalf => rfl
  | evFull => rfl
  | evError => rfl

/-- Settles O3: a command is packed from fields whose reserved ones are zero (`decodePacket_packFields`), and the event
codes are three constants. -/
theorem decodeInvertsEncode : Obligations.DecodeInvertsEncode := by
  unfold Obligations.DecodeInvertsEncode
  exact decode_encode

/-- An instruction holds every field of its packet that is not reserved. -/
theorem encode_instrOf (op : Op) (fs : Fields) (h : reservedClear op fs = true) :
    encode (instrOf op fs) = .packet (packFields op fs) := by
  obtain ⟨idx, a, b, f, x, y⟩ := fs
  cases op <;> simp_all [reservedClear, instrOf, encode, Fields.zero]

theorem encode_of_decodeEvent {ev : BitVec 2} {i : Instr} (h : decodeEvent ev = .ok i) : encode i = .event ev := by
  unfold decodeEvent at h
  split_ifs at h with h1 h2 h3
  · cases h
    exact congrArg Wire.event h1.symm
  · cases h
    exact congrArg Wire.event h2.symm
  · cases h
    exact congrArg Wire.event h3.symm

/-- Settles O4: the fields an instruction does not hold are reserved, so they are zero in the packet it came from
(`encode_instrOf`). -/
theorem encodeInvertsDecode : Obligations.EncodeInvertsDecode := by
  unfold Obligations.EncodeInvertsDecode
  intro w i h
  cases w with
  | packet p =>
    obtain ⟨op, hop, hr, rfl⟩ := decodePacket_eq_ok h
    rw [encode_instrOf op p.fields hr, packFields_fields p op hop]
  | event ev => exact encode_of_decodeEvent h

/-- Settles O1: the words are written out once, and decoding gives the instruction back (`decode_encode`). -/
theorem examplePacketEncodesAndDecodes : Obligations.ExamplePacketEncodesAndDecodes := by
  unfold Obligations.ExamplePacketEncodesAndDecodes
  have hwords : encode (.setMidiNote 0x02 0x45 0x78 true) = .packet ⟨0xF8450203, 0x00000000, 0x00000000⟩ := by decide
  refine ⟨hwords, ?_⟩
  rw [← hwords]
  exact decode_encode _

/-- Settles O2: the code 0 is no event, and the three others are those `encode` gives the events. -/
theorem eventCodesDecode : Obligations.EventCodesDecode := by
  unfold Obligations.EventCodesDecode
  exact ⟨rfl, decode_encode .evHalf, decode_encode .evFull, decode_encode .evError⟩

/-! ### What a packet is rejected for -/

theorem decodePacket_illegalOp_iff {p : Packet} :
    decodePacket p = .error .illegalOp ↔ ∀ op, opCode op ≠ p.op := by
  constructor
  · intro h op hop
    rw [decodePacket_of_op hop] at h
    split at h
    · cases h
    · cases h
  · intro h
    cases hc : opOfCode p.op with
    | none => rw [decodePacket, hc]
    | some op => exact absurd (opCode_of_opOfCode hc) (h op)

theorem decodePacket_reservedField_iff {p : Packet} {op : Op} (h : opCode op = p.op) :
    decodePacket p = .error .reservedField ↔ ¬ reservedClear op p.fields = true := by
  rw [decodePacket_of_op h]
  cases reservedClear op p.fields <;> simp

/-! ### The rows of the opcode map -/

/-- The `n` bits of a word from bit `lo` on. -/
def fieldMask (lo n : Nat) : Word := (BitVec.allOnes n).setWidth 32 <<< lo

theorem getLsbD_fieldMask {lo n : Nat} (h : lo + n ≤ 32) (i : Nat) :
    (fieldMask lo n).getLsbD i = decide (lo ≤ i ∧ i < lo + n) := by
  simp only [fieldMask, BitVec.getLsbD_shiftLeft, BitVec.getLsbD_setWidth, BitVec.getLsbD_allOnes]
  rw [Bool.eq_iff_iff]
  simp only [Bool.and_eq_true, Bool.not_eq_true', decide_eq_true_eq, decide_eq_false_iff_not]
  omega

/-- A field is zero when no bit under its mask is set. -/
theorem and_fieldMask_eq_zero_iff (w : Word) {lo n : Nat} (h : lo + n ≤ 32) :
    w &&& fieldMask lo n = 0 ↔ w.extractLsb' lo n = 0 := by
  constructor
  · intro hz
    refine BitVec.eq_of_getLsbD_eq fun j hj => ?_
    have hbit := congrArg (fun v => v.getLsbD (lo + j)) hz
    simpa [getLsbD_fieldMask h, hj] using hbit
  · intro hz
    refine BitVec.eq_of_getLsbD_eq fun i _ => ?_
    rw [BitVec.getLsbD_and, getLsbD_fieldMask h]
    by_cases hi : lo ≤ i ∧ i < lo + n
    · have hbit := congrArg (fun v => v.getLsbD (i - lo)) hz
      simpa [hi, show i - lo < n by omega, show lo + (i - lo) = i by omega] using hbit
    · simp [hi]

theorem and_or_eq_zero_iff (w m n : Word) : w &&& (m ||| n) = 0#32 ↔ w &&& m = 0#32 ∧ w &&& n = 0#32 := by
  rw [BitVec.and_or_distrib_left]
  exact BitVec.or_eq_zero_iff

/-- The OP of a packet, as R103 selects by it: W0 under the mask 0x000000FF. -/
theorem and_opMask_eq_iff (p : Packet) (c : BitVec 8) : p.w0 &&& 0x000000FF = c.setWidth 32 ↔ c = p.op := by
  have hmask : p.w0 &&& 0x000000FF = p.op.setWidth 32 := by
    change p.w0 &&& fieldMask 0 8 = _
    refine BitVec.eq_of_getLsbD_eq fun i hi => ?_
    rw [BitVec.getLsbD_and, getLsbD_fieldMask (by decide), BitVec.getLsbD_setWidth, Packet.op,
      BitVec.getLsbD_extractLsb']
    simp [hi, Bool.and_comm]
  rw [hmask, eq_comm]
  constructor
  · intro h
    simpa using congrArg (BitVec.setWidth 8) h
  · intro h
    rw [h]

/-- The masks of the fields of W0 (R101). -/
def idxMask : Word := fieldMask 8 8
def aMask : Word := fieldMask 16 8
def bMask : Word := fieldMask 24 7
def fMask : Word := fieldMask 31 1

theorem and_idxMask_eq_zero_iff (p : Packet) : p.w0 &&& idxMask = 0#32 ↔ p.fields.idx = 0#8 :=
  and_fieldMask_eq_zero_iff p.w0 (by decide)

theorem and_aMask_eq_zero_iff (p : Packet) : p.w0 &&& aMask = 0#32 ↔ p.fields.a = 0#8 :=
  and_fieldMask_eq_zero_iff p.w0 (by decide)

theorem and_bMask_eq_zero_iff (p : Packet) : p.w0 &&& bMask = 0#32 ↔ p.fields.b = 0#7 :=
  and_fieldMask_eq_zero_iff p.w0 (by decide)

theorem and_fMask_eq_zero_iff (p : Packet) : p.w0 &&& fMask = 0#32 ↔ p.fields.f = false := by
  change _ ↔ p.w0.getLsbD 31 = false
  refine (and_fieldMask_eq_zero_iff p.w0 (by decide)).trans ⟨fun h => ?_, fun h => ?_⟩
  · simpa using congrArg (fun v => v.getLsbD 0) h
  · refine BitVec.eq_of_getLsbD_eq fun i hi => ?_
    obtain rfl : i = 0 := by omega
    simpa using h

/-- The bits of W0 in the "must be zero" column of an operation's row (R103). -/
def reservedBits : Op → Word
  | .activateVoice => aMask ||| bMask
  | .setFrequency => aMask ||| bMask ||| fMask
  | .setMidiNote => 0
  | .setWaveform => bMask ||| fMask
  | .updateFilter => idxMask ||| aMask ||| bMask ||| fMask
  | .updateDelay => idxMask ||| aMask ||| bMask ||| fMask
  | .effectSetSlot => bMask ||| fMask
  | .effectActivateSlot => aMask ||| bMask
  | .getFilter => idxMask ||| aMask ||| bMask ||| fMask
  | .getDelay => idxMask ||| aMask ||| bMask ||| fMask
  | .init => idxMask ||| aMask ||| bMask ||| fMask
  | .deinit => idxMask ||| aMask ||| bMask ||| fMask

/-- The operations that take X, and those that take Y (R103). -/
def takesX (op : Op) : Bool := decide (op ∈ [.setFrequency, .updateFilter, .updateDelay])
def takesY (op : Op) : Bool := decide (op ∈ [.updateFilter, .updateDelay])

/-- The row of an operation. -/
def rowOf (op : Op) : Row where
  op := (opCode op).setWidth 32
  zero0 := reservedBits op
  zero1 := if takesX op then 0 else BitVec.allOnes 32
  zero2 := if takesY op then 0 else BitVec.allOnes 32

/-- The operations, in the order of R103's table. -/
def allOps : List Op :=
  [.activateVoice, .setFrequency, .setMidiNote, .setWaveform, .updateFilter, .updateDelay, .effectSetSlot,
   .effectActivateSlot, .getFilter, .getDelay, .init, .deinit]

theorem opcodeMap_eq : opcodeMap = allOps.map rowOf := rfl

theorem mem_opcodeMap {row : Row} : row ∈ opcodeMap ↔ ∃ op, rowOf op = row := by
  have hall : ∀ op, op ∈ allOps := fun op => by cases op <;> decide
  simp [opcodeMap_eq, hall]

/-- The mask of a reserved W1 or W2. -/
theorem and_wordMask (w : Word) : w &&& 0xFFFFFFFF#32 = w := BitVec.and_allOnes

/-- The masks of an operation's row cover the fields that are reserved for it, and no other. -/
theorem reservedClear_iff (op : Op) (p : Packet) : reservedClear op p.fields = true ↔
    p.w0 &&& (rowOf op).zero0 = 0 ∧ p.w1 &&& (rowOf op).zero1 = 0 ∧ p.w2 &&& (rowOf op).zero2 = 0 := by
  have hx : p.fields.x = p.w1 := rfl
  have hy : p.fields.y = p.w2 := rfl
  cases op <;>
    simp [reservedClear, rowOf, reservedBits, takesX, takesY, and_or_eq_zero_iff, and_idxMask_eq_zero_iff,
      and_aMask_eq_zero_iff, and_bMask_eq_zero_iff, and_fMask_eq_zero_iff, and_wordMask, hx, hy, and_assoc]

end Sys2Proof

namespace Sys2Proof.Machine

/-! ### Steps that answer ParamError -/

/-- A step that reads a rejected packet answers ParamError and changes nothing else (R104, R105, R340). -/
theorem step_presents_rejected {s : State} {p : Packet} {rest : List Packet} {e : Reject} (hp : Presents s p rest)
    (hd : decodePacket p = .error e) : step s = .next (answered 1 0 0 { begun s with cmdIn := rest }) := by
  have hmove : nextMove s = .reject { s.tick with cmdIn := rest } := by
    rw [nextMove_command hp.config hp.noEvent hp.noPending]
    simp only [commandMove, hp.noCommand, hp.packet, hd]
  rw [step_reject hmove]
  rfl

/-- Settles O5: the rows of the map are the operations' (`mem_opcodeMap`), and no operation has an illegal OP. -/
theorem illegalOpRaisesParamError : Obligations.IllegalOpRaisesParamError := by
  unfold Obligations.IllegalOpRaisesParamError
  refine fun p => ⟨?_, fun hd s rest hp => step_presents_rejected hp hd⟩
  rw [decodePacket_illegalOp_iff]
  constructor
  · intro h op hop
    exact h (rowOf op) (mem_opcodeMap.mpr ⟨op, rfl⟩) ((and_opMask_eq_iff p (opCode op)).mpr hop)
  · intro h row hrow hop
    obtain ⟨op, rfl⟩ := mem_opcodeMap.mp hrow
    exact h op ((and_opMask_eq_iff p (opCode op)).mp hop)

/-- Settles O6: the masks of a row are the reserved fields of its operation (`reservedClear_iff`). -/
theorem reservedFieldRaisesParamError : Obligations.ReservedFieldRaisesParamError := by
  unfold Obligations.ReservedFieldRaisesParamError
  intro row hrow p hop
  refine ⟨?_, fun hd s rest hp => step_presents_rejected hp hd⟩
  obtain ⟨op, rfl⟩ := mem_opcodeMap.mp hrow
  rw [decodePacket_reservedField_iff ((and_opMask_eq_iff p (opCode op)).mp hop), reservedClear_iff,
    not_and_or, not_and_or]

/-- At a command boundary a failed check ends the command with ParamError (R270). -/
theorem execute_rejected {i : Instr} {legal : Bool} {us : List (State → State)} {s : State} (hs : s.inProgress = none)
    (hl : ¬ legal = true) : execute i legal us s = .next (answered 1 0 0 s) := by
  rw [execute, hs, if_pos (by simpa using hl)]
  rfl

/-- Settles O7: the checks of a voice or slot command include the ranges of its fields, and the other operations have no
field with a range. -/
theorem outOfRangeOperandRaisesParamError : Obligations.OutOfRangeOperandRaisesParamError := by
  unfold Obligations.OutOfRangeOperandRaisesParamError
  intro i s hwf hs
  have voice {i : Instr} {idx : BitVec 8} {legal : Bool} {f : Nat → State → Voice → Voice}
      (h : ¬ (voiceIndexLegal s.cfg.nv idx && legal) = true) :
      voiceCommand i idx legal f s = .next (answered 1 0 0 s) :=
    execute_rejected hs (by rwa [isSome_targets])
  have slot {i : Instr} {sl : BitVec 8} {legal : Bool} {f : Slot → Slot}
      (h : ¬ (slotIndexLegal sl && legal) = true) : slotCommand i sl legal f s = .next (answered 1 0 0 s) :=
    execute_rejected hs (by rwa [isSome_slotOfIndex])
  rw [← Bool.not_eq_true] at hwf
  cases i with
  | activateVoice idx on => exact voice (by rwa [Bool.and_true])
  | setFrequency idx freq => exact voice fun h => hwf (Bool.and_eq_true_iff.mp h).1
  | setMidiNote idx note velocity on => exact voice hwf
  | setWaveform idx wf => exact voice (by rwa [isSome_waveformOfId])
  | effectSetSlot sl effect => exact slot (by rwa [isSome_effectOfId])
  | effectActivateSlot sl on => exact slot (by rwa [Bool.and_true])
  | _ => exact absurd rfl hwf

end Sys2Proof.Machine
end

section
/-! PROOFS. The oscillator family of R153 to R155. The exact remainder of a phase modulo 256 is representable from 0 up
and is rounded once below 0, so `wrap` is exact there and nearest here; a sample interpolates between two entries that
the table of a legal configuration keeps finite. -/

namespace Sys2Proof.F32

/-! ### Rounding against a midpoint -/

/-- A magnitude below the midpoint of two neighbouring patterns rounds to at most the lower one. -/
theorem roundBits_le_of_lt_midpoint {b n : Nat} (h : 2 * n < magOf b + magOf (b + 1)) : roundBits n 1 ≤ b := by
  obtain ⟨c, hlo, hhi, hres⟩ := roundBits_spec n 1 Nat.one_pos
  have hstep := magOf_lt_succ b
  have hcb : c < b + 1 := magOf_lt_iff.mp (by omega)
  rcases Nat.lt_succ_iff_lt_or_eq.mp hcb with hlt | rfl
  · omega
  · have hdown : ¬ roundsUp c n 1 := by unfold roundsUp; omega
    obtain ⟨hup, -⟩ | ⟨-, hr⟩ := hres
    · exact absurd hup hdown
    · exact hr ▸ Nat.min_le_left c infBits

/-- A magnitude from the midpoint above an odd pattern on rounds to at least the pattern above it. -/
theorem lt_roundBits_of_midpoint_le {b n : Nat} (hb : b < infBits) (hodd : b % 2 = 1)
    (h : magOf b + magOf (b + 1) ≤ 2 * n) : b < roundBits n 1 := by
  obtain ⟨c, hlo, hhi, hres⟩ := roundBits_spec n 1 Nat.one_pos
  have hstep := magOf_lt_succ b
  have hbc : b < c + 1 := magOf_lt_iff.mp (by omega)
  rcases Nat.lt_succ_iff_lt_or_eq.mp hbc with hlt | rfl
  · have hr : min c infBits ≤ roundBits n 1 := by
      obtain ⟨-, hr⟩ | ⟨-, hr⟩ := hres
      · exact hr ▸ min_le_min_right infBits c.le_succ
      · exact hr.ge
    exact (Nat.lt_min.mpr ⟨hlt, hb⟩).trans_le hr
  · have hup : roundsUp b n 1 := by unfold roundsUp; omega
    obtain ⟨-, hr⟩ | ⟨hdown, -⟩ := hres
    · exact hr ▸ Nat.lt_min.mpr ⟨Nat.lt_succ_self b, hb⟩
    · exact absurd hup hdown

/-! ### The remainder of a representable value -/

/-- A significand of at most 24 bits is representable at every exponent of its last place: a short one is shifted up. -/
theorem exists_magOf_eq (e : Nat) {k : Nat} (hk : k ≤ 2 ^ 24) : ∃ b, magOf b = k * 2 ^ e := by
  induction e generalizing k with
  | zero => exact ⟨k, by simpa using magOf_scaled 0 k hk (.inl rfl)⟩
  | succ e ih =>
    rcases Nat.lt_or_ge k (2 ^ 23) with hshort | hfull
    · obtain ⟨b, hb⟩ := ih (k := 2 * k) (by omega)
      exact ⟨b, by rw [hb, pow_succ]; ring⟩
    · exact ⟨_, magOf_scaled (e + 1) k hk (.inr hfull)⟩

/-- The remainder of a representable magnitude modulo a power of two is representable: it is a multiple of the same last
place, with a smaller significand. -/
theorem exists_magOf_eq_mod (b m : Nat) : ∃ c, magOf c = magOf b % 2 ^ m := by
  obtain ⟨e, k, rfl, hk, hnorm⟩ := exists_scaled b
  rw [magOf_scaled e k hk.le hnorm]
  rcases Nat.le_total m e with hme | hem
  · have hdvd : 2 ^ m ∣ k * 2 ^ e := Dvd.dvd.mul_left (pow_dvd_pow 2 hme) k
    exact ⟨0, by rw [magOf_zero, Nat.mod_eq_zero_of_dvd hdvd]⟩
  · obtain ⟨j, rfl⟩ := Nat.exists_eq_add_of_le' hem
    rw [pow_add, Nat.mul_mod_mul_right]
    exact exists_magOf_eq e ((Nat.mod_le k _).trans hk.le)

/-! ### What `wrap` answers -/

/-- The exact p − 256·floor(p / 256) of R154, in units: what `wrap` rounds. -/
def phaseRem (p : F32) : Nat := (units p % (256 * one : Nat)).toNat

theorem natCast_phaseRem (p : F32) : (phaseRem p : Int) = units p % (256 * 2 ^ 149) := by
  unfold phaseRem one
  omega

theorem phaseRem_lt (p : F32) : phaseRem p < 256 * 2 ^ 149 := by
  have := natCast_phaseRem p
  omega

theorem magBits_c256 : magBits c256 = 0x43800000 := by decide

theorem roundBits_phaseRem_le (p : F32) : roundBits (phaseRem p) 1 ≤ magBits c256 := by
  apply roundBits_le_of_le Nat.one_pos
  have := phaseRem_lt p
  rw [magOf_c256]
  omega

/-- A remainder that rounds to 256 becomes +0.0. -/
theorem wrap_of_roundBits_eq {p : F32} (h : isFinite p = true) (hr : roundBits (phaseRem p) 1 = magBits c256) :
    wrap p = 0 := by
  rw [wrap, if_pos h]
  exact if_pos hr

/-- Every other remainder is rounded, with a clear sign. -/
theorem wrap_of_roundBits_lt {p : F32} (h : isFinite p = true) (hr : roundBits (phaseRem p) 1 < magBits c256) :
    wrap p = pack false (roundBits (phaseRem p) 1) := by
  rw [wrap, if_pos h]
  exact if_neg hr.ne

theorem sign_wrap {p : F32} (h : isFinite p = true) : sign (wrap p) = false := by
  rcases (roundBits_phaseRem_le p).eq_or_lt with hr | hr
  · rw [wrap_of_roundBits_eq h hr]
    rfl
  · rw [wrap_of_roundBits_lt h hr, sign_pack _ _ (hr.trans (magBits_lt c256))]

/-- From 0 up the remainder is representable, so that `wrap` is exact. -/
theorem units_wrap_of_nonneg {p : F32} (h : isFinite p = true) (h0 : 0 ≤ units p) :
    units (wrap p) = units p % (256 * 2 ^ 149) := by
  obtain ⟨c, hc⟩ := exists_magOf_eq_mod (magBits p) 157
  have hrem : magOf c = phaseRem p := by
    have hcast := natCast_phaseRem p
    have hmag : magOf (magBits p) = (units p).natAbs := (natAbs_units p).symm
    omega
  have hlt : c < magBits c256 := by
    rw [← magOf_lt_iff, magOf_c256, hrem]
    have := phaseRem_lt p
    omega
  have hr : roundBits (phaseRem p) 1 = c := by
    have hexact := roundBits_exact c 1 Nat.one_pos
    rw [Nat.mul_one, hrem] at hexact
    rw [hexact, Nat.min_eq_left]
    exact hlt.le.trans (by decide)
  rw [wrap_of_roundBits_lt h (hr ▸ hlt), hr, units_pack_false (hlt.trans (magBits_lt c256)), hrem, natCast_phaseRem]

/-- From the midpoint under 256 on, the remainder rounds to 256: the pattern under 256.0 is odd. -/
theorem wrap_of_midpoint_le {p : F32} (h : isFinite p = true)
    (hmid : magOf 0x437FFFFF + magOf 0x43800000 ≤ 2 * phaseRem p) : wrap p = 0 := by
  have hge : 0x437FFFFF < roundBits (phaseRem p) 1 := lt_roundBits_of_midpoint_le (by decide) rfl hmid
  have hle := roundBits_phaseRem_le p
  rw [magBits_c256] at hle
  exact wrap_of_roundBits_eq h (by rw [magBits_c256]; omega)

/-- Below that midpoint the result is the rounded remainder itself, which no value is nearer to. -/
theorem wrap_nearest {p : F32} (h : isFinite p = true)
    (hmid : 2 * phaseRem p < magOf 0x437FFFFF + magOf 0x43800000) (z : F32) :
    |units (wrap p) - phaseRem p| ≤ |units z - phaseRem p| := by
  have hle : roundBits (phaseRem p) 1 ≤ 0x437FFFFF := roundBits_le_of_lt_midpoint hmid
  have hfin : isFinite (pack false (roundBits (phaseRem p) 1)) = true :=
    isFinite_pack _ (lt_of_le_of_lt hle (by decide))
  rw [wrap_of_roundBits_lt h (lt_of_le_of_lt hle (by decide))]
  simpa using units_pack_roundBits_nearest (s := false) Nat.one_pos rfl hfin z

/-- A remainder half way between two patterns below 256.0 goes to the even one. -/
theorem wrap_midpoint {p : F32} (h : isFinite p = true) {b : Nat} (hb : b < 0x437FFFFF)
    (hmid : 2 * phaseRem p = magOf b + magOf (b + 1)) : wrap p = BitVec.ofNat 32 (if b % 2 = 0 then b else b + 1) := by
  have hr := roundBits_midpoint (n := phaseRem p) Nat.one_pos (hb.trans (by decide)) (hmid.trans (Nat.mul_one _).symm)
  rw [wrap_of_roundBits_lt h (by rw [magBits_c256]; split at hr <;> omega), hr, pack]
  simp

end Sys2Proof.F32

namespace Sys2Proof.Machine

open Sys2Proof.F32 (units magOf magBits isFinite phaseRem)

/-- Settles O30: `wrap` rounds the exact remainder, which is representable from 0 up. -/
theorem wrapReducesIntoTable : Obligations.WrapReducesIntoTable := by
  unfold Obligations.WrapReducesIntoTable
  intro p hp
  refine ⟨phaseLegal_wrap hp, F32.sign_wrap hp, F32.units_wrap_of_nonneg hp, fun hlegal => ?_, fun _ => ?_⟩
  · obtain ⟨-, h0, h256⟩ := (phaseLegal_iff p).mp hlegal
    rw [F32.units_wrap_of_nonneg hp h0, Int.emod_eq_of_lt h0 (by omega)]
  · refine ⟨phaseRem p, -(units p / (256 * 2 ^ 149)), ?_, F32.phaseRem_lt p, F32.wrap_of_midpoint_le hp,
      fun hmid z _ => F32.wrap_nearest hp hmid z, fun b hb => F32.wrap_midpoint hp hb⟩
    rw [F32.natCast_phaseRem]
    omega

/-! ### The sample -/

/-- A legal phase points into the table. -/
theorem floor_of_phaseLegal {x : F32} (h : phaseLegal x = true) : 0 ≤ F32.floor x ∧ F32.floor x < 256 := by
  obtain ⟨hfin, h0, h256⟩ := (phaseLegal_iff x).mp h
  rw [F32.floor_finite hfin]
  omega

/-- The reduction into the table keeps the floor of a legal phase. -/
theorem tableIndex_of_phaseLegal {x : F32} (h : phaseLegal x = true) : tableIndex x = (F32.floor x).toNat := by
  obtain ⟨h0, h256⟩ := floor_of_phaseLegal h
  rw [tableIndex, Int.emod_eq_of_lt h0 h256]

theorem nextSample_inactive (ν : Nat → BitVec 32) (c : Config) {v : Voice} (h : v.active = false) :
    v.nextSample ν c = (0, v) := by
  rw [Voice.nextSample, h]
  rfl

theorem nextSample_active (ν : Nat → BitVec 32) (c : Config) {v : Voice} (h : v.active = true) :
    v.nextSample ν c = (v.sample ν c, { v with phase := v.nextPhase ν c }) := by
  rw [Voice.nextSample, if_pos h]

/-- A phase of exactly i0 entries points at entry i0. -/
theorem tableIndex_of_whole {x : F32} (hx : isFinite x = true) {i0 : Nat} (hi : i0 < 256)
    (hu : units x = i0 * 2 ^ 149) : tableIndex x = i0 := by
  rw [tableIndex, F32.floor_finite hx, hu]
  omega

/-- A whole number converts exactly (R9): `mag_ofInt`, and 0. -/
theorem ofInt_exact {n : Nat} (hn : n ≤ 2 ^ 24) :
    isFinite (F32.ofInt n) = true ∧ units (F32.ofInt n) = n * 2 ^ 149 := by
  rcases n.eq_zero_or_pos with rfl | hpos
  · decide
  · obtain ⟨hmag, hfin, -, hsign⟩ := mag_ofInt hpos hn
    refine ⟨hfin, ?_⟩
    rw [units, hsign, hmag]
    norm_num

/-- Every read of the table of a legal configuration keeps check c5; past its end the read is 0. -/
theorem tableEntryLegal_wtRead {c : Config} (hc : failingCheck c = none) (w i : Nat) :
    tableEntryLegal (wtRead c w i) = true := by
  have h5 : (decide (c.wt.length = 5 * 256) && c.wt.all tableEntryLegal) = true := checkPasses_of_legal hc .c5
  rw [Bool.and_eq_true, List.all_eq_true] at h5
  rw [wtRead, List.getD_eq_getElem?_getD]
  cases hx : c.wt[w * 256 + i]? with
  | none => decide
  | some x => exact h5.2 x (List.mem_of_getElem? hx)

theorem isFinite_of_tableEntryLegal {x : F32} (h : tableEntryLegal x = true) : isFinite x = true := by
  rw [F32.isFinite_iff]
  exact lt_of_le_of_lt (of_decide_eq_true h) (by decide)

/-- Check c5 in units: at most 2^126. -/
theorem natAbs_units_of_tableEntryLegal {x : F32} (h : tableEntryLegal x = true) : (units x).natAbs ≤ 2 ^ 275 := by
  have hmax : magOf 0x7E800000 = 2 ^ 23 * 2 ^ 252 := F32.magOf_scaled 252 (2 ^ 23) (by norm_num) (.inr le_rfl)
  have hle : magOf (magBits x) ≤ magOf 0x7E800000 := F32.magOf_le_iff.mpr (of_decide_eq_true h)
  rw [F32.natAbs_units, F32.mag]
  omega

/-- Check c5 keeps the difference of two entries finite. -/
theorem isFinite_sub_of_tableEntryLegal (nan : BitVec 32) {x y : F32} (hx : tableEntryLegal x = true)
    (hy : tableEntryLegal y = true) : isFinite (F32.sub nan x y) = true := by
  have hxm := natAbs_units_of_tableEntryLegal hx
  have hym := natAbs_units_of_tableEntryLegal hy
  rw [F32.sub, F32.add_finite nan (isFinite_of_tableEntryLegal hx) (by simpa using isFinite_of_tableEntryLegal hy),
    F32.units_neg]
  split
  · exact F32.isFinite_pack _ (by decide)
  · exact F32.isFinite_pack _ (F32.roundBits_lt_inf (by omega))

/-- At a whole phase the fraction is a zero, and so is its product with the finite difference of the entries: the sample
is the entry itself, scaled. -/
theorem sample_of_whole (ν : Nat → BitVec 32) {c : Config} {v : Voice} (hc : failingCheck c = none) {i0 : Nat}
    (hi : i0 < 256) (hu : units v.phase = i0 * 2 ^ 149) (hfin : isFinite v.phase = true)
    (hnz : F32.isZero (wtRead c (waveformIndex v.waveform) i0) = false) :
    v.sample ν c = F32.mul (ν 10) (wtRead c (waveformIndex v.waveform) i0) v.amplitude := by
  obtain ⟨hif, hiu⟩ := ofInt_exact (n := i0) (by omega)
  have hfr : F32.isZero (F32.sub (ν 6) v.phase (F32.ofInt i0)) = true :=
    F32.isZero_sub_self (ν 6) hfin hif (hu.trans hiu.symm)
  have hentry (i : Nat) : tableEntryLegal (wtRead c (waveformIndex v.waveform) i) = true :=
    tableEntryLegal_wtRead hc _ i
  have hstep := F32.isZero_mul (ν 8) hfr (isFinite_sub_of_tableEntryLegal (ν 7) (hentry ((i0 + 1) % 256)) (hentry i0))
  simp only [Voice.sample, tableIndex_of_whole hfin hi hu]
  rw [F32.add_isZero (ν 9) (isFinite_of_tableEntryLegal (hentry i0)) hnz hstep]

/-- Settles O36: the sample is R155's pseudocode at the floor of the phase; at a whole phase it is the entry scaled
(`sample_of_whole`). -/
theorem oscillatorSamples : Obligations.OscillatorSamples := by
  unfold Obligations.OscillatorSamples
  intro ν c v
  refine ⟨nextSample_inactive ν c, fun ha hp => ⟨?_, ?_⟩, fun ha hc i0 hi hu hfin hnz => ?_⟩
  · have := floor_of_phaseLegal hp
    omega
  · rw [nextSample_active ν c ha, Voice.sample, tableIndex_of_phaseLegal hp]
    rfl
  · rw [nextSample_active ν c ha]
    exact sample_of_whole ν hc hi hu hfin hnz

end Sys2Proof.Machine
end

section
/-! PROOFS. The ramp of R182 and R185: each counted call is one rounded addition and one sample fewer, and the calls after
the last of them change nothing. -/

open Sys2Proof.Claim

namespace Sys2Proof.Machine

/-- A call of a ramp that still counts (R182). -/
theorem Ramp.process_counting (ν : Nat → BitVec 32) {r : Ramp} (h : r.remaining ≠ 0) :
    r.process ν = { r with remaining := r.remaining - 1, current := F32.add (ν 3) r.current r.increment } := by
  rw [Ramp.process, if_neg h]

/-- R185: each of the counted calls adds the increment once. -/
theorem rampSteps_of_le (ν : Nat → Nat → BitVec 32) (r : Ramp) {m : Nat} (h : m ≤ r.remaining.toNat) :
    rampSteps ν m r = { r with
      current := addedTimes ν r.increment r.current m,
      remaining := BitVec.ofNat 32 (r.remaining.toNat - m) } := by
  induction m with
  | zero => simp [rampSteps, addedTimes]
  | succ m ih =>
    have hne : BitVec.ofNat 32 (r.remaining.toNat - m) ≠ 0 := by bv_omega
    have hpred : BitVec.ofNat 32 (r.remaining.toNat - m) - 1 = BitVec.ofNat 32 (r.remaining.toNat - (m + 1)) := by
      bv_omega
    rw [rampSteps, ih (Nat.le_of_succ_le h), Ramp.process_counting (ν m) hne, hpred, addedTimes]

/-- The last of the counted calls leaves the ramp finished. -/
theorem rampSteps_remaining_eq_zero (ν : Nat → Nat → BitVec 32) (r : Ramp) :
    (rampSteps ν r.remaining.toNat r).remaining = 0 := by
  rw [rampSteps_of_le ν r le_rfl, Nat.sub_self]
  rfl

/-- The calls after the ramp has finished change nothing. -/
theorem rampSteps_of_ge (ν : Nat → Nat → BitVec 32) (r : Ramp) {m : Nat} (h : r.remaining.toNat ≤ m) :
    rampSteps ν m r = rampSteps ν r.remaining.toNat r := by
  induction m, h using Nat.le_induction with
  | base => rfl
  | succ m _ ih => rw [rampSteps, ih, Ramp.process_finished (ν m) (rampSteps_remaining_eq_zero ν r)]

/-- Settles O33: the counted calls by `rampSteps_of_le`, those after them by `rampSteps_of_ge`. -/
theorem rampAddsIncrementEachCall : Obligations.RampAddsIncrementEachCall := by
  unfold Obligations.RampAddsIncrementEachCall
  intro ν r m
  refine ⟨rampSteps_of_le ν r, fun h => ⟨rampSteps_of_ge ν r h, ?_⟩⟩
  rw [rampSteps_of_ge ν r h, Ramp.finished_iff]
  exact rampSteps_remaining_eq_zero ν r

end Sys2Proof.Machine
end

section
/-! PROOFS. The envelope of R200 and R202: `start_stage`, and the transitions of trigger, release, process and
deactivation. -/

namespace Sys2Proof.Machine

/-- Settles O32: the two outcomes are those of `startStage_cases`, with the length of R180 as the condition. -/
theorem startStageRampsOrJumps : Obligations.StartStageRampsOrJumps := by
  unfold Obligations.StartStageRampsOrJumps
  intro ν target d r n
  rcases startStage_cases ν target d r with ⟨hzero, hjump⟩ | ⟨hne, hramp⟩
  · exact hjump.trans (if_pos hzero).symm
  · exact hramp.trans (if_neg hne).symm

/-- A release in Off or Release does nothing (R205). -/
theorem Env.release_of_silent (ν : Nat → BitVec 32) {e : Env} (h : e.stage = .off ∨ e.stage = .release) :
    e.release ν = e := by
  rw [Env.release, if_pos h]

/-- A release in any other stage starts the ramp to zero (R205). -/
theorem Env.release_of_held (ν : Nat → BitVec 32) {e : Env}
    (h : e.stage = .attack ∨ e.stage = .decay ∨ e.stage = .sustain) :
    e.release ν = { e with stage := .release, ramp := startStage ν 0 e.releaseTime e.ramp } := by
  have hheld : ¬(e.stage = .off ∨ e.stage = .release) := by
    rcases h with hs | hs | hs <;> simp [hs]
  rw [Env.release, if_neg hheld]

/-- A call whose ramp step leaves samples makes no transition (R203). -/
theorem Env.process_of_counting (ν : Nat → BitVec 32) {e : Env} (h : (e.ramp.process ν).finished = false) :
    e.process ν = { e with ramp := e.ramp.process ν } := by
  rcases Env.process_cases ν e with ⟨-, hkeep⟩ | ⟨hzero, -⟩
  · exact hkeep
  · rw [(Ramp.finished_iff _).mpr hzero] at h
    contradiction

/-- A call whose ramp step leaves the ramp finished makes the transition of the stage (R203). -/
theorem Env.process_of_finished (ν : Nat → BitVec 32) {e : Env} (h : (e.ramp.process ν).finished = true) :
    e.process ν = Env.nextStage ν { e with ramp := e.ramp.process ν } := by
  rw [Env.process, if_pos h]

/-- Settles O34: trigger and deactivation by definition, release by its two cases, and process by whether its ramp step
leaves the ramp finished; then `nextStage` has one row of R200's table a stage. -/
theorem envelopeTransitions : Obligations.EnvelopeTransitions := by
  unfold Obligations.EnvelopeTransitions
  intro ν e
  refine ⟨rfl, rfl, Env.release_of_silent ν, fun hheld => ?_, ⟨Env.process_of_counting ν, fun hfin => ?_⟩,
    fun v => ⟨rfl, rfl, rfl, rfl⟩⟩
  · rw [Env.release_of_held ν hheld]
    exact ⟨rfl, rfl⟩
  · rw [Env.process_of_finished ν hfin]
    cases e.stage <;> simp only [Env.nextStage]

end Sys2Proof.Machine
end

section
/-! PROOFS. The filter call of R225, before and after the filter is ready. -/

namespace Sys2Proof.Machine

/-- A filter that is not ready is the identity and keeps its history (R225). -/
theorem Filter.process_of_not_ready (ν : Nat → BitVec 32) (x : F32) {f : Filter} (h : f.ready = false) :
    f.process ν x = (x, f) := by
  rcases Filter.process_cases ν x f with ⟨-, hkeep⟩ | ⟨hready, -⟩
  · exact hkeep
  · rw [h] at hready
    contradiction

/-- A ready filter answers its output and shifts its history by one sample (R225). -/
theorem Filter.process_of_ready (ν : Nat → BitVec 32) (x : F32) {f : Filter} (h : f.ready = true) :
    f.process ν x = (f.output ν x, { f with x1 := x, x2 := f.x1, y1 := f.output ν x, y2 := f.y1 }) := by
  rcases Filter.process_cases ν x f with ⟨hidle, -⟩ | ⟨-, hstep⟩
  · rw [h] at hidle
    contradiction
  · exact hstep

/-- Settles O37: the two cases of `Filter.process_cases`; the sum of the statement is `Filter.output` by definition. -/
theorem filterStepsWhenReady : Obligations.FilterStepsWhenReady := by
  unfold Obligations.FilterStepsWhenReady
  intro ν x f
  exact ⟨Filter.process_of_not_ready ν x, Filter.process_of_ready ν x⟩

end Sys2Proof.Machine
end

section
/-! PROOFS. The delay line of R243 and R244: what one call does, the effective delay, and the return of a written sample
after that many calls. -/

open Sys2Proof.Claim

namespace Sys2Proof.Machine

/-! ### One call -/

/-- What a call of the delay on `x` writes: the pseudocode's sum (R244, log 22). -/
def Delay.written (ν : Nat → BitVec 32) (x : F32) (d : Delay) (m : Memory) : F32 :=
  F32.add (ν 1) x (F32.mul (ν 0) d.feedback (dbufRead d.readPos.toNat m))

/-- A call writes one cell, the one at the write position (R244). -/
theorem dbufRead_process (ν : Nat → BitVec 32) (l : Nat) (x : F32) (d : Delay) {m : Memory} (h : m.wf = true)
    (i : Nat) : dbufRead i (d.process ν l x m).2.2 = if i = d.writePos.toNat then d.written ν x m else dbufRead i m :=
  dbufRead_dbufWrite d.writePos.toNat i _ h

/-- A call advances the write position by one (R244, R245). -/
theorem toNat_writePos_process (ν : Nat → BitVec 32) {l : Nat} (h1 : 1 ≤ l) (h2 : l ≤ 2 ^ 24) (x : F32) (d : Delay)
    (m : Memory) : (d.process ν l x m).2.1.writePos.toNat = (d.writePos.toNat + 1) % l :=
  toNat_advancePos h1 h2 d.writePos

/-- A call advances the read position by one (R244, R245). -/
theorem toNat_readPos_process (ν : Nat → BitVec 32) {l : Nat} (h1 : 1 ≤ l) (h2 : l ≤ 2 ^ 24) (x : F32) (d : Delay)
    (m : Memory) : (d.process ν l x m).2.1.readPos.toNat = (d.readPos.toNat + 1) % l :=
  toNat_advancePos h1 h2 d.readPos

/-- Settles O38: the written cell by `dbufRead_process`, the other bytes by the word write's frame, the positions by
`toNat_advancePos`. -/
theorem delayReadsThenWrites : Obligations.DelayReadsThenWrites := by
  unfold Obligations.DelayReadsThenWrites
  intro ν l x d m hm hd h2
  obtain ⟨hw, -⟩ := (Delay.inRange_iff l d).mp hd
  have h1 : 1 ≤ l := by omega
  refine ⟨rfl, ?_, fun a ha => ?_, toNat_writePos_process ν h1 h2 x d m, toNat_readPos_process ν h1 h2 x d m, rfl, rfl⟩
  · exact (dbufRead_process ν l x d hm _).trans (if_pos rfl)
  · exact Memory.readByte_writeWord_of_ne _ hm ha

/-! ### The effective delay -/

/-- The effective delay as an integer: its defining formula is never negative (R243). -/
theorem natCast_delayLen {l : Nat} (h1 : 1 ≤ l) (d : Delay) :
    (delayLen l d : Int) = ((d.writePos.toNat : Int) - d.readPos.toNat - 1) % l + 1 := by
  have := Int.emod_nonneg ((d.writePos.toNat : Int) - d.readPos.toNat - 1) (b := (l : Int)) (by omega)
  exact Int.toNat_of_nonneg (by omega)

/-- The effective delay is a delay of the buffer (R243). -/
theorem delayLen_bounds {l : Nat} (h1 : 1 ≤ l) (d : Delay) : 1 ≤ delayLen l d ∧ delayLen l d ≤ l := by
  have hlen := natCast_delayLen h1 d
  have hlow := Int.emod_nonneg ((d.writePos.toNat : Int) - d.readPos.toNat - 1) (b := (l : Int)) (by omega)
  have hhigh := Int.emod_lt_of_pos ((d.writePos.toNat : Int) - d.readPos.toNat - 1) (b := (l : Int)) (by omega)
  omega

/-- What an accepted `update_delay` leaves (R241). -/
theorem Delay.eq_of_updateDelay {ν : Nat → BitVec 32} {l : Nat} {t : F32} {d d' : Delay}
    (h : d.updateDelay ν l t = some d') : d' = { d with readPos := d.posBack l (F32.round (d.product ν t)) } := by
  simp only [Delay.updateDelay] at h
  split_ifs at h
  exact (Option.some.inj h).symm

/-- The read position set back by `k` samples makes the effective delay `((k − 1) mod L) + 1` (R241, R243). -/
theorem delayLen_posBack {l : Nat} (h1 : 1 ≤ l) (h2 : l ≤ 2 ^ 24) (k : Int) (d : Delay) :
    (delayLen l { d with readPos := d.posBack l k } : Int) = (k - 1) % l + 1 := by
  have hmod : ((d.writePos.toNat : Int) - (d.writePos.toNat + l - k) % l - 1) ≡
      d.writePos.toNat - (d.writePos.toNat + l - k) - 1 [ZMOD l] := ((Int.mod_modEq _ _).sub_left _).sub_right 1
  rw [natCast_delayLen h1, Delay.toNat_posBack h1 h2, hmod,
    show (d.writePos.toNat - (d.writePos.toNat + l - k) - 1 : Int) = k - 1 - l by ring, Int.sub_emod_right]

/-- Equal positions are the longest delay (R243). -/
theorem delayLen_of_writePos_eq_readPos {l : Nat} (h1 : 1 ≤ l) {d : Delay} (h : d.writePos = d.readPos) :
    delayLen l d = l := by
  have hlen := natCast_delayLen h1 d
  have hmod : (-1 : Int) % l = l - 1 := by
    rw [← Int.add_emod_right, Int.emod_eq_of_lt (by omega) (by omega)]
    ring
  rw [h, sub_self, zero_sub, hmod] at hlen
  omega

/-- Settles O39: the range, the call, the update and the reset, one lemma each. -/
theorem effectiveDelayIsKept : Obligations.EffectiveDelayIsKept := by
  unfold Obligations.EffectiveDelayIsKept
  intro l d h1 h2 _
  refine ⟨delayLen_bounds h1 d, fun ν x m => delayLen_process ν h1 h2 x d m, fun ν t d' hd' => ?_, fun c => ?_⟩
  · rw [Delay.eq_of_updateDelay hd']
    exact delayLen_posBack h1 h2 _ d
  · exact delayLen_of_writePos_eq_readPos h1 rfl

/-! ### Many calls -/

section
variable (ν : Nat → Nat → BitVec 32) {l : Nat} (x : Nat → F32) (d : Delay) {m : Memory} (n : Nat)

theorem wf_delayCalls (hm : m.wf = true) : (delayCalls ν l x n (d, m)).2.wf = true := by
  induction n with
  | zero => exact hm
  | succ n ih => exact Delay.wf_process (ν n) l (x n) _ ih

theorem toNat_writePos_delayCalls (h2 : l ≤ 2 ^ 24) (hd : d.inRange l = true) :
    (delayCalls ν l x n (d, m)).1.writePos.toNat = (d.writePos.toNat + n) % l := by
  obtain ⟨hw, -⟩ := (Delay.inRange_iff l d).mp hd
  induction n with
  | zero => exact (Nat.mod_eq_of_lt hw).symm
  | succ n ih => rw [delayCalls, toNat_writePos_process (ν n) (by omega) h2, ih, Nat.mod_add_mod, Nat.add_assoc]

theorem toNat_readPos_delayCalls (h2 : l ≤ 2 ^ 24) (hd : d.inRange l = true) :
    (delayCalls ν l x n (d, m)).1.readPos.toNat = (d.readPos.toNat + n) % l := by
  obtain ⟨-, hr⟩ := (Delay.inRange_iff l d).mp hd
  induction n with
  | zero => exact (Nat.mod_eq_of_lt hr).symm
  | succ n ih => rw [delayCalls, toNat_readPos_process (ν n) (by omega) h2, ih, Nat.mod_add_mod, Nat.add_assoc]

/-- The cell the first call writes keeps its sample until the write position has gone round the buffer. -/
theorem dbufRead_delayCalls_of_le (h2 : l ≤ 2 ^ 24) (hd : d.inRange l = true) (hm : m.wf = true) (hn : 1 ≤ n)
    (hnl : n ≤ l) : dbufRead d.writePos.toNat (delayCalls ν l x n (d, m)).2 = d.written (ν 0) (x 0) m := by
  obtain ⟨hw, -⟩ := (Delay.inRange_iff l d).mp hd
  induction n, hn using Nat.le_induction with
  | base => exact (dbufRead_process (ν 0) l (x 0) d hm _).trans (if_pos rfl)
  | succ n hn ih =>
    have hne : d.writePos.toNat ≠ (delayCalls ν l x n (d, m)).1.writePos.toNat := by
      rw [toNat_writePos_delayCalls ν x d n h2 hd]
      intro heq
      have hmod : d.writePos.toNat + 0 ≡ d.writePos.toNat + n [MOD l] := (Nat.mod_eq_of_lt hw).trans heq
      have hzero := Nat.ModEq.eq_of_lt_of_lt (Nat.ModEq.add_left_cancel' _ hmod) (by omega) (by omega)
      omega
    rw [delayCalls, dbufRead_process (ν n) l (x n) _ (wf_delayCalls ν x d n hm), if_neg hne, ih (by omega)]

end

/-- After `delay_len` calls the read position is where the write position was (R243). -/
theorem readPos_add_delayLen {l : Nat} {d : Delay} (hd : d.inRange l = true) :
    (d.readPos.toNat + delayLen l d) % l = d.writePos.toNat := by
  obtain ⟨hw, -⟩ := (Delay.inRange_iff l d).mp hd
  have hmod : (d.readPos.toNat + delayLen l d : Int) ≡ d.writePos.toNat [ZMOD l] := calc
    (d.readPos.toNat + delayLen l d : Int)
    _ = d.readPos.toNat + ((d.writePos.toNat - d.readPos.toNat - 1) % l + 1) := by rw [natCast_delayLen (by omega) d]
    _ ≡ d.readPos.toNat + ((d.writePos.toNat - d.readPos.toNat - 1) + 1) [ZMOD l] :=
      ((Int.mod_modEq _ _).add_right 1).add_left _
    _ = d.writePos.toNat := by ring
  have hnat : d.readPos.toNat + delayLen l d ≡ d.writePos.toNat [MOD l] := by exact_mod_cast hmod
  exact Eq.trans hnat (Nat.mod_eq_of_lt hw)

/-- Settles O40: after `delay_len ≤ L` calls the read position stands on the cell the first call wrote
(`readPos_add_delayLen`), which no later call has overwritten (`dbufRead_delayCalls_of_le`). -/
theorem writtenSampleReturnsAfterDelay : Obligations.WrittenSampleReturnsAfterDelay := by
  unfold Obligations.WrittenSampleReturnsAfterDelay
  intro ν l x d m h1 h2 hd hm
  obtain ⟨hpos, hle⟩ := delayLen_bounds h1 d
  calc dbufRead (delayCalls ν l x (delayLen l d) (d, m)).1.readPos.toNat (delayCalls ν l x (delayLen l d) (d, m)).2
    _ = dbufRead d.writePos.toNat (delayCalls ν l x (delayLen l d) (d, m)).2 := by
      rw [toNat_readPos_delayCalls ν x d _ h2 hd, readPos_add_delayLen hd]
    _ = d.written (ν 0) (x 0) m := dbufRead_delayCalls_of_le ν x d _ h2 hd hm hpos hle

end Sys2Proof.Machine
end

section
/-! PROOFS. The effect chain of R261: one slot by what it binds, and the chain as the two slots in order. -/

open Sys2Proof.Claim

namespace Sys2Proof.Machine

/-! ### One slot -/

section
variable (ν : Nat → BitVec 32) {slot : Slot} (x : F32) (s : State)

/-- A transparent slot passes its sample and writes nothing (R260, R261). -/
theorem runSlot_of_transparent (h : transparent slot) : runSlot ν slot x s = (x, s) := by
  rcases h with hidle | hnone
  · simp [runSlot, hidle]
  · simp [runSlot, hnone]

/-- A slot that binds the filter steps it once (R260, R261). -/
theorem runSlot_of_binds_lowPass (h : binds slot .lowPass) :
    runSlot ν slot x s = ((s.filter.process ν x).1, { s with filter := (s.filter.process ν x).2 }) := by
  obtain ⟨hactive, heffect⟩ := h
  simp [runSlot, hactive, heffect]

/-- A slot that binds the delay steps it once (R260, R261). -/
theorem runSlot_of_binds_delay (h : binds slot .delay) :
    runSlot ν slot x s = ((s.delay.process ν s.cfg.l x s.dbuf).1,
      { s with delay := (s.delay.process ν s.cfg.l x s.dbuf).2.1,
               dbuf := (s.delay.process ν s.cfg.l x s.dbuf).2.2 }) := by
  obtain ⟨hactive, heffect⟩ := h
  simp [runSlot, hactive, heffect]

/-- A slot that does not bind the filter keeps it (R264). -/
theorem runSlot_filter_of_not_binds (h : ¬ binds slot .lowPass) : (runSlot ν slot x s).2.filter = s.filter := by
  rcases runSlot_cases ν slot x s with ⟨-, hrun⟩ | ⟨hactive, heffect, -⟩ | ⟨-, -, hrun⟩
  · rw [hrun]
  · exact absurd ⟨hactive, heffect⟩ h
  · rw [hrun]

/-- A slot that does not bind the delay keeps its registers and DBUF (R264). -/
theorem runSlot_delay_of_not_binds (h : ¬ binds slot .delay) :
    (runSlot ν slot x s).2.delay = s.delay ∧ (runSlot ν slot x s).2.dbuf = s.dbuf := by
  rcases runSlot_cases ν slot x s with ⟨-, hrun⟩ | ⟨-, -, hrun⟩ | ⟨hactive, heffect, -⟩
  · simp [hrun]
  · simp [hrun]
  · exact absurd ⟨hactive, heffect⟩ h

end

/-! ### The chain -/

/-- The chain runs slot 0, then slot 1 on what slot 0 answered (R261). -/
theorem fxRender_eq_of_runSlot {k : Nat} {x : F32} {s : State} {a b : F32 × State}
    (h0 : runSlot (s.nans k unitSlot0) s.slot0 x s = a) (h1 : runSlot (s.nans k unitSlot1) s.slot1 a.1 a.2 = b) :
    fxRender k x s = b := by
  subst h0
  exact h1

/-- Settles O41: each of the two slots keeps an effect it does not bind, and a transparent slot is the identity. -/
theorem unboundEffectIsFrozen : Obligations.UnboundEffectIsFrozen := by
  unfold Obligations.UnboundEffectIsFrozen
  intro k x s
  refine ⟨fun h0 h1 => (runSlot_filter_of_not_binds _ _ _ h1).trans (runSlot_filter_of_not_binds _ x s h0),
    fun h0 h1 => ?_,
    fun h0 h1 => fxRender_eq_of_runSlot (runSlot_of_transparent _ x s h0) (runSlot_of_transparent _ x s h1)⟩
  obtain ⟨hdelay0, hdbuf0⟩ := runSlot_delay_of_not_binds (s.nans k unitSlot0) x s h0
  obtain ⟨hdelay1, hdbuf1⟩ := runSlot_delay_of_not_binds (s.nans k unitSlot1)
    (runSlot (s.nans k unitSlot0) s.slot0 x s).1 (runSlot (s.nans k unitSlot0) s.slot0 x s).2 h1
  exact ⟨hdelay1.trans hdelay0, hdbuf1.trans hdbuf0⟩

/-- Settles O42: the equation of slot 0, then that of slot 1, by what each of them binds. -/
theorem slotsFoldInOrder : Obligations.SlotsFoldInOrder := by
  unfold Obligations.SlotsFoldInOrder
  intro k x s
  exact ⟨
    fun h0 h1 => fxRender_eq_of_runSlot (runSlot_of_binds_lowPass _ x s h0) (runSlot_of_binds_delay _ _ _ h1),
    fun h0 h1 => fxRender_eq_of_runSlot (runSlot_of_binds_delay _ x s h0) (runSlot_of_binds_lowPass _ _ _ h1),
    fun h0 h1 => fxRender_eq_of_runSlot (runSlot_of_binds_delay _ x s h0) (runSlot_of_binds_delay _ _ _ h1),
    fun h0 h1 => fxRender_eq_of_runSlot (runSlot_of_binds_lowPass _ x s h0) (runSlot_of_binds_lowPass _ _ _ h1),
    fun h0 h1 => fxRender_eq_of_runSlot (runSlot_of_binds_lowPass _ x s h0) (runSlot_of_transparent _ _ _ h1),
    fun h0 h1 => fxRender_eq_of_runSlot (runSlot_of_transparent _ x s h0) (runSlot_of_binds_lowPass _ _ _ h1),
    fun h0 h1 => fxRender_eq_of_runSlot (runSlot_of_binds_delay _ x s h0) (runSlot_of_transparent _ _ _ h1),
    fun h0 h1 => fxRender_eq_of_runSlot (runSlot_of_transparent _ x s h0) (runSlot_of_binds_delay _ _ _ h1)⟩

end Sys2Proof.Machine
end

section
/-! PROOFS. The commands one by one (R272 to R285). A packet with an operation's OP runs that operation's instruction or
is malformed (`packetRuns_of_op`). A command whose checks and sub-steps are those of its rule runs as R270 says
(`runs_of_execute`), and the voice commands, the slot commands and those of one sub-step are three uses of that. -/

open Sys2Proof.Claim

namespace Sys2Proof.Machine

/-! ### The packet of a command -/

/-- The "must be zero" column of R103's table, field by field. -/
def reservedFieldsZero : Op → Packet → Prop
  | .activateVoice, p => aField p = 0 ∧ bField p = 0 ∧ p.w1 = 0 ∧ p.w2 = 0
  | .setFrequency, p => aField p = 0 ∧ bField p = 0 ∧ fField p = false ∧ p.w2 = 0
  | .setMidiNote, p => p.w1 = 0 ∧ p.w2 = 0
  | .setWaveform, p => bField p = 0 ∧ fField p = false ∧ p.w1 = 0 ∧ p.w2 = 0
  | .updateFilter, p => idxField p = 0 ∧ aField p = 0 ∧ bField p = 0 ∧ fField p = false
  | .updateDelay, p => idxField p = 0 ∧ aField p = 0 ∧ bField p = 0 ∧ fField p = false
  | .effectSetSlot, p => bField p = 0 ∧ fField p = false ∧ p.w1 = 0 ∧ p.w2 = 0
  | .effectActivateSlot, p => aField p = 0 ∧ bField p = 0 ∧ p.w1 = 0 ∧ p.w2 = 0
  | .getFilter, p => allZero p
  | .getDelay, p => allZero p
  | .init, p => allZero p
  | .deinit, p => allZero p

/-- The fields of a packet are the bits R101 gives them. -/
theorem fields_eq (p : Packet) : p.fields =
    { idx := idxField p, a := aField p, b := bField p, f := fField p, x := p.w1, y := p.w2 } := rfl

theorem reservedClear_iff_reservedFieldsZero (op : Op) (p : Packet) :
    reservedClear op p.fields = true ↔ reservedFieldsZero op p := by
  rw [fields_eq]
  cases op <;> simp [reservedClear, reservedFieldsZero, allZero, and_assoc]

/-- The step that reads a packet with the OP of `op` rejects it for a reserved field, or runs the instruction of its
fields (R103, R104). -/
theorem packetRuns_of_op (op : Op) :
    packetRuns (opCode op) (reservedFieldsZero op) (fun p => instrOf op p.fields) := by
  intro p s rest hop hp
  rw [← reservedClear_iff_reservedFieldsZero]
  refine ⟨fun hr => step_presents_rejected hp ((decodePacket_reservedField_iff hop.symm).mpr hr), fun hr => ?_⟩
  have hd : decodePacket p = .ok (instrOf op p.fields) := by rw [decodePacket_of_op hop.symm, if_pos hr]
  exact step_run (nextMove_presents hp hd)

/-! ### The run of a command -/

/-- A command runs as R270 says when its checks are the legality of its operands and, the operands being legal, its
guarded sub-steps have the effects of its rule, whatever command is then in progress. -/
theorem runs_of_execute {i : Instr} {legal : Bool} {P : Prop} {us effects : List (State → State)} {s : State}
    (hx : exec i s = execute i legal us s) (hl : legal = true ↔ P)
    (hu : P → ∀ g, us.map (fun u => { guarded u s with inProgress := g }) =
      effects.map (fun e => { e s with rmask := false, inProgress := g })) : Runs i P effects s where
  rejected hs hP := hx.trans (execute_rejected hs (hl.not.mpr hP))
  applied hP e he := by
    have hk := congrArg (·[s.subStep]?) (hu hP (some { instr := i, done := s.subStep + 1 }))
    simp only [List.getElem?_map, he, Option.map_some, Option.map_eq_some_iff] at hk
    obtain ⟨u, hus, hue⟩ := hk
    rw [hx, hl.mpr hP, execute_subStep hus, hue]
  responded hP hs := by
    have hlen : us.length = effects.length := by simpa using congrArg List.length (hu hP none)
    rw [hx, hl.mpr hP, execute_response (hlen.trans hs.symm).le]
    rfl

/-- A command with one sub-step. -/
theorem runs_single {i : Instr} {legal : Bool} {P : Prop} {u e : State → State} {s : State}
    (hx : exec i s = execute i legal [u] s) (hl : legal = true ↔ P)
    (hu : P → ∀ g, ({ guarded u s with inProgress := g } : State) = { e s with rmask := false, inProgress := g }) :
    Runs i P [e] s :=
  runs_of_execute hx hl fun hP g => congrArg (fun t => [t]) (hu hP g)

/-! ### The voice commands -/

/-- 0xFF is no voice's own number in a pool of at most 255, so the order of the two tests of R271 does not matter. -/
theorem targets_eq_voicesNamed (idx : BitVec 8) {nv : Nat} (h : nv ≤ 255) : targets idx nv = voicesNamed idx nv := by
  rw [voicesNamed]
  split_ifs with hall hone
  · rw [hall, targets_all h]
  · rw [targets, if_pos hone]
  · rw [targets, if_neg hone, if_neg hall]

/-- A voice command has the effect of its rule on each voice its index names (R71, R271). In `hf` the mask is set, as it
is while a sub-step is applied. -/
theorem runs_voiceCommand {i : Instr} {idx : BitVec 8} {legal : Bool} {P : Prop} {f : Nat → State → Voice → Voice}
    {g : Nat → Voice → Voice} {s : State} (hnv : s.cfg.nv ≤ 255) (hx : exec i s = voiceCommand i idx legal f s)
    (hl : ((voicesNamed idx s.cfg.nv).isSome && legal) = true ↔ P)
    (hf : ∀ n v, f n { s with rmask := true } v = g n v) :
    Runs i P (onVoices (voicesNamed idx s.cfg.nv) g) s := by
  rw [← targets_eq_voicesNamed idx hnv] at hl ⊢
  refine runs_of_execute hx hl fun _ p => ?_
  rw [onVoices, List.map_map, List.map_map]
  refine List.map_congr_left fun n _ => ?_
  exact congrArg (fun h => { s with voices := s.voices.modify n h, rmask := false, inProgress := p }) (funext (hf n))

/-- Settles O8: `trigger` and `deactivate` are R204's and R152's by definition. -/
theorem activateVoiceTriggersOrDeactivates : Obligations.ActivateVoiceTriggersOrDeactivates := by
  unfold Obligations.ActivateVoiceTriggersOrDeactivates
  refine ⟨packetRuns_of_op .activateVoice, fun idx on s hnv => ?_⟩
  exact runs_voiceCommand hnv rfl (by rw [Bool.and_true]) fun n v => rfl

/-- Settles O9: the model's two checks and its write are those of R273. -/
theorem setFrequencyWritesFiniteFrequency : Obligations.SetFrequencyWritesFiniteFrequency := by
  unfold Obligations.SetFrequencyWritesFiniteFrequency
  refine ⟨packetRuns_of_op .setFrequency, fun idx freq s hnv => ?_⟩
  exact runs_voiceCommand hnv rfl Bool.and_eq_true_iff fun n v => rfl

/-- Settles O10: a note on is the three writes and a trigger, a note off R205's release. -/
theorem setMidiNoteStartsOrReleases : Obligations.SetMidiNoteStartsOrReleases := by
  unfold Obligations.SetMidiNoteStartsOrReleases
  refine ⟨packetRuns_of_op .setMidiNote, fun idx note velocity on s hnv => ?_⟩
  refine runs_voiceCommand hnv rfl ?_ fun n v => ?_
  · rw [Bool.and_eq_true, noteInRange, decide_eq_true_eq]
  · cases on with
    | true => rfl
    | false =>
      rw [Env.release_eq_released]
      rfl

/-- Settles O11: the ids of R151 are the places of the list (`waveformOfId_eq`). -/
theorem setWaveformSelectsTable : Obligations.SetWaveformSelectsTable := by
  unfold Obligations.SetWaveformSelectsTable
  refine ⟨packetRuns_of_op .setWaveform, fun idx wf s hnv => ?_⟩
  refine runs_voiceCommand hnv rfl ?_ fun n v => ?_
  · rw [Bool.and_eq_true, isSome_waveformOfId, waveformLegal, decide_eq_true_eq]
  · rw [waveformOfId_eq]

/-! ### The effect commands -/

/-- Settles O13: the two setters and the two recomputations are one update (`Filter.update_eq`). -/
theorem updateFilterRecomputesOrRejects : Obligations.UpdateFilterRecomputesOrRejects := by
  unfold Obligations.UpdateFilterRecomputesOrRejects
  refine ⟨packetRuns_of_op .updateFilter, fun cutoff q s => ?_⟩
  rw [← Bool.and_eq_true_iff]
  refine runs_single rfl ?_ fun hlegal g => ?_
  · rw [Filter.update_eq, Option.isSome_ite]
  · have hupdate := (Filter.update_eq cutoff q s.filter).trans (if_pos hlegal)
    exact congrArg (fun f => { s with filter := f.getD s.filter, rmask := false, inProgress := g }) hupdate

/-- Settles O14: the two checks and the two writes are one update (`Delay.update_eq`). -/
theorem updateDelayMovesReadPosition : Obligations.UpdateDelayMovesReadPosition := by
  unfold Obligations.UpdateDelayMovesReadPosition
  refine ⟨packetRuns_of_op .updateDelay, fun time feedback s => ?_⟩
  intro prod
  rw [← Bool.and_eq_true_iff]
  refine runs_single rfl ?_ fun hlegal g => ?_
  · rw [Delay.update_eq, Option.isSome_ite]
    rfl
  · have hupdate := (Delay.update_eq (s.nans 0 unitSlot0) s.cfg.l time feedback s.delay).trans (if_pos hlegal)
    exact congrArg (fun d => { s with delay := d.getD s.delay, rmask := false, inProgress := g }) hupdate

/-- The slot a legal index names (R102). -/
theorem slotOfIndex_eq {slot : BitVec 8} (h : slotIndexLegal slot = true) :
    slotOfIndex slot = some (if slot.toNat = 0 then .s0 else .s1) := by
  have all : ∀ k : Fin 256, slotIndexLegal (BitVec.ofFin k) = true →
      slotOfIndex (BitVec.ofFin k) = some (if (BitVec.ofFin k : BitVec 8).toNat = 0 then .s0 else .s1) := by
    decide +kernel
  exact all slot.toFin h

/-- A slot command has the effect of its rule on the slot its index names (R280, R281). -/
theorem runs_slotCommand {i : Instr} {slot : BitVec 8} {legal : Bool} {P : Prop} {f g : Slot → Slot} {s : State}
    (hx : exec i s = slotCommand i slot legal f s) (hl : (slotIndexLegal slot && legal) = true ↔ P)
    (hf : legal = true → f = g) :
    Runs i P [fun s => if slot.toNat = 0 then { s with slot0 := g s.slot0 } else { s with slot1 := g s.slot1 }] s := by
  rw [← isSome_slotOfIndex] at hl
  refine runs_of_execute hx hl fun hP p => ?_
  obtain ⟨hslot, hlegal⟩ := Bool.and_eq_true_iff.mp (hl.mpr hP)
  rw [slotOfIndex_eq (isSome_slotOfIndex slot ▸ hslot), hf hlegal]
  refine congrArg (fun t => [t]) ?_
  by_cases h : slot.toNat = 0
  · simp only [h, if_true, guarded, State.modifySlot]
  · simp only [h, if_false, guarded, State.modifySlot]

/-- The ids of R102, in order. -/
theorem effectOfId_eq (effect : BitVec 8) : effectOfId effect = [Effect.none, .lowPass, .delay][effect.toNat]? := by
  have all : ∀ k : Fin 256, effectOfId (BitVec.ofFin k) =
      [Effect.none, .lowPass, .delay][(BitVec.ofFin k : BitVec 8).toNat]? := by decide +kernel
  exact all effect.toFin

/-- Settles O15: the ids are the places of the list (`effectOfId_eq`), and a legal one has a place. -/
theorem effectSetSlotBinds : Obligations.EffectSetSlotBinds := by
  unfold Obligations.EffectSetSlotBinds
  refine ⟨packetRuns_of_op .effectSetSlot, fun slot effect s => ?_⟩
  refine runs_slotCommand (g := fun r => { r with
    effect := ([Effect.none, .lowPass, .delay][effect.toNat]?).getD .none }) rfl ?_ fun hlegal => ?_
  · rw [Bool.and_eq_true, isSome_effectOfId, slotIndexLegal, effectLegal, decide_eq_true_eq, decide_eq_true_eq]
  · obtain ⟨e, he⟩ := Option.isSome_iff_exists.mp hlegal
    rw [← effectOfId_eq, he]
    rfl

/-- Settles O16: the slot index is the only check of R281. -/
theorem effectActivateSlotSwitches : Obligations.EffectActivateSlotSwitches := by
  unfold Obligations.EffectActivateSlotSwitches
  refine ⟨packetRuns_of_op .effectActivateSlot, fun slot on s => ?_⟩
  refine runs_slotCommand (g := fun r => { r with active := on }) rfl ?_ fun _ => rfl
  rw [Bool.and_true, slotIndexLegal, decide_eq_true_eq]

/-! ### The getters -/

/-- Settles O17: the status word is the ready bit shifted to bit 8. -/
theorem getFilterReadsBack : Obligations.GetFilterReadsBack := by
  unfold Obligations.GetFilterReadsBack
  refine ⟨packetRuns_of_op .getFilter, fun s => ?_⟩
  have hstatus : filterStatus s.filter = BitVec.ofNat 32 ((if s.filter.ready then 1 else 0) <<< 8) := by
    rw [filterStatus]
    split <;> rfl
  rw [← hstatus]
  rfl

/-- Settles O18: the answer is the effective delay, a delay of the buffer (`delayLen_bounds`). -/
theorem getDelayReadsBack : Obligations.GetDelayReadsBack := by
  unfold Obligations.GetDelayReadsBack
  refine ⟨packetRuns_of_op .getDelay, fun s h1 h2 => ?_⟩
  obtain ⟨hpos, hle⟩ := delayLen_bounds h1 s.delay
  exact ⟨delayLen s.cfg.l s.delay, natCast_delayLen h1 s.delay, hpos, hle, Nat.mod_eq_of_lt (by omega), rfl⟩

/-! ### The lifecycle commands -/

/-- What INIT's sub-step leaves (R284): the reset state with LC = RUNNING, and the response registers, the inputs and
the counter as they were. -/
def initialised (s : State) : State :=
  { State.resetWith s.cfg with
    lc := .running, rsp0 := s.rsp0, rsp1 := s.rsp1, rsp2 := s.rsp2, cmdIn := s.cmdIn, evIn := s.evIn,
    fresh := s.fresh }

theorem runs_init (s : State) : Runs .init True [initialised] s :=
  runs_single rfl (iff_of_true rfl trivial) fun _ _ => rfl

/-- INIT between its sub-step and its response. -/
def initInProgress (s : State) : State := { initialised s with inProgress := some { instr := .init, done := 1 } }

/-- At a command boundary INIT's transition is its sub-step. -/
theorem exec_init_subStep {s : State} (hs : s.inProgress = none) : exec .init s = .next (initInProgress s) := by
  have happlied := (runs_init s).applied trivial initialised
  rw [subStep_of_none hs] at happlied
  exact happlied rfl

/-- INIT presented with no event to come: one step to the reset state, one to the response (R270, R382). -/
theorem after_init {s : State} {p : Packet} {rest : List Packet} (hp : Presents s p rest)
    (hd : decodePacket p = .ok .init) (hev : s.evIn = []) : State.after 2 s =
      .next { State.resetWith s.cfg with lc := .running, cmdIn := rest, fresh := s.fresh + 2 } := by
  let t : State := initInProgress { s.tick with cmdIn := rest }
  have hfirst : step s = .next t :=
    (step_run (nextMove_presents hp hd)).trans (exec_init_subStep (s := { s.tick with cmdIn := rest }) hp.noCommand)
  have hcode : t.eventCode = 0 := congrArg (fun ev => ev.tail.headD 0) hev
  have hsecond : step t = .next (answered 0 0 0 t.tick) :=
    (step_run (nextMove_inProgress (s := t) hp.config hcode rfl rfl)).trans ((runs_init t.tick).responded trivial rfl)
  have hevents : t.tick.evIn = [] := congrArg (fun ev => ev.tail.tail) hev
  rw [State.after_succ 1 hfirst, State.after_succ 0 hsecond, State.after_zero]
  exact congrArg (fun ev => Host.Outcome.next
    { State.resetWith s.cfg with lc := .running, cmdIn := rest, evIn := ev, fresh := s.fresh + 2 }) hevents

/-- Settles O19: the sub-step and the response by `runs_init`, the two steps by `after_init`. -/
theorem initIsResetAndRunning : Obligations.InitIsResetAndRunning := by
  unfold Obligations.InitIsResetAndRunning
  exact ⟨packetRuns_of_op .init, runs_init, fun s p rest => after_init⟩

/-- Settles O20: `deactivate` is R152's by definition. -/
theorem deinitMutesAndStops : Obligations.DeinitMutesAndStops := by
  unfold Obligations.DeinitMutesAndStops
  exact ⟨packetRuns_of_op .deinit, fun s => runs_single rfl (iff_of_true rfl trivial) fun _ _ => rfl⟩

end Sys2Proof.Machine
end

section
/-! PROOFS. The note table of R274. A pattern an octave up has twice the magnitude, so that being nearest is kept from
octave to octave (`IsNearestToNote.octaves`), and twelve notes are left to compare. -/

namespace Sys2Proof.Machine

open Sys2Proof.F32 (magOf exists_scaled magOf_scaled)

/-- 440·2^((n − 69)/12) Hz lies strictly between the two midpoints of the pattern `b` with its neighbours, by twelfth
powers of twice these values in units of 2^-149 (R274). -/
def IsNearestToNote (b n : Nat) : Prop :=
  (magOf (b - 1) + magOf b) ^ 12 * 2 ^ 69 < (2 * (440 * 2 ^ 149)) ^ 12 * 2 ^ n ∧
  (2 * (440 * 2 ^ 149)) ^ 12 * 2 ^ n < (magOf b + magOf (b + 1)) ^ 12 * 2 ^ 69

/-- One more in the exponent field doubles the magnitude of a normal pattern. -/
theorem magOf_octaves {b : Nat} (h : 2 ^ 23 ≤ b) (q : Nat) : magOf (b + q * 2 ^ 23) = magOf b * 2 ^ q := by
  obtain ⟨e, k, rfl, hk, hscaled⟩ := exists_scaled b
  have hnorm : 2 ^ 23 ≤ k := by omega
  rw [show e * 2 ^ 23 + k + q * 2 ^ 23 = (e + q) * 2 ^ 23 + k by ring, magOf_scaled _ k hk.le (.inr hnorm),
    magOf_scaled e k hk.le (.inr hnorm), pow_add, mul_assoc]

/-- A value and a note `q` octaves up: both sides grow by the factor 2^q, to the twelfth power. -/
theorem IsNearestToNote.octaves {b n : Nat} (hb : 2 ^ 23 < b) (h : IsNearestToNote b n) (q : Nat) :
    IsNearestToNote (b + q * 2 ^ 23) (n + q * 12) := by
  have scale (x y : Nat) : (x * 2 ^ q + y * 2 ^ q) ^ 12 * 2 ^ 69 = (x + y) ^ 12 * 2 ^ 69 * 2 ^ (q * 12) := by
    rw [← add_mul, mul_pow, ← pow_mul, mul_right_comm]
  have hpred : b + q * 2 ^ 23 - 1 = b - 1 + q * 2 ^ 23 := Nat.sub_add_comm (by omega)
  have hsucc : b + q * 2 ^ 23 + 1 = b + 1 + q * 2 ^ 23 := Nat.add_right_comm ..
  obtain ⟨hlow, hhigh⟩ := h
  rw [IsNearestToNote, hpred, hsucc, magOf_octaves (by omega), magOf_octaves (by omega), magOf_octaves (by omega),
    scale, scale, pow_add, ← mul_assoc]
  exact ⟨Nat.mul_lt_mul_of_pos_right hlow (by positivity), Nat.mul_lt_mul_of_pos_right hhigh (by positivity)⟩

/-- The twelve patterns of the lowest octave are normal, and far below the infinity's. -/
theorem lowestOctave_bounds :
    ∀ r < 12, 2 ^ 23 < lowestOctave.getD r 0 ∧ lowestOctave.getD r 0 < 2 ^ 31 - 2 ^ 29 := by
  decide

/-- The twelve notes of the lowest octave, compared one by one. -/
theorem isNearestToNote_lowestOctave : ∀ r < 12, IsNearestToNote (lowestOctave.getD r 0) r := by
  unfold IsNearestToNote
  decide +kernel

/-- A note's pattern as a number: nothing overflows. -/
theorem toNat_noteHz {n : Nat} (h : n < 128) :
    (noteHz n).toNat = lowestOctave.getD (n % 12) 0 + n / 12 * 2 ^ 23 := by
  have hbound := lowestOctave_bounds (n % 12) (by omega)
  rw [noteHz, BitVec.toNat_ofNat]
  exact Nat.mod_eq_of_lt (by omega)

/-- Settles O31: a note is `n / 12` octaves above a note of the lowest octave. -/
theorem noteFrequencyIsNearest : Obligations.NoteFrequencyIsNearest := by
  unfold Obligations.NoteFrequencyIsNearest
  refine ⟨fun n hn => ?_, rfl⟩
  intro b
  have hr : n % 12 < 12 := Nat.mod_lt n (by decide)
  obtain ⟨hnormal, hbound⟩ := lowestOctave_bounds (n % 12) hr
  have hb : b = lowestOctave.getD (n % 12) 0 + n / 12 * 2 ^ 23 := toNat_noteHz hn
  have hnearest := (isNearestToNote_lowestOctave (n % 12) hr).octaves hnormal (n / 12)
  rw [Nat.mod_add_div' n 12, ← hb] at hnearest
  exact ⟨show b < 0x7F800000 by omega, hnearest⟩

end Sys2Proof.Machine
end

section
/-! PROOFS. The voice in the render (R311, R312, R314): a release ends with its last counted call, and the mix is a fold
over the voices. -/

open Sys2Proof.Claim

namespace Sys2Proof.Machine

/-! ### A release -/

/-- A counted call of a ramp leaves one sample fewer (R182). -/
theorem Ramp.toNat_remaining_process (ν : Nat → BitVec 32) (r : Ramp) :
    (r.process ν).remaining.toNat = r.remaining.toNat - 1 := by
  by_cases h : r.remaining = 0
  · rw [Ramp.process_finished ν h, h]
    rfl
  · rw [Ramp.process_counting ν h]
    change (r.remaining - 1).toNat = _
    bv_omega

/-- While a release has samples to go, a call steps its ramp alone (R203). -/
theorem envSteps_releasing (ν : Nat → Nat → BitVec 32) {e : Env} (hs : e.stage = .release) {j : Nat}
    (hj : j < e.ramp.remaining.toNat) :
    (envSteps ν j e).stage = .release ∧ (envSteps ν j e).ramp.remaining.toNat = e.ramp.remaining.toNat - j := by
  induction j with
  | zero => exact ⟨hs, rfl⟩
  | succ j ih =>
    obtain ⟨hstage, hrem⟩ := ih (by omega)
    have hnext := Ramp.toNat_remaining_process (ν j) (envSteps ν j e).ramp
    rcases Env.process_cases (ν j) (envSteps ν j e) with ⟨-, h⟩ | ⟨hzero, -⟩
    · rw [envSteps, h]
      exact ⟨hstage, by change ((envSteps ν j e).ramp.process (ν j)).remaining.toNat = _; omega⟩
    · rw [hzero, hrem] at hnext
      change 0 = _ at hnext
      omega

/-- The call that takes the last sample of a release ends it (R200, R203). -/
theorem Env.stage_process_release (ν : Nat → BitVec 32) {e : Env} (hs : e.stage = .release)
    (hr : e.ramp.remaining.toNat = 1) : (e.process ν).stage = .off := by
  have hnext := Ramp.toNat_remaining_process ν e.ramp
  have hzero : (e.ramp.process ν).remaining = 0 := by bv_omega
  rw [Env.process_of_finished ν ((Ramp.finished_iff _).mpr hzero)]
  simp only [Env.nextStage, hs]

/-- Settles O35: each call before the last leaves Release with one sample fewer, and the last call ends it. -/
theorem releaseEndsAtItsLastSample : Obligations.ReleaseEndsAtItsLastSample := by
  unfold Obligations.ReleaseEndsAtItsLastSample
  intro ν₀ ν e m hheld hm hpos
  have hs : (e.release ν₀).stage = .release := by rw [Env.release_of_held ν₀ hheld]
  refine ⟨fun j hj => (envSteps_releasing ν hs (by omega)).1, ?_⟩
  obtain ⟨k, rfl⟩ := Nat.exists_eq_add_of_le' hpos
  obtain ⟨hstage, hrem⟩ := envSteps_releasing ν hs (j := k) (by omega)
  exact Env.stage_process_release (ν k) hstage (by omega)

/-! ### The mix -/

/-- Settles O44: the sample is taken after the envelope's step, and the voice is reclaimed by the stage it leaves. -/
theorem voiceIsMixedThenReclaimed : Obligations.VoiceIsMixedThenReclaimed := by
  unfold Obligations.VoiceIsMixedThenReclaimed
  intro ν c sum v
  rcases Voice.mix_cases ν c sum v with ⟨hidle, hskip⟩ | ⟨hactive, hsum, hvoice⟩
  · refine ⟨fun _ => hskip, fun h => ?_⟩
    rw [hidle] at h
    contradiction
  · refine ⟨fun h => ?_, fun _ => ?_⟩
    · rw [hactive] at h
      contradiction
    · have hsample : { v with env := v.env.process ν }.nextSample ν c =
          (v.sample ν c, { v with env := v.env.process ν, phase := v.nextPhase ν c }) := if_pos hactive
      simp only [hsample]
      refine ⟨hsum, ?_⟩
      rcases hvoice with ⟨hstage, h⟩ | ⟨hstage, h⟩
      · rw [h, if_neg hstage]
      · rw [h, if_pos hstage]
        rfl

section
variable {ν : Nat → Nat → BitVec 32} {c : Config} {vs : List Voice}

theorem sumBefore_succ {i : Nat} {v : Voice} (h : vs[i]? = some v) :
    sumBefore ν c vs (i + 1) = (v.mix (ν (3 + i)) c (sumBefore ν c vs i)).1 := by
  simp only [sumBefore, h]

/-- The mix of the voices from `i` on, started with the sum of those before `i`: it ends with the sum of all, and each
voice is mixed with the sum of those before it. -/
theorem mixVoices_drop {i : Nat} {ws : List Voice} (h : vs.drop i = ws) :
    mixVoices ν c i (sumBefore ν c vs i) ws = (sumBefore ν c vs (i + ws.length),
      ws.mapIdx fun j v => (v.mix (ν (3 + (i + j))) c (sumBefore ν c vs (i + j))).2) := by
  induction ws generalizing i with
  | nil => rfl
  | cons v ws ih =>
    have hv : vs[i]? = some v := by rw [← List.head?_drop, h, List.head?_cons]
    have hws : vs.drop (i + 1) = ws := by rw [← List.tail_drop, h, List.tail_cons]
    simp only [mixVoices, ← sumBefore_succ hv, ih hws, List.mapIdx_cons, List.length_cons, Nat.add_zero,
      Nat.add_right_comm i 1, Nat.add_assoc]

end

/-- Settles O58: the whole list is the voices from 0 on. -/
theorem voicesAreFoldedInOrder : Obligations.VoicesAreFoldedInOrder := by
  unfold Obligations.VoicesAreFoldedInOrder
  intro ν c vs
  have hmix := mixVoices_drop (ν := ν) (c := c) (List.drop_zero (l := vs))
  rw [sumBefore] at hmix
  rw [hmix]
  refine ⟨by rw [Nat.zero_add], List.length_mapIdx, fun i v hv => ?_⟩
  rw [List.getElem?_mapIdx, hv, Option.map_some, Nat.zero_add]

end Sys2Proof.Machine
end

section
/-! PROOFS. The output conversion of R315, on an exact product or an infinity. -/

namespace Sys2Proof.F32

theorem units_32767 : units 0x46FFFE00 = 32767 * 2 ^ 149 := by decide

theorem units_neg_32768 : units 0xC7000000 = -32768 * 2 ^ 149 := by decide

/-- A value that is no NaN and smaller than 2^128 is finite. -/
theorem isFinite_of_abs_units_lt {x : F32} (hn : isNaN x = false) (h : |units x| < 2 ^ 128 * 2 ^ 149) :
    isFinite x = true := by
  by_contra hf
  have hinf : isInf x = true := by
    simp only [isNaN, isInf, isFinite, decide_eq_true_eq, decide_eq_false_iff_not] at *
    omega
  rw [units_of_isInf hinf] at h
  split at h <;> norm_num at h

/-- `trunc` divides, rounding toward zero (R10). -/
theorem trunc_eq_tdiv {x : F32} (h : isFinite x = true) : trunc x = (units x).tdiv (2 ^ 149) := by
  rw [trunc_finite h, floor_finite h, floor_finite ((isFinite_neg x).trans h), units_neg]
  split
  · next h0 => exact (Int.tdiv_eq_ediv_of_nonneg h0).symm
  · next h0 => rw [← neg_neg (units x), Int.neg_tdiv, Int.tdiv_eq_ediv_of_nonneg (by omega), neg_neg]

/-- A zero of either sign has the value 0. -/
theorem units_of_isZero {x : F32} (h : isZero x = true) : units x = 0 := by
  have hm : magBits x = 0 := of_decide_eq_true h
  simp [units, mag, hm]

theorem isFinite_of_isZero {x : F32} (h : isZero x = true) : isFinite x = true := by
  have hm : magBits x = 0 := of_decide_eq_true h
  rw [isFinite_iff, hm]
  decide

end Sys2Proof.F32

namespace Sys2Proof.Machine

open Sys2Proof.F32 (units isNaN isFinite)

/-- The product y that `to_s16` converts (R315). -/
abbrev scaled (ν : Nat → BitVec 32) (oscale v : F32) : F32 := F32.mul (ν 0) v oscale

section
variable {ν : Nat → BitVec 32} {oscale v : F32}

theorem toS16_of_isNaN (hn : isNaN (scaled ν oscale v) = true) : toS16 ν oscale v = 0 := by
  simp [toS16, hn]

/-- The conversion of a product that is no NaN, by its value (R315). -/
theorem toS16_of_not_isNaN (hn : isNaN (scaled ν oscale v) = false) : toS16 ν oscale v =
    if 32767 * 2 ^ 149 ≤ units (scaled ν oscale v) then 32767#16
    else if units (scaled ν oscale v) ≤ -32768 * 2 ^ 149 then BitVec.ofInt 16 (-32768)
    else BitVec.ofInt 16 (F32.trunc (scaled ν oscale v)) := by
  have hge : F32.ge (scaled ν oscale v) 0x46FFFE00 = decide (32767 * 2 ^ 149 ≤ units (scaled ν oscale v)) := by
    rw [F32.ge, F32.le_of_not_isNaN (by decide) hn, F32.units_32767]
  have hle : F32.le (scaled ν oscale v) 0xC7000000 = decide (units (scaled ν oscale v) ≤ -32768 * 2 ^ 149) := by
    rw [F32.le_of_not_isNaN hn (by decide), F32.units_neg_32768]
  simp only [toS16, hn, hge, hle, decide_eq_true_eq, Bool.false_eq_true, if_false]

theorem toInt_toS16_of_ge (hn : isNaN (scaled ν oscale v) = false) (h : 32767 * 2 ^ 149 ≤ units (scaled ν oscale v)) :
    (toS16 ν oscale v).toInt = 32767 := by
  rw [toS16_of_not_isNaN hn, if_pos h]
  rfl

theorem toInt_toS16_of_le (hn : isNaN (scaled ν oscale v) = false) (h : units (scaled ν oscale v) ≤ -32768 * 2 ^ 149) :
    (toS16 ν oscale v).toInt = -32768 := by
  rw [toS16_of_not_isNaN hn, if_neg (by omega), if_pos h]
  rfl

/-- Between the two ends the product is finite, and its truncation fits a sample (R315). -/
theorem toInt_toS16_of_inRange (hn : isNaN (scaled ν oscale v) = false)
    (hlo : -32768 * 2 ^ 149 < units (scaled ν oscale v)) (hhi : units (scaled ν oscale v) < 32767 * 2 ^ 149) :
    (toS16 ν oscale v).toInt = (units (scaled ν oscale v)).tdiv (2 ^ 149) := by
  have hfin : isFinite (scaled ν oscale v) = true :=
    F32.isFinite_of_abs_units_lt hn (by rw [abs_lt]; constructor <;> omega)
  have hfit : -32768 ≤ F32.trunc (scaled ν oscale v) ∧ F32.trunc (scaled ν oscale v) < 32768 := by
    rw [F32.trunc_finite hfin, F32.floor_finite hfin, F32.floor_finite ((F32.isFinite_neg _).trans hfin), F32.units_neg]
    omega
  rw [toS16_of_not_isNaN hn, if_neg (by omega), if_neg (by omega),
    BitVec.toInt_ofInt_eq_self (by decide) hfit.1 hfit.2, F32.trunc_eq_tdiv hfin]

/-- Zero converts to zero (R315, R319). -/
theorem toS16_zero (ν : Nat → BitVec 32) (h : isFinite oscale = true) : toS16 ν oscale 0 = 0 := by
  have hzero : F32.isZero (scaled ν oscale 0) = true := F32.isZero_mul (ν 0) rfl h
  have hunits := F32.units_of_isZero hzero
  refine BitVec.eq_of_toInt_eq ?_
  rw [toInt_toS16_of_inRange (F32.isFinite_not_nan (F32.isFinite_of_isZero hzero)) (by omega) (by omega), hunits]
  rfl

end

/-- Settles O43: a NaN, the two ends, and the values between them, one lemma each. -/
theorem outputSaturatesAndTruncates : Obligations.OutputSaturatesAndTruncates := by
  unfold Obligations.OutputSaturatesAndTruncates
  intro ν oscale v
  exact ⟨toS16_of_isNaN, toInt_toS16_of_ge, toInt_toS16_of_le, toInt_toS16_of_inRange⟩

end Sys2Proof.Machine
end

section
/-! PROOFS. The render of a half (R310 to R320): what it leaves as it is, the samples it leaves in OUT, and that it reads
nothing of what a response writes. -/

open Sys2Proof.Claim

namespace Sys2Proof.Machine

/-! ### What a render leaves as it is -/

/-- Settles O45: no frame of the half reaches a byte outside it. -/
theorem renderWritesOnlyItsHalf : Obligations.RenderWritesOnlyItsHalf := by
  unfold Obligations.RenderWritesOnlyItsHalf
  intro half s t hw h a ha
  obtain ⟨-, rfl⟩ := serve_next h
  rw [renderFrames_readByte _ _ _ (by rwa [beginService_out]) ha, beginService_out]

theorem Voice.Same.sameParameters {v w : Voice} (h : v.Same w) : sameParameters v w :=
  ⟨h.waveform, h.frequency, h.amplitude, h.env.attackTime, h.env.decayTime, h.env.releaseTime, h.env.attackLevel,
    h.env.sustainLevel, h.env.rate⟩

/-- The frames of a half keep the delay's parameters (R320). -/
theorem renderFrames_delay_parameters (n k : Nat) (s : State) :
    (renderFrames n k s).delay.sampleRate = s.delay.sampleRate ∧
      (renderFrames n k s).delay.feedback = s.delay.feedback :=
  renderFrames_delay_induct (P := fun d => d.sampleRate = s.delay.sampleRate ∧ d.feedback = s.delay.feedback)
    (fun _ _ _ _ h => h) n k ⟨rfl, rfl⟩

/-- Settles O48: the voices, the filter and the delay keep their parameters frame by frame, and no frame writes any other
register but OUT's bytes and DBUF's. -/
theorem renderFrameCondition : Obligations.RenderFrame := by
  unfold Obligations.RenderFrame
  intro half s hr
  refine ⟨_, serve_eq half s hr, ?_⟩
  have voices := forall₂_renderFrames Voice.Same.refl (fun _ _ _ => Voice.Same.trans) s.cfg.h (startFrame half s.cfg)
    (beginService half s) (fun ν sum v => Voice.same_mix ν _ sum v)
  have filter := renderFrames_filter_same s.cfg.h (startFrame half s.cfg) (beginService half s)
  have delay := renderFrames_delay_parameters s.cfg.h (startFrame half s.cfg) (beginService half s)
  rw [beginService_voices] at voices
  rw [beginService_filter] at filter
  rw [beginService_delay] at delay
  obtain ⟨hrate, hfeedback⟩ := delay
  refine ⟨by simp, voices.imp fun _ _ h => h.sameParameters, filter.cutoff, filter.q, filter.ready, filter.sampleRate,
    filter.a1, filter.a2, filter.b0, filter.b1, filter.b2, hrate, hfeedback, ?_⟩
  simp

/-! ### The bytes of a sample and of an element of DBUF -/

/-- A sample of OUT is stored little-endian (R64). -/
theorem bytes_outRead (j : Nat) (m : Memory) :
    m.readByte (2 * j) = lowByte (outRead j m) ∧ m.readByte (2 * j + 1) = highByte (outRead j m) :=
  ⟨BitVec.extractLsb'_append_eq_right.symm, BitVec.extractLsb'_append_eq_left.symm⟩

/-- Byte `j` of an element of DBUF: the least significant is stored first (R64). -/
theorem byte_dbufRead (i : Nat) (m : Memory) {j : Nat} (hj : j < 4) :
    m.readByte (4 * i + j) = (dbufRead i m).extractLsb' (8 * j) 8 := by
  unfold dbufRead Memory.readWord
  obtain rfl | rfl | rfl | rfl : j = 0 ∨ j = 1 ∨ j = 2 ∨ j = 3 := by omega
  · exact BitVec.extractLsb'_append_eq_right.symm
  · rw [BitVec.extractLsb'_append_eq_of_le (by decide)]
    exact BitVec.extractLsb'_append_eq_right.symm
  · rw [BitVec.extractLsb'_append_eq_of_le (by decide), BitVec.extractLsb'_append_eq_of_le (by decide)]
    exact BitVec.extractLsb'_append_eq_right.symm
  · rw [BitVec.extractLsb'_append_eq_of_le (by decide), BitVec.extractLsb'_append_eq_of_le (by decide),
      BitVec.extractLsb'_append_eq_of_le (by decide)]
    exact BitVec.extractLsb'_eq_self.symm

/-! ### The samples of a half -/

/-- Frame `j` of a half after its service: both channels hold the sample of the state the frames before it left (R310). -/
theorem outRead_serve {half : Half} {s t : State} (hw : s.out.wf = true) (h : serve half s = .next t) {j : Nat}
    (hj : j < s.cfg.h) :
    outRead (2 * (startFrame half s.cfg + j)) t.out = frameSample (startFrame half s.cfg + j)
        (renderFrames j (startFrame half s.cfg) (beginService half s)) ∧
      outRead (2 * (startFrame half s.cfg + j) + 1) t.out = frameSample (startFrame half s.cfg + j)
        (renderFrames j (startFrame half s.cfg) (beginService half s)) := by
  obtain ⟨-, rfl⟩ := serve_next h
  exact outRead_renderFrames _ _ _ (by rwa [beginService_out]) hj

/-- Settles O47: the two channels by `outRead_serve`, the bytes by `bytes_outRead` and `byte_dbufRead`. -/
theorem bothChannelsCarryOneValue : Obligations.BothChannelsCarryOneValue := by
  unfold Obligations.BothChannelsCarryOneValue
  refine ⟨fun half s t hw h k hlo hhi => ?_, fun ν l x d m hm j hj => ?_⟩
  · obtain ⟨j, rfl⟩ := Nat.exists_eq_add_of_le hlo
    obtain ⟨hleft, hright⟩ := outRead_serve hw h (Nat.lt_of_add_lt_add_left hhi)
    have hsame := hright.trans hleft.symm
    have hl := bytes_outRead (2 * (startFrame half s.cfg + j)) t.out
    have hr := bytes_outRead (2 * (startFrame half s.cfg + j) + 1) t.out
    rw [hsame, Nat.mul_add 2, ← Nat.mul_assoc] at hr
    rw [← Nat.mul_assoc] at hl
    exact ⟨hsame, hl.1, hl.2, hr.1, hr.2⟩
  · refine ⟨byte_dbufRead _ m hj, ?_⟩
    rw [byte_dbufRead _ _ hj, dbufRead_process ν l x d hm, if_pos rfl]
    rfl

/-- The state with other pending bits and another OUT: what no frame reads (R311). -/
def State.withOut (half full : Bool) (m : Memory) (s : State) : State :=
  { s with pendHalf := half, pendFull := full, out := m }

section
variable (half full : Bool) (m : Memory)

theorem runSlot_withOut (ν : Nat → BitVec 32) (slot : Slot) (x : F32) (s : State) :
    runSlot ν slot x (s.withOut half full m) =
      ((runSlot ν slot x s).1, (runSlot ν slot x s).2.withOut half full m) := by
  unfold runSlot
  cases slot.active <;> cases slot.effect <;> rfl

theorem fxRender_withOut (k : Nat) (x : F32) (s : State) : fxRender k x (s.withOut half full m) =
    ((fxRender k x s).1, (fxRender k x s).2.withOut half full m) :=
  fxRender_eq_of_runSlot (runSlot_withOut half full m _ _ _ s) (runSlot_withOut half full m _ _ _ _)

theorem frameOf_withOut (k : Nat) (s : State) :
    frameOf (s.withOut half full m) k = ((frameOf s k).1, (frameOf s k).2.withOut half full m) :=
  fxRender_withOut half full m k (mixed k s).1 { s with voices := (mixed k s).2 }

/-- A rendered frame is `frameOf` with its output (R311, R316). -/
theorem renderFrame_eq_frameOf (k : Nat) (s : State) :
    renderFrame k s = { (frameOf s k).2 with out := (renderFrame k s).out } := rfl

theorem frameSample_eq_frameOf (k : Nat) (s : State) :
    frameSample k s = toS16 (Config.freeNaN s.fresh k 2) s.cfg.oscale (frameOf s k).1 := rfl

/-- The frames of a half leave the state of `beforeFrame`, but for the pending bits and OUT. -/
theorem renderFrames_withOut (j k : Nat) (s : State) : renderFrames j k (s.withOut half full m) =
    (beforeFrame s k j).withOut half full (renderFrames j k (s.withOut half full m)).out := by
  induction j with
  | zero => rfl
  | succ j ih =>
    rw [renderFrames_add j 1, ih]
    change renderFrame (k + j) _ = State.withOut half full (renderFrame (k + j) _).out _
    rw [renderFrame_eq_frameOf, frameOf_withOut]
    rfl

end

/-- The start of a service clears a pending bit, which no frame reads. -/
theorem beginService_eq_withOut (half : Half) (s : State) : beginService half s =
    s.withOut (beginService half s).pendHalf (beginService half s).pendFull s.out := by
  cases half <;> rfl

/-- The frames of a service leave the state of `beforeFrame`, but for the pending bits and OUT. -/
theorem renderFrames_beginService (half : Half) (j k : Nat) (s : State) :
    ∃ a b m, renderFrames j k (beginService half s) = (beforeFrame s k j).withOut a b m := by
  rw [beginService_eq_withOut]
  exact ⟨_, _, _, renderFrames_withOut _ _ _ j k s⟩

/-- Settles O46: the service's frames leave the states of `beforeFrame`, whose samples OUT holds. -/
theorem halfHoldsItsFrames : Obligations.HalfHoldsItsFrames := by
  unfold Obligations.HalfHoldsItsFrames
  intro half s t hw h
  have hlast : ∃ a b m, t = (beforeFrame s (startFrame half s.cfg) s.cfg.h).withOut a b m := by
    obtain ⟨-, rfl⟩ := serve_next h
    exact renderFrames_beginService half _ _ s
  obtain ⟨a, b, m, hlast⟩ := hlast
  refine ⟨(congrArg State.voices hlast :), (congrArg State.filter hlast :), (congrArg State.delay hlast :),
    (congrArg State.dbuf hlast :), fun j hj => ?_⟩
  rw [(outRead_serve hw h hj).1, frameSample_eq_frameOf, renderFrames_fresh, renderFrames_cfg, beginService_fresh,
    beginService_cfg]
  obtain ⟨a', b', m', hstate⟩ := renderFrames_beginService half j (startFrame half s.cfg) s
  rw [hstate, frameOf_withOut]

/-! ### Silence -/

/-- No voice is active and both slots are transparent. -/
def Silent (s : State) : Prop :=
  (∀ v ∈ s.voices, v.active = false) ∧ transparent s.slot0 ∧ transparent s.slot1

/-- A frame of a silent block is +0.0 and leaves the state as it was (R319). -/
theorem Silent.frameOf_eq {s : State} (h : Silent s) (k : Nat) : frameOf s k = (0, s) := by
  obtain ⟨hidle, h0, h1⟩ := h
  unfold frameOf
  rw [mixVoices_inactive _ _ _ _ _ hidle]
  exact fxRender_eq_of_runSlot (runSlot_of_transparent _ _ _ h0) (runSlot_of_transparent _ _ _ h1)

theorem Silent.beforeFrame_eq {s : State} (h : Silent s) (start j : Nat) : beforeFrame s start j = s := by
  induction j with
  | zero => rfl
  | succ j ih => rw [beforeFrame, ih, h.frameOf_eq]

/-- Settles O49: every frame of a silent block takes the state before the half, and its +0.0 converts to 0. -/
theorem silenceRendersZero : Obligations.SilenceRendersZero := by
  unfold Obligations.SilenceRendersZero
  intro half s t hw hos hidle h0 h1 h k hlo hhi
  have hsilent : Silent s := ⟨hidle, h0, h1⟩
  obtain ⟨j, rfl⟩ := Nat.exists_eq_add_of_le hlo
  have hj : j < s.cfg.h := Nat.lt_of_add_lt_add_left hhi
  obtain ⟨-, -, -, -, hframes⟩ := halfHoldsItsFrames half s t hw h
  have hleft : outRead (2 * (startFrame half s.cfg + j)) t.out = 0 := by
    rw [hframes j hj, hsilent.beforeFrame_eq, hsilent.frameOf_eq, toS16_zero _ hos]
  obtain ⟨hl, hr⟩ := outRead_serve hw h hj
  exact ⟨hleft, (hr.trans hl.symm).trans hleft⟩

/-! ### A render and a response -/

/-- Settles O50: the mask and the response are among what a render does not read or write. -/
theorem renderCommutesWithResponse : Obligations.RenderCommutesWithResponse := by
  unfold Obligations.RenderCommutesWithResponse
  intro half s t r0 r1 r2 h
  obtain ⟨hr, rfl⟩ := serve_next h
  have hbegin : beginService half (respond r0 r1 r2 s) = (beginService half s).withControl false
      (beginService half s).pendHalf (beginService half s).pendFull r0 r1 r2 := by
    cases half <;> rfl
  rw [serve_eq half (respond r0 r1 r2 s) hr, hbegin, renderFrames_withControl, ← renderFrames_pendHalf,
    ← renderFrames_pendFull]
  rfl

end Sys2Proof.Machine
end

section
/-! PROOFS. The moves of the block (R345 to R348, R358): which one is next, and who sets and clears the pending bits. -/

open Sys2Proof.Claim

namespace Sys2Proof.Machine

/-! ### The next move -/

/-- A refused configuration takes no step (R341). -/
theorem step_refuse {s : State} {c : ConfigCheck} (h : nextMove s = .refuse c) : step s = .refused (.configRefused c) := by
  unfold step
  rw [h]

/-- An event that is presented runs at once (log 7). -/
theorem nextMove_event {s : State} {i : Instr} (hc : failingCheck s.cfg = none)
    (hd : decodeEvent s.eventCode = .ok i) : nextMove s = .run i s.tick := by
  simp only [nextMove, hc, hd]

/-- A pending render is served when the mask is clear (R346). -/
theorem nextMove_pending {s : State} (hc : failingCheck s.cfg = none) (he : s.eventCode = 0)
    (hp : s.noPending = false) (hm : s.rmask = false) : nextMove s = .serve (servedHalf s.tick) s.tick := by
  have hev : decodeEvent s.eventCode = .error .noEvent := by
    rw [he]
    rfl
  simp only [nextMove, hc, hev, hp, hm, Bool.false_eq_true, if_false]

/-- With no command in progress and none presented the block waits (R358). -/
theorem nextMove_idle {s : State} (hc : failingCheck s.cfg = none) (he : s.eventCode = 0)
    (hn : s.noPending = true) (hp : s.inProgress = none) (hq : s.cmdIn = []) : nextMove s = .wait s.tick := by
  rw [nextMove_command hc he hn]
  simp only [commandMove, hp, hq]

/-- Settles O23: the three moves that run an instruction. -/
theorem stepRunsTheDecodedInstruction : Obligations.StepRunsTheDecodedInstruction := by
  unfold Obligations.StepRunsTheDecodedInstruction
  exact ⟨fun s i hc hd => step_run (nextMove_event hc hd), fun s p rest i hp hd => step_run (nextMove_presents hp hd),
    fun s g hc he hn hg => step_run (nextMove_inProgress hc he hn hg)⟩

/-- Settles O22: the code 3 is ERROR, whose meaning is the same state. -/
theorem transferErrorChangesNothing : Obligations.TransferErrorChangesNothing := by
  unfold Obligations.TransferErrorChangesNothing
  refine fun s => ⟨rfl, fun hc he => ?_⟩
  have hd : decodeEvent s.eventCode = .ok .evError := by
    rw [he]
    rfl
  exact step_run (nextMove_event hc hd)

/-- Settles O25: the move is the wait, which the step answers as it is. -/
theorem idleStepHoldsState : Obligations.IdleStepHoldsState := by
  unfold Obligations.IdleStepHoldsState
  exact fun s hc he hn hp hq => step_wait (nextMove_idle hc he hn hp hq)

/-- The half that is served is pending (R346, R347). -/
theorem servedHalf_pending {s : State} (h : s.noPending = false) :
    (servedHalf s = .first ∧ s.pendHalf = true) ∨ (servedHalf s = .second ∧ s.pendFull = true) := by
  have hp : s.pendHalf = true ∨ s.pendFull = true := by
    rw [State.noPending, Bool.and_eq_false_iff] at h
    simpa using h
  unfold servedHalf
  split_ifs with hboth hchoice hhalf
  · exact .inl ⟨rfl, (Bool.and_eq_true_iff.mp hboth).1⟩
  · exact .inr ⟨rfl, (Bool.and_eq_true_iff.mp hboth).2⟩
  · exact .inl ⟨rfl, hhalf⟩
  · exact .inr ⟨rfl, hp.resolve_left hhalf⟩

/-- Settles O24: the move is the service of `servedHalf`, which is pending. -/
theorem pendingRenderIsServedFirst : Obligations.PendingRenderIsServedFirst := by
  unfold Obligations.PendingRenderIsServedFirst
  intro s hc he hp hm hr
  have hstep := (step_serve (nextMove_pending hc he hp hm)).trans (serve_eq (servedHalf s.tick) s.tick hr)
  rcases servedHalf_pending (s := s.tick) hp with ⟨hhalf, hpend⟩ | ⟨hhalf, hpend⟩
  · rw [hhalf] at hstep
    exact .inl ⟨hpend, hstep⟩
  · rw [hhalf] at hstep
    exact .inr ⟨hpend, hstep⟩

/-! ### The pending bits -/

/-- The pending bits of the states are the same. -/
def SamePending (s t : State) : Prop := t.pendHalf = s.pendHalf ∧ t.pendFull = s.pendFull

theorem SubStepOf.pending {i : Instr} {u : State → State} (hu : SubStepOf i u) (r : State) :
    SamePending r (u r) ∨ ((i = .init ∨ i = .deinit) ∧ (u r).pendHalf = false ∧ (u r).pendFull = false) := by
  cases hu with
  | effectSetSlot _ _ n => cases n <;> exact .inl ⟨rfl, rfl⟩
  | effectActivateSlot _ _ n => cases n <;> exact .inl ⟨rfl, rfl⟩
  | init => exact .inr ⟨.inl rfl, rfl, rfl⟩
  | deinit => exact .inr ⟨.inr rfl, rfl, rfl⟩
  | _ => exact .inl ⟨rfl, rfl⟩

/-- The event that a half raises (R344). -/
def Half.event : Half → Instr
  | .first => .evHalf
  | .second => .evFull

/-- What an instruction can do to the pending bits (R345). -/
inductive ExecPending (i : Instr) (s t : State) : Prop
  | kept (h : SamePending s t)
  | arrived (half : Half) (hi : i = half.event) (hlc : s.lc = .running) (h : t = arrive half s)
  | cleared (hi : i = .init ∨ i = .deinit) (hhalf : t.pendHalf = false) (hfull : t.pendFull = false)

theorem execPending_event {i : Instr} {s : State} (half : Half) (hi : i = half.event) :
    ExecPending i s (arrive half s) := by
  by_cases hlc : s.lc = .running
  · exact .arrived half hi hlc rfl
  · exact .kept ⟨by simp [hlc], by simp [hlc]⟩

theorem exec_pending {i : Instr} {s t : State} (h : exec i s = .next t) : ExecPending i s t := by
  rcases exec_kinds i s with ⟨hev, -⟩ | ⟨-, ⟨r0, r1, r2, -, e⟩ | ⟨legal, us, hr⟩⟩
  · cases i with
    | evHalf => cases h; exact execPending_event .first rfl
    | evFull => cases h; exact execPending_event .second rfl
    | evError => cases h; exact .kept ⟨rfl, rfl⟩
    | _ => cases hev
  · cases e.symm.trans h
    exact .kept ⟨rfl, rfl⟩
  · rw [hr.exec_eq] at h
    rcases execute_cases i legal us s with ⟨-, -, e⟩ | ⟨-, ⟨u, hu, e⟩ | ⟨-, e⟩⟩
    · cases e.symm.trans h
      exact .kept ⟨rfl, rfl⟩
    · cases e.symm.trans h
      rcases (hr.subSteps u (List.mem_of_getElem? hu)).pending { s with rmask := true } with hsame | ⟨hi, hh, hf⟩
      · exact .kept hsame
      · exact .cleared hi hh hf
    · cases e.symm.trans h
      exact .kept ⟨rfl, rfl⟩

/-- The code of a half's event (R107). -/
theorem eventCode_of_decodeEvent {ev : BitVec 2} {half : Half} (h : decodeEvent ev = .ok half.event) :
    ev = 1 ∨ ev = 2 := by
  have hev := encode_of_decodeEvent h
  cases half
  · cases hev
    exact .inl rfl
  · cases hev
    exact .inr rfl

/-- What a step can do to the pending bits (R345, R346). A half's event is accepted from the event input; as the
instruction of a command in progress, which no run reaches, it finds no pending bit. -/
inductive StepPending (s t : State) : Prop
  | kept (h : SamePending s t)
  | arrived (half : Half) (hs : s.acceptsRender = true ∨ s.noPending = true) (h : SamePending (arrive half s) t)
  | served (half : Half) (u : State) (hm : nextMove s = .serve half u) (h : SamePending (beginService half s) t)
  | cleared (u : State) (hm : nextMove s = .run .init u ∨ nextMove s = .run .deinit u) (hhalf : t.pendHalf = false)
      (hfull : t.pendFull = false)

theorem step_pending {s t : State} (h : step s = .next t) : StepPending s t := by
  have run {i : Instr} {v : State} (e : nextMove s = .run i v) (hv : SamePending s v) (hlc : v.lc = s.lc)
      (ha : ∀ half : Half, i = half.event → s.lc = .running → s.acceptsRender = true ∨ s.noPending = true) :
      StepPending s t := by
    obtain ⟨hhalf, hfull⟩ := hv
    rw [step_run e] at h
    rcases exec_pending h with ⟨h1, h2⟩ | ⟨half, hi, hrun, rfl⟩ | ⟨rfl | rfl, h1, h2⟩
    · exact .kept ⟨h1.trans hhalf, h2.trans hfull⟩
    · rw [hlc] at hrun
      exact .arrived half (ha half hi hrun) ⟨by simp [hhalf, hlc], by simp [hfull, hlc]⟩
    · exact .cleared v (.inl e) h1 h2
    · exact .cleared v (.inr e) h1 h2
  rcases nextMove_cases s with ⟨c, -, e⟩ | ⟨-, ⟨i, hd, e⟩ | ⟨-, -, -, e⟩ | ⟨-, -, -, e⟩ | ⟨-, hn, ⟨p, -, e⟩ | ⟨-, -, e⟩ |
    ⟨p, rest, -, -, ⟨i, -, e⟩ | ⟨er, -, e⟩⟩⟩⟩
  · cases (step_refuse e).symm.trans h
  · refine run e ⟨rfl, rfl⟩ rfl fun half hi hrun => .inl ?_
    have hcode := eventCode_of_decodeEvent (hi ▸ hd)
    simpa [State.acceptsRender, hrun] using hcode
  · cases (step_wait e).symm.trans h
    exact .kept ⟨rfl, rfl⟩
  · rw [step_serve e] at h
    obtain ⟨-, rfl⟩ := serve_next h
    exact .served _ _ e ⟨by simp, by simp⟩
  · exact run e ⟨rfl, rfl⟩ rfl fun _ _ _ => .inr hn
  · cases (step_wait e).symm.trans h
    exact .kept ⟨rfl, rfl⟩
  · exact run e ⟨rfl, rfl⟩ rfl fun _ _ _ => .inr hn
  · cases (step_reject e).symm.trans h
    exact .kept ⟨rfl, rfl⟩

/-- INIT and DEINIT clear both pending bits in their one sub-step (R284, R285). -/
theorem pending_of_lifecycle_subStep {s t : State} (hs : s.inProgress = none)
    (h : exec .init s = .next t ∨ exec .deinit s = .next t) : t.pendHalf = false ∧ t.pendFull = false := by
  rcases h with h | h
  · cases (exec_init_subStep hs).symm.trans h
    exact ⟨rfl, rfl⟩
  · have hu : [deinitStep][s.subStep]? = some deinitStep := by rw [subStep_of_none hs]; rfl
    cases (execute_subStep hu).symm.trans h
    exact ⟨rfl, rfl⟩

/-- Settles O21: the arrivals by definition, the steps that clear a bit by `step_pending`, and what each of those clears. -/
theorem arrivalSetsPendingBit : Obligations.ArrivalSetsPendingBit := by
  unfold Obligations.ArrivalSetsPendingBit
  refine ⟨fun s => ⟨rfl, rfl, rfl⟩, fun s t h => ?_, fun s t => ⟨fun h => ?_, fun h => ?_, pending_of_lifecycle_subStep⟩⟩
  · rcases step_pending h with ⟨hh, hf⟩ | ⟨half, -, hh, hf⟩ | ⟨half, u, e, hh, hf⟩ | ⟨u, e, -, -⟩
    · exact ⟨fun hs ht => by simp [hh, hs] at ht, fun hs ht => by simp [hf, hs] at ht⟩
    · exact ⟨fun hs ht => by simp [hh, hs] at ht, fun hs ht => by simp [hf, hs] at ht⟩
    · refine ⟨fun hs ht => ⟨u, .inl ?_⟩, fun hs ht => ⟨u, .inl ?_⟩⟩
      · cases half
        · exact e
        · simp [hh, hs] at ht
      · cases half
        · simp [hf, hs] at ht
        · exact e
    · exact ⟨fun _ _ => ⟨u, .inr e⟩, fun _ _ => ⟨u, .inr e⟩⟩
  · obtain ⟨-, rfl⟩ := serve_next h
    simp
  · obtain ⟨-, rfl⟩ := serve_next h
    simp

/-- A step of a block with at most one pending bit, whose accepted event finds none, leaves at most one. -/
theorem step_one_pending {s t : State} (h : step s = .next t) (hs : (s.pendHalf && s.pendFull) = false)
    (hserved : s.acceptsRender = true → s.noPending = true) : (t.pendHalf && t.pendFull) = false := by
  rcases step_pending h with ⟨hh, hf⟩ | ⟨half, hn, hh, hf⟩ | ⟨half, u, -, hh, hf⟩ | ⟨u, -, hh, -⟩
  · rwa [hh, hf]
  · have hnone : s.pendHalf = false ∧ s.pendFull = false := by simpa [State.noPending] using hn.elim hserved id
    cases half <;> simp [hh, hf, hnone]
  · cases half <;> simp [hh, hf]
  · simp [hh]

/-- Settles O57: an induction over the steps of the run; the premise is used at each accepted event. -/
theorem deadlineKeepsOneRenderPending : Obligations.DeadlineKeepsOneRenderPending := by
  unfold Obligations.DeadlineKeepsOneRenderPending
  intro s hd hs n
  induction n with
  | zero =>
    rintro _ ⟨⟩
    exact hs
  | succ n ih =>
    intro t ht
    obtain ⟨u, hu, hstep⟩ := State.after_succ_next n ht
    exact step_one_pending hstep (ih u hu) (hd.served n u hu)

end Sys2Proof.Machine
end

section
/-! PROOFS. The configuration checks of R381 in plain arithmetic, one lemma a kind of check. -/

namespace Sys2Proof.F32

theorem ge_zero_iff (x : F32) : ge x 0 = true ↔ isNaN x = false ∧ 0 ≤ units x := by
  rw [ge, le_iff, units_zero]
  exact ⟨fun ⟨_, h⟩ => h, fun h => ⟨rfl, h⟩⟩

/-- A product that is finite does not depend on the NaN encoding: it has no NaN and no infinity to come from. -/
theorem mul_eq_of_isFinite {nan : BitVec 32} {x y : F32} (h : isFinite (mul nan x y) = true) (nan' : BitVec 32) :
    mul nan' x y = mul nan x y := by
  have hnan : isNaN (mul nan x y) = false := isFinite_not_nan h
  simp only [mul] at hnan ⊢
  split_ifs at hnan ⊢ with h1 h2 h3
  · simp at hnan
  · simp at hnan
  · rfl
  · rfl

end Sys2Proof.F32

namespace Sys2Proof.Machine

open Sys2Proof.F32 (units isNaN isFinite)

/-- The largest magnitude of a table entry is 2^126 (c5). -/
theorem tableEntryLegal_iff (x : F32) :
    tableEntryLegal x = true ↔ isFinite x = true ∧ (units x).natAbs ≤ 2 ^ 126 * 2 ^ 149 := by
  have hmag : F32.magOf 0x7E800000 = 2 ^ 126 * 2 ^ 149 := by
    have h := F32.magOf_scaled 252 (2 ^ 23) (by norm_num) (.inr le_rfl)
    norm_num at h ⊢
    exact h
  rw [tableEntryLegal, decide_eq_true_iff, F32.natAbs_units, F32.mag, ← hmag, F32.magOf_le_iff, F32.isFinite_iff]
  exact ⟨fun h => ⟨h.trans_lt (by decide), h⟩, fun h => h.2⟩

/-- A stage's time is legal when its length is a finite number of samples that fits u32 (c6). -/
theorem timeLegal_iff (sr : Nat) (t : F32) : timeLegal sr t = true ↔ isFinite t = true ∧ 0 ≤ units t ∧
    ∀ nan, isFinite (F32.mul nan (F32.ofInt sr) t) = true ∧ F32.round (F32.mul nan (F32.ofInt sr) t) ≤ 2 ^ 32 - 1 := by
  simp only [timeLegal, Bool.and_eq_true, decide_eq_true_eq, F32.ge_zero_iff]
  constructor
  · rintro ⟨⟨⟨hfin, -, hpos⟩, hn⟩, hround⟩
    refine ⟨hfin, hpos, fun nan => ?_⟩
    rw [F32.mul_eq_of_isFinite hn]
    exact ⟨hn, hround⟩
  · rintro ⟨hfin, hpos, hmul⟩
    obtain ⟨hn, hround⟩ := hmul (Config.freeNaN 0 0 0 0)
    exact ⟨⟨⟨hfin, F32.isFinite_not_nan hfin, hpos⟩, hn⟩, hround⟩

/-- A level is legal in [0, 1] (c7). -/
theorem levelLegal_iff (x : F32) :
    levelLegal x = true ↔ isFinite x = true ∧ 0 ≤ units x ∧ units x ≤ 2 ^ 149 := by
  have hone : units 0x3F800000 = 2 ^ 149 := by decide
  rw [levelLegal, Bool.and_eq_true, F32.ge_zero_iff, F32.le_iff, hone]
  constructor
  · rintro ⟨⟨hn, hpos⟩, -, -, hle⟩
    exact ⟨F32.isFinite_of_abs_units_lt hn (by rw [abs_lt]; constructor <;> omega), hpos, hle⟩
  · rintro ⟨hfin, hpos, hle⟩
    exact ⟨⟨F32.isFinite_not_nan hfin, hpos⟩, F32.isFinite_not_nan hfin, rfl, hle⟩

/-- The output scale is legal when finite and positive (c9). -/
theorem scaleLegal_iff (x : F32) : (isFinite x && F32.gt x 0) = true ↔ isFinite x = true ∧ 0 < units x := by
  rw [Bool.and_eq_true, F32.gt, F32.lt_iff, F32.units_zero]
  exact ⟨fun ⟨hfin, _, _, h⟩ => ⟨hfin, h⟩, fun ⟨hfin, h⟩ => ⟨hfin, rfl, F32.isFinite_not_nan hfin, h⟩⟩

/-! ### The checks -/

section
variable (c : Config)

theorem checkPasses_c5_iff : checkPasses c .c5 = true ↔
    c.wt.length = 1280 ∧ ∀ x ∈ c.wt, isFinite x = true ∧ (units x).natAbs ≤ 2 ^ 126 * 2 ^ 149 := by
  rw [checkPasses, Bool.and_eq_true, decide_eq_true_iff, List.all_eq_true]
  simp only [tableEntryLegal_iff]

theorem checkPasses_c6_iff : checkPasses c .c6 = true ↔
    ∀ t ∈ [c.env.attackTime, c.env.decayTime, c.env.releaseTime], isFinite t = true ∧ 0 ≤ units t ∧
      ∀ nan, isFinite (F32.mul nan (F32.ofInt c.sr) t) = true ∧
        F32.round (F32.mul nan (F32.ofInt c.sr) t) ≤ 2 ^ 32 - 1 := by
  simp only [← timeLegal_iff]
  simp [checkPasses, and_assoc]

theorem checkPasses_c7_iff : checkPasses c .c7 = true ↔
    ∀ x ∈ [c.env.attackLevel, c.env.sustainLevel], isFinite x = true ∧ 0 ≤ units x ∧ units x ≤ 2 ^ 149 := by
  simp only [← levelLegal_iff]
  simp [checkPasses]

theorem checkPasses_c8_iff :
    checkPasses c .c8 = true ↔ c.vgain.length = 128 ∧ ∀ x ∈ c.vgain, isFinite x = true := by
  rw [checkPasses, Bool.and_eq_true, decide_eq_true_iff, List.all_eq_true]

/-- A configuration is legal when it passes each check. -/
theorem failingCheck_eq_none_iff : failingCheck c = none ↔ checkPasses c .c1 = true ∧
    checkPasses c .c2 = true ∧ checkPasses c .c3 = true ∧ checkPasses c .c4 = true ∧ checkPasses c .c5 = true ∧
    checkPasses c .c6 = true ∧ checkPasses c .c7 = true ∧ checkPasses c .c8 = true ∧ checkPasses c .c9 = true := by
  simp [failingCheck]

end

/-- Settles O26: check by check; and the move of a refused configuration is the refusal. -/
theorem illegalConfigurationHasNoRun : Obligations.IllegalConfigurationHasNoRun := by
  unfold Obligations.IllegalConfigurationHasNoRun
  intro s
  constructor
  · rw [failingCheck_eq_none_iff, checkPasses_c5_iff, checkPasses_c6_iff, checkPasses_c7_iff, checkPasses_c8_iff,
      ← scaleLegal_iff]
    simp only [checkPasses, decide_eq_true_iff]
  · intro c hc
    exact step_refuse (by simp only [nextMove, hc])

end Sys2Proof.Machine
end

section
/-! PROOFS. The reset state (R380), and the runs from a state that meets the invariant (R310, R340). -/

open Sys2Proof.Claim

namespace Sys2Proof.Machine

/-- A memory that lists nothing holds zero samples and elements (R380). -/
theorem outRead_nil (j : Nat) : outRead j [] = 0 := by
  simp only [outRead, Memory.readHalf, Memory.readByte_nil]
  rfl

theorem dbufRead_nil (j : Nat) : dbufRead j [] = 0 := by
  simp only [dbufRead, Memory.readWord, Memory.readByte_nil]
  rfl

/-- Settles O51: the table's rows by definition; the step waits. -/
theorem resetValues : Obligations.ResetValues := by
  unfold Obligations.ResetValues
  intro c
  refine ⟨⟨rfl, List.length_replicate, fun v hv => ?_⟩, ⟨rfl, rfl, rfl, rfl, rfl, rfl, rfl, rfl, rfl, rfl, rfl, rfl, rfl⟩,
    ⟨fun j _ => dbufRead_nil j, rfl, rfl, rfl, rfl⟩, ⟨rfl, rfl⟩, fun j _ => outRead_nil j, ⟨rfl, rfl, rfl, rfl, rfl, rfl, rfl⟩,
    rfl, rfl, fun hc => step_wait (nextMove_idle hc rfl rfl rfl rfl)⟩
  rw [List.eq_of_mem_replicate hv]
  exact ⟨rfl, rfl, rfl, rfl, rfl, rfl, rfl, rfl, rfl, rfl, rfl, rfl⟩

/-- Settles O52: each register's invariant holds of its reset value. -/
theorem resetMeetsInvariant : Obligations.ResetMeetsInvariant := by
  unfold Obligations.ResetMeetsInvariant
  intro c hc
  exact
    { config := hc
      voiceCount := List.length_replicate
      voices := fun v hv => by
        rw [List.eq_of_mem_replicate hv]
        exact Voice.inv_atReset c
      filter := Filter.inv_atReset c
      delay := Delay.inv_atReset hc
      dbufForm := rfl
      dbufSpace := rfl
      outForm := rfl
      outSpace := rfl
      mask := rfl
      response := .inl rfl
      progress := nofun }

/-- Settles O54: each step answers a state that meets the invariant again (`stepKeepsInvariant`). -/
theorem everyRunIsSafe : Obligations.EveryRunIsSafe := by
  unfold Obligations.EveryRunIsSafe
  intro s h n
  induction n generalizing s with
  | zero => exact ⟨s, rfl⟩
  | succ n ih =>
    obtain ⟨t, hstep, ht⟩ := stepKeepsInvariant s h
    obtain ⟨u, hu⟩ := ih t ht
    exact ⟨u, (State.after_succ n hstep).trans hu⟩

end Sys2Proof.Machine
end

section
/-! PROOFS. Every packet is answered once (R270, R384): `StepAnswers` is what one step does to the command port, the
command in progress and the response registers, and the run counts its steps. -/

namespace Sys2Proof.Machine

/-! ### One step -/

/-- How many commands are in progress: none or one. -/
def State.openCommands (s : State) : Nat := if s.inProgress.isSome then 1 else 0

theorem openCommands_of_none {s : State} (h : s.inProgress = none) : s.openCommands = 0 := by
  rw [State.openCommands, h]
  rfl

theorem openCommands_of_some {s : State} {p : Progress} (h : s.inProgress = some p) : s.openCommands = 1 := by
  rw [State.openCommands, h]
  rfl

/-- The responses the step from `s` to `t` writes: none or one. -/
def State.stepResponses (s t : State) : List Response := if s.endsCommand t then [t.response] else []

/-- The step from `s` to `t` takes the packets `taken` off the port; it writes the response registers exactly when it ends
a command, and a command that it takes or finds in progress is ended or in progress after it. -/
structure StepAnswers (s t : State) (taken : List Packet) : Prop where
  port  : s.cmdIn = taken ++ t.cmdIn
  count : (s.stepResponses t).length + t.openCommands = taken.length + s.openCommands
  ended : s.endsCommand t = true → t.inProgress = none
  kept  : s.endsCommand t = false → t.response = s.response

theorem stepResponses_of_ends {s t : State} (h : s.endsCommand t = true) : s.stepResponses t = [t.response] := if_pos h

theorem stepResponses_of_not_ends {s t : State} (h : s.endsCommand t = false) : s.stepResponses t = [] := by
  rw [State.stepResponses, h]
  rfl

/-- A step outside the command context: an event, a service, a wait. -/
theorem stepAnswers_outside {s t : State} (he : s.endsCommand t = false) (hport : t.cmdIn = s.cmdIn)
    (hprogress : t.inProgress = s.inProgress) (hresponse : t.response = s.response) : StepAnswers s t [] where
  port := hport.symm
  count := by rw [stepResponses_of_not_ends he, State.openCommands, hprogress]; rfl
  ended h := by rw [he] at h; cases h
  kept _ := hresponse

/-- A step that ends a command, just taken off the port or in progress. -/
theorem stepAnswers_ending {s t : State} {taken : List Packet} (he : s.endsCommand t = true)
    (ht : t.inProgress = none) (hport : s.cmdIn = taken ++ t.cmdIn) (hone : taken.length + s.openCommands = 1) :
    StepAnswers s t taken where
  port := hport
  count := by rw [stepResponses_of_ends he, openCommands_of_none ht, hone]; rfl
  ended _ := ht
  kept h := by rw [he] at h; cases h

/-- A step that applies a sub-step of a command. -/
theorem stepAnswers_subStep {s t : State} {taken : List Packet} {p : Progress} (he : s.endsCommand t = false)
    (ht : t.inProgress = some p) (hport : s.cmdIn = taken ++ t.cmdIn) (hone : taken.length + s.openCommands = 1)
    (hresponse : t.response = s.response) : StepAnswers s t taken where
  port := hport
  count := by rw [stepResponses_of_not_ends he, openCommands_of_some ht, hone]; rfl
  ended h := by rw [he] at h; cases h
  kept _ := hresponse

/-- A command's transition ends it, or applies a sub-step of it and keeps the response registers (R270). -/
theorem exec_command {i : Instr} {s t : State} (hi : i.isEvent = false) (h : exec i s = .next t) :
    t.inProgress = none ∨ ((∃ p, t.inProgress = some p) ∧ t.response = s.response) := by
  rcases exec_cases i s with ⟨hev, -⟩ | ⟨-, ⟨r0, r1, r2, e⟩ | ⟨legal, us, e, hus⟩⟩
  · rw [hi] at hev
    cases hev
  · cases e.symm.trans h
    exact .inl rfl
  · rw [e] at h
    rcases execute_cases i legal us s with ⟨-, -, e'⟩ | ⟨-, ⟨u, hu, e'⟩ | ⟨-, e'⟩⟩
    · cases e'.symm.trans h
      exact .inl rfl
    · cases e'.symm.trans h
      exact .inr ⟨⟨_, rfl⟩, (hus u (List.mem_of_getElem? hu) { s with rmask := true }).2⟩
    · cases e'.symm.trans h
      exact .inl rfl

/-- An event's arrival keeps the response registers and the command in progress (R345). -/
theorem exec_event {i : Instr} {s t : State} (hi : i.isEvent = true) (h : exec i s = .next t) :
    t.inProgress = s.inProgress ∧ t.response = s.response := by
  rcases exec_cases i s with ⟨-, e | ⟨half, e⟩⟩ | ⟨hev, -⟩
  · cases e.symm.trans h
    exact ⟨rfl, rfl⟩
  · cases e.symm.trans h
    exact ⟨by simp, by simp [State.response]⟩
  · rw [hi] at hev
    cases hev

section
variable {s t v : State} {i : Instr} (e : nextMove s = .run i v) (h : step s = .next t)
include e h

theorem stepAnswers_event (hi : i.isEvent = true) (hport : v.cmdIn = s.cmdIn) (hprogress : v.inProgress = s.inProgress)
    (hresponse : v.response = s.response) : StepAnswers s t [] := by
  rw [step_run e] at h
  obtain ⟨hp, hr⟩ := exec_event hi h
  obtain ⟨u, hu, -, hcmd, -⟩ := exec_next i v
  cases hu.symm.trans h
  exact stepAnswers_outside (by simp [State.endsCommand, e, hi]) (hcmd.trans hport) (hp.trans hprogress)
    (hr.trans hresponse)

theorem stepAnswers_command {taken : List Packet} (hi : i.isEvent = false) (hport : s.cmdIn = taken ++ v.cmdIn)
    (hone : taken.length + s.openCommands = 1) (hresponse : v.response = s.response) : StepAnswers s t taken := by
  rw [step_run e] at h
  obtain ⟨u, hu, -, hcmd, -⟩ := exec_next i v
  cases hu.symm.trans h
  rw [← hcmd] at hport
  rcases exec_command hi h with hp | ⟨⟨p, hp⟩, hr⟩
  · exact stepAnswers_ending (by simp [State.endsCommand, e, hi, hp]) hp hport hone
  · exact stepAnswers_subStep (by simp [State.endsCommand, e, hi, hp]) hp hport hone (hr.trans hresponse)

end

theorem step_answers {s t : State} (h : step s = .next t) : ∃ taken, StepAnswers s t taken := by
  rcases nextMove_cases s with ⟨c, -, e⟩ | ⟨-, ⟨i, hd, e⟩ | ⟨-, -, -, e⟩ | ⟨-, -, -, e⟩ | ⟨-, -, ⟨p, hp, e⟩ | ⟨-, -, e⟩ |
    ⟨p, rest, hp, hq, ⟨i, hd, e⟩ | ⟨er, -, e⟩⟩⟩⟩
  · cases (step_refuse e).symm.trans h
  · exact ⟨[], stepAnswers_event e h (isEvent_of_decodeEvent hd) rfl rfl rfl⟩
  · cases (step_wait e).symm.trans h
    exact ⟨[], stepAnswers_outside (by simp [State.endsCommand, e]) rfl rfl rfl⟩
  · rw [step_serve e] at h
    obtain ⟨-, rfl⟩ := serve_next h
    exact ⟨[], stepAnswers_outside (by simp [State.endsCommand, e]) (by simp) (by simp) (by simp [State.response])⟩
  · cases hi : p.instr.isEvent with
    | true => exact ⟨[], stepAnswers_event e h hi rfl rfl rfl⟩
    | false => exact ⟨[], stepAnswers_command e h hi rfl (by rw [openCommands_of_some hp]; rfl) rfl⟩
  · cases (step_wait e).symm.trans h
    exact ⟨[], stepAnswers_outside (by simp [State.endsCommand, e]) rfl rfl rfl⟩
  · exact ⟨[p], stepAnswers_command e h (isEvent_of_decodePacket hd) hq (by rw [openCommands_of_none hp]; rfl) rfl⟩
  · cases (step_reject e).symm.trans h
    exact ⟨[p], stepAnswers_ending (by simp [State.endsCommand, e]) rfl hq (by rw [openCommands_of_none hp]; rfl)⟩

/-! ### A run -/

/-- A run of `n + 1` steps that answers is one step, and a run of `n` steps that answers. -/
theorem State.step_of_after_succ {s t : State} {n : Nat} (h : State.after (n + 1) s = .next t) :
    ∃ u, step s = .next u ∧ State.after n u = .next t := by
  cases hs : step s with
  | next u => exact ⟨u, rfl, (State.after_succ n hs).symm.trans h⟩
  | fault r => exact absurd h (State.after_succ_of_stop n (by simp [hs]) t)
  | refused r => exact absurd h (State.after_succ_of_stop n (by simp [hs]) t)

theorem responses_succ {s t : State} (n : Nat) (h : step s = .next t) :
    State.responses (n + 1) s = s.stepResponses t ++ State.responses n t := by
  simp only [State.responses, h]
  rfl

/-- Over a run, the packets taken off the port are as many as the responses written, but for the commands in progress at
its two ends. -/
theorem after_answers {n : Nat} {s t : State} (h : State.after n s = .next t) :
    ∃ taken, s.cmdIn = taken ++ t.cmdIn ∧
      (State.responses n s).length + t.openCommands = taken.length + s.openCommands := by
  induction n generalizing s with
  | zero =>
    cases h
    exact ⟨[], rfl, rfl⟩
  | succ n ih =>
    obtain ⟨u, hu, hrun⟩ := State.step_of_after_succ h
    obtain ⟨first, hs⟩ := step_answers hu
    obtain ⟨later, hport, hcount⟩ := ih hrun
    have hfirst := hs.count
    refine ⟨first ++ later, by rw [hs.port, hport, List.append_assoc], ?_⟩
    rw [responses_succ n hu, List.length_append, List.length_append]
    omega

/-- The response registers hold the last response of a run, or what they held before it. -/
theorem after_response {n : Nat} {s t : State} (h : State.after n s = .next t) :
    ((State.responses n s).getLast?).getD s.response = t.response := by
  induction n generalizing s with
  | zero =>
    cases h
    rfl
  | succ n ih =>
    obtain ⟨u, hu, hrun⟩ := State.step_of_after_succ h
    obtain ⟨taken, hs⟩ := step_answers hu
    have hlast : ((s.stepResponses u).getLast?).getD s.response = u.response := by
      cases he : s.endsCommand u with
      | true => rw [stepResponses_of_ends he]; rfl
      | false => rw [stepResponses_of_not_ends he]; exact (hs.kept he).symm
    rw [responses_succ n hu, List.getLast?_append, ← ih hrun, ← hlast]
    cases (State.responses n u).getLast? <;> simp

theorem runResult_eq_some {n : Nat} {s : State} {r : RunResult} (h : State.runResult n s = some r) :
    State.after n s = .next r.state ∧ r.state.atRest = true ∧ r.responses = State.responses n s := by
  unfold State.runResult at h
  split at h
  · next t ht =>
    split_ifs at h with hrest
    cases h
    exact ⟨ht, hrest, rfl⟩
  · cases h
  · cases h

/-- Settles O59: the step by `step_answers`, the count by `after_answers`, the last response by `after_response`. -/
theorem everyCommandIsAnsweredOnce : Obligations.EveryCommandIsAnsweredOnce := by
  unfold Obligations.EveryCommandIsAnsweredOnce
  refine ⟨fun s t h => ?_, fun n s t h => after_answers h, fun n s r h => ?_⟩
  · obtain ⟨taken, hs⟩ := step_answers h
    refine ⟨fun hne => ?_, hs.ended⟩
    cases he : s.endsCommand t with
    | true => rfl
    | false => exact absurd (hs.kept he) hne
  · obtain ⟨hrun, hrest, hr⟩ := runResult_eq_some h
    rw [State.atRest, Bool.and_eq_true, Option.isNone_iff_eq_none] at hrest
    rw [hr]
    exact ⟨hrun, hrest.1, hrest.2, after_response hrun⟩

end Sys2Proof.Machine
end
